-- ==== Sys2Proof/Word.lean ====
section
/-! DEFINITION. The word types of the core (00_scope.md R11, R13). -/

namespace Sys2Proof

/-- One byte of the source, the window, the output or the fragment buffer (R11). -/
abbrev Byte := BitVec 8

/-- A host register access is 32 bits wide (10_state.md R48). -/
abbrev Word32 := BitVec 32

end Sys2Proof
end

