-- ==== Sys2Proof/Syntax.lean ====
section
/-! DEFINITION. The instructions: one constructor per row of spec/opcode_table.json, and the five kinds of code word
that carry them (30_encoding.md). -/

namespace Sys2Proof

/-- A code word, tagged with its format: the unit that reads a word decides how it is decoded (00_scope.md R16,
30_encoding.md). The tag is the context, not bits of the word. -/
inductive CodeWord where
  /-- A 32-bit word the host writes to CMD (R80). -/
  | cmd32 (word : BitVec 32)
  /-- A 9-bit symbol, the value the Huffman walk returns (R86). -/
  | sym9 (symbol : BitVec 9)
  /-- The lead byte of a position code (R91). -/
  | pos8x (lead : BitVec 8)
  /-- A payload method tag (R95). -/
  | method8 (tag : BitVec 8)
  /-- A method-2 block type byte (R97, R98). -/
  | blk8 (blockType : BitVec 8)
  deriving DecidableEq, Repr

/-- The instructions of the core: host commands and stream tokens (R16). -/
inductive Instr where
  /-- INIT c (R231). -/
  | init (c : Bool)
  /-- READ_BYTE (R232). -/
  | readByte
  /-- READ_WORD_LE (R233). -/
  | readWordLe
  /-- DECODE_SECTOR m, sc (R234). -/
  | decodeSector (m : BitVec 8) (sc : BitVec 8)
  /-- DECODE_LEN m, n (R235). -/
  | decodeLen (m : BitVec 8) (n : BitVec 16)
  /-- LIT b: symbol b (R87, R182). -/
  | lit (b : BitVec 8)
  /-- MATCH: symbol 256 + k, a match of length k + 3 (R88, R183). -/
  | lzMatch (k : BitVec 8)
  /-- POS_E1: lead byte 000xxxxx (R92). -/
  | posE1 (x : BitVec 5)
  /-- POS_E2_LO: lead byte 001xxxxx. -/
  | posE2Lo (x : BitVec 5)
  /-- POS_E2_HI: lead byte 0100xxxx. -/
  | posE2Hi (x : BitVec 4)
  /-- POS_E3_LO: lead byte 0101xxxx. -/
  | posE3Lo (x : BitVec 4)
  /-- POS_E3_MID: lead byte 011xxxxx. -/
  | posE3Mid (x : BitVec 5)
  /-- POS_E3_HI: lead byte 1000xxxx. -/
  | posE3Hi (x : BitVec 4)
  /-- POS_E4_LO: lead byte 1001xxxx. -/
  | posE4Lo (x : BitVec 4)
  /-- POS_E4_HI: lead byte 101xxxxx. -/
  | posE4Hi (x : BitVec 5)
  /-- POS_E5_LO: lead byte 110xxxxx. -/
  | posE5Lo (x : BitVec 5)
  /-- POS_E5_HI: lead byte 1110xxxx. -/
  | posE5Hi (x : BitVec 4)
  /-- POS_E6: lead byte 1111xxxx. -/
  | posE6 (x : BitVec 4)
  /-- RAW: method 0 (R95, R201). -/
  | raw
  /-- REPEAT2: method 1 (R95, R202). -/
  | repeat2
  /-- BLOCK_RLE: method 2 (R95, R204). -/
  | blockRle
  /-- BLK_LITERAL: block type 0 (R97, R205). -/
  | blkLiteral
  /-- BLK_FRAGMENT bt: block type 1..255 (R98, R206). -/
  | blkFragment (bt : BitVec 8)
  deriving DecidableEq, Repr

end Sys2Proof
end

