-- ==== Sys2Proof/WellFormed.lean ====
section
/-! DEFINITION. Which instruction terms have an encoding (30_encoding.md). -/

namespace Sys2Proof

/-- A MATCH symbol is at most 313 (R88, R89), and a fragment block's type is not 0 (R98). Every other operand value
that fits its field has an encoding (R82, R84, R94, R95, R97). -/
def WellFormed : Instr → Bool
  | .lzMatch k => decide (k.toNat < 58)
  | .blkFragment bt => decide (bt ≠ 0#8)
  | .init _ | .readByte | .readWordLe | .decodeSector _ _ | .decodeLen _ _ | .lit _ => true
  | .posE1 _ | .posE2Lo _ | .posE2Hi _ | .posE3Lo _ | .posE3Mid _ | .posE3Hi _ => true
  | .posE4Lo _ | .posE4Hi _ | .posE5Lo _ | .posE5Hi _ | .posE6 _ => true
  | .raw | .repeat2 | .blockRle | .blkLiteral => true

end Sys2Proof
end

