-- ==== Sys2Proof/Decode.lean ====
section
/-! DEFINITION. Decoding, total on every code word and rejecting by name, and the encoder written from the same tables
(30_encoding.md). -/

namespace Sys2Proof

/-- Why a code word is no instruction. -/
inductive Reject where
  /-- OP is 0x0 or 0x6..0xF (R81, R99). -/
  | reservedOpcode
  /-- A field that must be 0 holds a 1 (R82). -/
  | reservedField
  /-- A symbol of 314..511 (R89). -/
  | noSuchSymbol
  /-- A method tag of 3..255 (R95, R99). -/
  | unknownMethod
  deriving DecidableEq, Repr

/-- R80-R83: a host command word. -/
def decodeCmd (word : BitVec 32) : Except Reject Instr :=
  let op := word.extractLsb' 0 4
  let rsv0 := word.extractLsb' 4 4
  let a := word.extractLsb' 8 8
  let b := word.extractLsb' 16 16
  match op.toNat with
  | 1 => if rsv0 = 0 ∧ a.extractLsb' 1 7 = 0 ∧ b = 0 then .ok (.init (a.getLsbD 0)) else .error .reservedField
  | 2 => if rsv0 = 0 ∧ a = 0 ∧ b = 0 then .ok .readByte else .error .reservedField
  | 3 => if rsv0 = 0 ∧ a = 0 ∧ b = 0 then .ok .readWordLe else .error .reservedField
  | 4 =>
    if rsv0 = 0 ∧ b.extractLsb' 8 8 = 0 then .ok (.decodeSector a (b.extractLsb' 0 8)) else .error .reservedField
  | 5 => if rsv0 = 0 then .ok (.decodeLen a b) else .error .reservedField
  | _ => .error .reservedOpcode

/-- R87-R89: a decoded symbol. -/
def decodeSym (symbol : BitVec 9) : Except Reject Instr :=
  let low := symbol.extractLsb' 0 8
  if symbol.getLsbD 8 then
    if low.toNat < 58 then .ok (.lzMatch low) else .error .noSuchSymbol
  else .ok (.lit low)

/-- R92: the class of a position code's lead byte, told by its top four bits. Every byte has one (R94). -/
def decodePos (lead : BitVec 8) : Instr :=
  let x5 := lead.extractLsb' 0 5
  let x4 := lead.extractLsb' 0 4
  match (lead.extractLsb' 4 4).toNat with
  | 0x0 | 0x1 => .posE1 x5
  | 0x2 | 0x3 => .posE2Lo x5
  | 0x4 => .posE2Hi x4
  | 0x5 => .posE3Lo x4
  | 0x6 | 0x7 => .posE3Mid x5
  | 0x8 => .posE3Hi x4
  | 0x9 => .posE4Lo x4
  | 0xA | 0xB => .posE4Hi x5
  | 0xC | 0xD => .posE5Lo x5
  | 0xE => .posE5Hi x4
  | _ => .posE6 x4

/-- R95, R99: a method tag. -/
def decodeMethod (tag : BitVec 8) : Except Reject Instr :=
  match tag.toNat with
  | 0 => .ok .raw
  | 1 => .ok .repeat2
  | 2 => .ok .blockRle
  | _ => .error .unknownMethod

/-- R97, R98: a block type. Every byte is one (R99). -/
def decodeBlk (blockType : BitVec 8) : Instr :=
  if blockType = 0 then .blkLiteral else .blkFragment blockType

/-- Decoding in the context the word is read in. -/
def decode : CodeWord → Except Reject Instr
  | .cmd32 word => decodeCmd word
  | .sym9 symbol => decodeSym symbol
  | .pos8x lead => .ok (decodePos lead)
  | .method8 tag => decodeMethod tag
  | .blk8 blockType => .ok (decodeBlk blockType)

/-- R80: a command word from its fields, RSV0 = 0. -/
def cmdWord (b : BitVec 16) (a : BitVec 8) (op : BitVec 4) : BitVec 32 := b ++ a ++ 0#4 ++ op

/-- The code word of an instruction (R84, R87, R88, R92, R95, R97, R98). -/
def encode : Instr → CodeWord
  | .init c => .cmd32 (cmdWord 0#16 (BitVec.setWidth 8 (BitVec.ofBool c)) 0x1#4)
  | .readByte => .cmd32 (cmdWord 0#16 0#8 0x2#4)
  | .readWordLe => .cmd32 (cmdWord 0#16 0#8 0x3#4)
  | .decodeSector m sc => .cmd32 (cmdWord (BitVec.setWidth 16 sc) m 0x4#4)
  | .decodeLen m n => .cmd32 (cmdWord n m 0x5#4)
  | .lit b => .sym9 (0#1 ++ b)
  | .lzMatch k => .sym9 (1#1 ++ k)
  | .posE1 x => .pos8x (0b000#3 ++ x)
  | .posE2Lo x => .pos8x (0b001#3 ++ x)
  | .posE2Hi x => .pos8x (0b0100#4 ++ x)
  | .posE3Lo x => .pos8x (0b0101#4 ++ x)
  | .posE3Mid x => .pos8x (0b011#3 ++ x)
  | .posE3Hi x => .pos8x (0b1000#4 ++ x)
  | .posE4Lo x => .pos8x (0b1001#4 ++ x)
  | .posE4Hi x => .pos8x (0b101#3 ++ x)
  | .posE5Lo x => .pos8x (0b110#3 ++ x)
  | .posE5Hi x => .pos8x (0b1110#4 ++ x)
  | .posE6 x => .pos8x (0b1111#4 ++ x)
  | .raw => .method8 0#8
  | .repeat2 => .method8 1#8
  | .blockRle => .method8 2#8
  | .blkLiteral => .blk8 0#8
  | .blkFragment bt => .blk8 bt

/-- A word of the opcode table, which comes without the context it is read in. DESIGN CHOICE, log 1: 32 bits are a
command, 16 bits a symbol, and 8 bits are read by the row with the most fixed bits, the earlier row of the table where
two are alike: 0, 1 and 2 are the methods, every other byte is a position lead byte. -/
def tableWord (nbits w : Nat) : Option CodeWord :=
  if nbits = 32 then if w < 4294967296 then some (.cmd32 (BitVec.ofNat 32 w)) else none
  else if nbits = 16 then if w < 512 then some (.sym9 (BitVec.ofNat 9 w)) else none
  else if nbits = 8 then
    if w < 3 then some (.method8 (BitVec.ofNat 8 w))
    else if w < 256 then some (.pos8x (BitVec.ofNat 8 w)) else none
  else none

/-- The instruction the decoder reads from a word numbered as spec/opcode_table.json numbers it. -/
def decodeTableWord (nbits w : Nat) : Option Instr :=
  match tableWord nbits w with
  | some c =>
    match decode c with
    | .ok i => some i
    | .error _ => none
  | none => none

end Sys2Proof
end

