-- ==== Sys2Proof/Config.lean ====
section
/-! DEFINITION. The constants of the core (00_scope.md R6-R10), the spec's one named parameter, and the free values
the spec leaves open. -/

namespace Sys2Proof

/-- R6. -/
abbrev Config.THRESHOLD : Nat := 2
/-- R6: the look-ahead size. -/
abbrev Config.LASIZE : Nat := 60
/-- R6: 256 - THRESHOLD + LASIZE symbols. -/
abbrev Config.N_CHAR : Nat := 314
/-- R7: N_CHAR * 2 - 1 tree slots. -/
abbrev Config.TSIZE : Nat := 627
/-- R7: TSIZE - 1, the root's slot. -/
abbrev Config.ROOT : Nat := 626
/-- R8: the window modulus. -/
abbrev Config.SBSIZE : Nat := 4096
/-- R8: SBSIZE - LASIZE, the initial write cursor. -/
abbrev Config.R_INIT : Nat := 4036
/-- R8: the space character the window is filled with. -/
abbrev Config.FILL : Byte := 0x20#8
/-- R9: the root frequency that triggers a rebuild. -/
abbrev Config.MAX_FREQ : Nat := 0x8000
/-- R9: the value kept at freq[TSIZE]. -/
abbrev Config.FREQ_SENTINEL : Nat := 0xFFFF
/-- R10: the largest target size. -/
abbrev Config.MAX_TARGET : Nat := 8192
/-- R10: the bytes of OUTBUF. -/
abbrev Config.OUTBUF_SIZE : Nat := 8192
/-- R10: the bytes of FRAG. -/
abbrev Config.FRAG_MAX : Nat := 8192

/-- The spec's named parameter (92_eei_decisions.md D5, 93_implementation_defined.md U10), at its default.
At `false` the end of the source stops the Decompressor only when a bit past the end is needed. DESIGN CHOICE, log 13. -/
def Config.eofAtFirstFailedRead : Bool := true

/-- What STATUS[3:1] read before the first INIT: any value (R29, R44, U4). Applied to the count of draws. Log 5. -/
opaque Config.unspecifiedStatus : Nat → BitVec 3

/-- What a byte of OUTBUF reads before the first INIT: any value (R43, R44, U4). Applied to the count of draws. Log 5. -/
opaque Config.unspecifiedByte : Nat → BitVec 8

end Sys2Proof
end

