-- ==== Sys2Proof/Machine/State.lean ====
section
/-! DEFINITION. The state of the core as plain data (10_state.md R20), the reasons a step can stop, and the state
after power-on reset (R44, R290). -/

namespace Sys2Proof.Machine

/-- A byte memory: (address, byte) pairs, addresses rising, none equal to what an unlisted address reads as. -/
abbrev Memory := List Host.Cell

/-- The two states of the match-copy machine (R37). -/
inductive MState where
  | idle
  | copyingMatch
  deriving DecidableEq, Repr

/-- The values of ERR that are ever written (R261); codes 6..15 never are (U6). -/
inductive Err where
  | success
  | streamExhausted
  | unknownCompressionMethod
  | invalidSizeCode
  | treeInvariantViolation
  | illegalCommand
  deriving DecidableEq, Repr

/-- The Huffman tree arrays (R33, R34, R35). -/
structure Tree where
  freq : Vector (BitVec 16) 628
  son : Vector (BitVec 10) 627
  parent : Vector (BitVec 10) 941
  deriving DecidableEq, Repr

/-- What the outside world does next (45_host_commands.md R239, 10_state.md R48). Log 3, log 17. -/
inductive Input where
  /-- The host writes a 32-bit word at a byte offset of the register window (R48). -/
  | write32 (offset : BitVec 14) (word : BitVec 32)
  /-- The host reads a 32-bit register (R48). -/
  | read32 (offset : BitVec 14)
  /-- The host reads one byte of OUTBUF (R48). -/
  | read8 (offset : BitVec 14)
  /-- The host attaches a byte source, positioned at a byte (R293). -/
  | attach (src : Array (BitVec 8)) (spos : Nat)
  /-- Power-on reset (R290). -/
  | powerOn
  /-- One code word handed straight to the unit that reads it. DESIGN CHOICE, log 2: no host can do this. -/
  | token (word : CodeWord)
  deriving DecidableEq, Repr

/-- Why the model stops. No command raises one. -/
inductive Fault where
  /-- Raised by `stepInput`: a register access R48 does not have (misaligned, or of another width). Safe: the model
  stops where the spec gives no effect. Log 16. -/
  | unsupportedAccess
  /-- Raised by a payload token run alone whose output would pass the end of OUTBUF (R62: addresses 0..8191). Safe:
  no command reaches it. Log 12. -/
  | outbufOverrun
  deriving DecidableEq, Repr

/-- Why the model has no meaning to give. -/
inductive Refusal where
  /-- Raised by `exec` in an arm that has no meaning yet. Safe. No arm of this model does. -/
  | notModelled (mnemonic : String)
  deriving DecidableEq, Repr

/-- The state of the core (R20), the command-local registers (R41), the byte source (R42) and the model's own fields
(log 3, 5, 11, 13, 23). -/
structure State where
  /-- R21. -/
  inited : Bool
  /-- R22. -/
  faulted : Bool
  /-- R23. -/
  compressed : Bool
  /-- R24. -/
  eof : Bool
  /-- R26. -/
  shortFill : Bool
  /-- R25. -/
  err : Err
  /-- R27. -/
  data : BitVec 16
  /-- R28. -/
  outlen : BitVec 14
  /-- R31. -/
  bitbuf : BitVec 16
  /-- R32. -/
  bitcnt : BitVec 5
  /-- R33-R35. -/
  tree : Tree
  /-- R60: the window; an unlisted address reads 0x20. -/
  win : Memory
  /-- R36. -/
  r : BitVec 12
  /-- R37. -/
  mstate : MState
  /-- R38. -/
  msrc : BitVec 12
  /-- R39. -/
  mlen : BitVec 6
  /-- R40. -/
  copied : BitVec 6
  /-- R62: the output buffer; an unlisted address reads 0x00. -/
  outbuf : Memory
  /-- R41: output bytes still to produce. -/
  remaining : BitVec 14
  /-- R41: the next OUTBUF index. -/
  w : BitVec 14
  /-- R41: the fragment size, an unbounded count. -/
  fsize : Nat
  /-- R41: a run count. -/
  cnt : BitVec 16
  /-- R63: the fragment buffer; an unlisted address reads 0x00. -/
  frag : Memory
  /-- The parameter T of DecodePayload (R200). The model's own, log 11. -/
  tgt : BitVec 14
  /-- The local `short` of DecodePayload (R200). The model's own, log 11. -/
  short : Bool
  /-- The value DecodePosition returns (R162). The model's own, log 11. -/
  dist : BitVec 12
  /-- The value PushLiteral returns (R161). The model's own, log 11. -/
  outByte : BitVec 8
  /-- Sentinel bits loaded since INIT, for the parameter of log 13. The model's own. -/
  padbits : Nat
  /-- R42: the byte source. -/
  src : Array (BitVec 8)
  /-- R42: the source cursor. -/
  spos : Nat
  /-- What the host does next, oldest first. The model's own, log 3. -/
  inputs : List Input
  /-- What the last register access returned to the host. The model's own, log 23. -/
  resp : BitVec 32
  /-- How many free values have been drawn. The model's own, log 5. -/
  draws : Nat
  deriving DecidableEq, Repr

/-- The tree arrays before the first INIT: unspecified (R44), all 0 here. DESIGN CHOICE, log 4. -/
def Tree.zero : Tree where
  freq := Vector.replicate 628 0
  son := Vector.replicate 627 0
  parent := Vector.replicate 941 0

/-- Power-on reset (R44, R290): INITED, FAULTED, SHORT_FILL, ERR, DATA and OUTLEN as the spec says. Every other field
is unspecified there and named here: DESIGN CHOICE, log 4. -/
def State.reset : State where
  inited := false
  faulted := false
  compressed := false
  eof := false
  shortFill := false
  err := .success
  data := 0
  outlen := 0
  bitbuf := 0
  bitcnt := 0
  tree := Tree.zero
  win := []
  r := 0
  mstate := .idle
  msrc := 0
  mlen := 0
  copied := 0
  outbuf := []
  remaining := 0
  w := 0
  fsize := 0
  cnt := 0
  frag := []
  tgt := 0
  short := false
  dist := 0
  outByte := 0
  padbits := 0
  src := #[]
  spos := 0
  inputs := []
  resp := 0
  draws := 0

end Sys2Proof.Machine
end

