-- ==== Sys2Proof/Machine/Ops.lean ====
section
/-! DEFINITION. The named operations every meaning is written over: byte memories, the three memories of the core, the
result of a primitive, and the raise of an error. -/

namespace Sys2Proof.Machine

open Sys2Proof.Config

/-! ### Byte memories in one canonical form -/

/-- The byte at address `a`; `fill` is what an unlisted address reads as. -/
def Memory.read (fill : Byte) : Memory → Nat → Byte
  | [], _ => fill
  | (x, v) :: m, a => if x = a then v else Memory.read fill m a

/-- Writes one byte and keeps the canonical form: writing `fill` removes the entry. -/
def Memory.write (fill : Byte) : Memory → Nat → Byte → Memory
  | [], a, b => if b = fill then [] else [(a, b)]
  | (x, v) :: m, a, b =>
    if a < x then if b = fill then (x, v) :: m else (a, b) :: (x, v) :: m
    else if a = x then if b = fill then m else (a, b) :: m
    else (x, v) :: Memory.write fill m a b

/-- Gives every address below `n` the value an unlisted address reads as. -/
def Memory.clearBelow (m : Memory) (n : Nat) : Memory := m.filter fun c => decide (n ≤ c.1)

/-- The canonical form: addresses strictly rising, no entry equal to `fill`. -/
abbrev Memory.wf (fill : Byte) (m : Memory) : Prop :=
  m.Pairwise (fun c d => c.1 < d.1) ∧ ∀ c ∈ m, c.2 ≠ fill

/-- Every listed address is below `n`. -/
abbrev Memory.below (n : Nat) (m : Memory) : Prop := ∀ c ∈ m, c.1 < n

/-! ### The memories of the core -/

/-- `WIN[a]` (R60). -/
def State.winRead (s : State) (a : Nat) : Byte := s.win.read FILL a

/-- `OUTBUF[a]` (R62). -/
def State.outRead (s : State) (a : Nat) : Byte := s.outbuf.read 0 a

/-- `FRAG[a]` (R63). -/
def State.fragRead (s : State) (a : Nat) : Byte := s.frag.read 0 a

/-- `FRAG[k] <- b`, kept only for `k < FRAG_MAX` (R206). -/
def State.fragWrite (s : State) (k : Nat) (b : Byte) : State :=
  { s with frag := if k < FRAG_MAX then s.frag.write 0 k b else s.frag }

/-- `Emit(b)` (R200). OUTBUF has no byte past 8191 (R62): nothing is stored there, and no command gets there. -/
def emit (b : Byte) (s : State) : State :=
  { s with
    outbuf := if s.w.toNat < OUTBUF_SIZE then s.outbuf.write 0 s.w.toNat b else s.outbuf
    w := s.w + 1 }

/-! ### Results of primitives, and errors -/

/-- What a primitive that may raise answers: a value and the state after it, or the error and the state at the raise
(R260: the effects made before the raise stay). -/
inductive Res (α : Type) where
  | ok (a : α) (s : State)
  | raise (e : Err) (s : State)
  deriving DecidableEq, Repr

/-- Runs `f` on what `x` answers; a raise ends the command (R260). -/
@[inline] def Res.bind {α β : Type} (x : Res α) (f : α → State → Res β) : Res β :=
  match x with
  | .ok a s => f a s
  | .raise e s => .raise e s

/-- `raise E`: the one operation by which a command ends in an error (R260, R262). The code goes to ERR;
TreeInvariantViolation also sets FAULTED (R265). Nothing is saved and control goes nowhere (R270), and there is no
return from it: the next command word is the only way on (R271). -/
def raiseErr (e : Err) (s : State) : State :=
  { s with err := e, faulted := s.faulted || decide (e = .treeInvariantViolation) }

/-- `Illegal()` (R237): ERR <- 5 and nothing else. -/
def illegal (s : State) : State := raiseErr .illegalCommand s

/-- The state in which a token run alone ends: its own effect, or the error it raised. -/
def Res.settle {α : Type} : Res α → State
  | .ok _ s => s
  | .raise e s => raiseErr e s

end Sys2Proof.Machine
end

