-- ==== Sys2Proof/Machine/Flags.lean ====
section
/-! DEFINITION. The status register: the code of an error (R261) and the STATUS view (R29). -/

namespace Sys2Proof.Machine

open Sys2Proof.Config

/-- R261. -/
def Err.code : Err → BitVec 4
  | .success => 0
  | .streamExhausted => 1
  | .unknownCompressionMethod => 2
  | .invalidSizeCode => 3
  | .treeInvariantViolation => 4
  | .illegalCommand => 5

/-- MATCH_PENDING, STATUS[3] (R29): mstate is CopyingMatch, also just after a match's last byte (R184). -/
def State.matchPending (s : State) : Bool := decide (s.mstate = .copyingMatch)

/-- STATUS (R29) with `mid` in bits 3:1: bits 31:12 and 7 read 0, and READY is always 1. -/
def State.statusWith (s : State) (mid : BitVec 3) : BitVec 32 :=
  0#20 ++ s.err.code ++ 0#1 ++ BitVec.ofBool s.faulted ++ BitVec.ofBool s.inited ++ BitVec.ofBool s.shortFill ++ mid
    ++ 1#1

/-- STATUS once an INIT has completed (R29). -/
def State.status (s : State) : BitVec 32 :=
  s.statusWith (BitVec.ofBool s.matchPending ++ BitVec.ofBool s.compressed ++ BitVec.ofBool s.eof)

/-- R26, R203: a method-1 payload whose pairs did not fill the target. -/
def State.shortOf (s : State) : Bool := decide (s.w.toNat < s.tgt.toNat)

end Sys2Proof.Machine
end

