-- ==== Sys2Proof/Machine/BitStream.lean ====
section
/-! DEFINITION. The BitStream family (40_bitstream.md R110-R118). -/

namespace Sys2Proof.Machine

open Sys2Proof.Config

/-- `SrcRead()` (R110): the next source byte, or `none` at the end. -/
def srcRead (s : State) : Option Byte × State :=
  match s.src[s.spos]? with
  | some b => (some b, { s with spos := s.spos + 1 })
  | none => (none, s)

/-- `RawByte()` (R111): EOF is sticky, and the source is never asked again. -/
def rawByte (s : State) : Option Byte × State :=
  if s.eof then (none, s)
  else
    match srcRead s with
    | (some b, s') => (some b, s')
    | (none, s') => (none, { s' with eof := true })

/-- Puts byte `b` just below the valid bits of `bitbuf` (R112). -/
def loadByte (b : Byte) (s : State) : State :=
  { s with
    bitbuf := s.bitbuf ||| (b.setWidth 16 <<< (8 - s.bitcnt.toNat))
    bitcnt := s.bitcnt + 8 }

/-- One pass of the loop of `Refill()` (R112): a source byte, or the sentinel 0x00 past the end. -/
def refillOnce (s : State) : State :=
  match rawByte s with
  | (some b, s') => loadByte b s'
  | (none, s') => loadByte 0 { s' with padbits := s'.padbits + 8 }

/-- The loop of `Refill()`: while bitcnt <= 8. -/
def refillLoop : Nat → State → State
  | 0, s => s
  | n + 1, s => if s.bitcnt.toNat ≤ 8 then refillLoop n (refillOnce s) else s

/-- `Refill()` (R112). Each pass adds 8 to a bitcnt of at most 8, so two passes end the loop. -/
def refill (s : State) : State := refillLoop 2 s

/-- `NextBit()` (R113). -/
def nextBit (s : State) : Bool × State :=
  let s1 := refill s
  (s1.bitbuf.getLsbD 15, { s1 with bitbuf := s1.bitbuf <<< 1, bitcnt := s1.bitcnt - 1 })

/-- `NextBits8()` (R114). -/
def nextBits8 (s : State) : Byte × State :=
  let s1 := refill s
  (s1.bitbuf.extractLsb' 8 8, { s1 with bitbuf := s1.bitbuf <<< 8, bitcnt := s1.bitcnt - 8 })

/-- Reads `n` bits and folds them into `v` MSB first: `v <- (v << 1) | NextBit()` (R67, R162). -/
def foldBits : Nat → Nat → State → Nat × State
  | 0, v, s => (v, s)
  | n + 1, v, s =>
    match nextBit s with
    | (b, s') => foldBits n (2 * v + b.toNat) s'

/-- Real, not yet consumed bits in the buffer, for the parameter of log 13. -/
def State.realBits (s : State) : Nat := s.bitcnt.toNat - s.padbits

end Sys2Proof.Machine
end

