-- ==== Sys2Proof/Machine/Huffman.lean ====
section
/-! DEFINITION. The adaptive Huffman family (41_huffman.md R130-R139). -/

namespace Sys2Proof.Machine

open Sys2Proof.Config

/-! ### The arrays. No state the rules reach reads or writes outside them; log 10 says what happens there. -/

/-- `freq[i]`; past the array, the largest 16-bit value, so that every scan ends. -/
def Tree.freqAt (t : Tree) (i : Nat) : Nat := (t.freq[i]?.getD 0xFFFF#16).toNat

/-- `son[i]`. -/
def Tree.sonAt (t : Tree) (i : Nat) : Nat := (t.son[i]?.getD 0#10).toNat

/-- `parent[i]`. -/
def Tree.parentAt (t : Tree) (i : Nat) : Nat := (t.parent[i]?.getD 0#10).toNat

/-- `freq[i] <- v`. -/
def Tree.setFreq (t : Tree) (i v : Nat) : Tree := { t with freq := t.freq.setIfInBounds i (BitVec.ofNat 16 v) }

/-- `son[i] <- v`. -/
def Tree.setSon (t : Tree) (i v : Nat) : Tree := { t with son := t.son.setIfInBounds i (BitVec.ofNat 10 v) }

/-- `parent[i] <- v`. -/
def Tree.setParent (t : Tree) (i v : Nat) : Tree :=
  { t with parent := t.parent.setIfInBounds i (BitVec.ofNat 10 v) }

/-- The back-links of what slot `p` holds: `parent[i] <- p`, and `parent[i + 1] <- p` for an internal node (R133). -/
def Tree.linkTo (t : Tree) (i p : Nat) : Tree :=
  if i < TSIZE then (t.setParent i p).setParent (i + 1) p else t.setParent i p

/-! ### HufInit -/

/-- The frequency HufInit gives slot `j` (R130): 1 at a leaf; at internal slot `j` the sum over slots `2(j - 314)` and
`2(j - 314) + 1`. The tree is 9 deep (R131), so fuel 10 covers every slot. -/
def initFreq : Nat → Nat → Nat
  | 0, _ => 1
  | n + 1, j => if j < N_CHAR then 1 else initFreq n (2 * (j - N_CHAR)) + initFreq n (2 * (j - N_CHAR) + 1)

/-- The elements `f 0`, `f 1`, .., `f (n - 1)`. -/
def arrayOf {α : Type} (n : Nat) (f : Nat → α) : Vector α n := ⟨⟨(List.range n).map f⟩, by simp⟩

/-- `HufInit()` (R130), each element by the value its one assignment gives it. -/
def hufInit : Tree where
  freq := arrayOf 628 fun j => BitVec.ofNat 16 (if j = TSIZE then FREQ_SENTINEL else initFreq 10 j)
  son := arrayOf 627 fun j => BitVec.ofNat 10 (if j < N_CHAR then j + TSIZE else 2 * (j - N_CHAR))
  parent := arrayOf 941 fun x =>
    BitVec.ofNat 10 (if x < ROOT then N_CHAR + x / 2 else if x = ROOT then 0 else x - TSIZE)

/-! ### Update -/

/-- How a tree operation ends: with the new tree, or at a failed check with the tree as it stood (R139, R265). -/
inductive TreeRes where
  | ok (t : Tree)
  | breach (t : Tree)
  deriving DecidableEq, Repr

/-- The scan of `Update` (R133): `while k > freq[l + 1]: l <- l + 1`. Slot 627 holds the sentinel, so `TSIZE` steps
are enough. -/
def Tree.scanFrom (t : Tree) (k : Nat) : Nat → Nat → Nat
  | 0, l => l
  | n + 1, l => if k > t.freqAt (l + 1) then t.scanFrom k n (l + 1) else l

/-- Exchanges the contents of slots `c` and `l`, where slot `c` has just been counted to `k` (R133). -/
def Tree.exchange (t : Tree) (c l k : Nat) : Tree :=
  let t1 := (t.setFreq c (t.freqAt l)).setFreq l k
  let i := t1.sonAt c
  let t2 := t1.linkTo i l
  let j := t2.sonAt l
  ((t2.setSon l i).linkTo j c).setSon c j

/-- One pass of the loop of `Update` up to `c <- l` (R133): the new tree, and the slot the walk goes on from. -/
def Tree.count (t : Tree) (c : Nat) : Tree × Nat :=
  let t1 := t.setFreq c (t.freqAt c + 1)
  let k := t1.freqAt c
  if k > t1.freqAt (c + 1) then
    let l := t1.scanFrom k TSIZE (c + 1)
    (t1.exchange c l k, l)
  else (t1, c)

/-- The loop of `Update`; `n` is how many more steps the check of R139 allows after this one. -/
def updateLoop : Nat → Tree → Nat → TreeRes
  | n, t, c =>
    match t.count c with
    | (t', l) =>
      match n with
      | 0 => .breach t'
      | n + 1 => if t'.parentAt l = 0 then .ok t' else updateLoop n t' (t'.parentAt l)

/-! ### Rebuild -/

/-- Step 1 at slot `i` (R136): a leaf moves to slot `j` with its frequency halved, rounding up. -/
def Tree.gather (t : Tree) (j i : Nat) : Tree × Nat :=
  if TSIZE ≤ t.sonAt i then ((t.setFreq j ((t.freqAt i + 1) / 2)).setSon j (t.sonAt i), j + 1) else (t, j)

/-- Step 1: the leaves, in slot order. -/
def gatherLeaves (t : Tree) : Tree × Nat := (List.range TSIZE).foldl (fun p i => p.1.gather p.2 i) (t, 0)

/-- Step 2's search (R136): the insertion point is after every slot up to `k` with a frequency of at most `f`. -/
def Tree.insertionPoint (t : Tree) (f : Nat) : Nat → Nat
  | 0 => if f < t.freqAt 0 then 0 else 1
  | k + 1 => if f < t.freqAt (k + 1) then t.insertionPoint f k else k + 2

/-- The shift of step 2: slots `k .. k + n - 1` move up by one, the highest first. -/
def Tree.shiftUp (t : Tree) (k : Nat) : Nat → Tree
  | 0 => t
  | n + 1 => ((t.setFreq (k + n + 1) (t.freqAt (k + n))).setSon (k + n + 1) (t.sonAt (k + n))).shiftUp k n

/-- Step 2 at internal slot `j` (R136): pair the next two slots and insert their parent. -/
def Tree.pairInto (t : Tree) (j : Nat) : Tree :=
  let i := 2 * (j - N_CHAR)
  let f := t.freqAt i + t.freqAt (i + 1)
  let k := t.insertionPoint f (j - 1)
  ((t.shiftUp k (j - k)).setFreq k f).setSon k i

/-- Step 2. -/
def pairAll (t : Tree) : Tree := (List.range (TSIZE - N_CHAR)).foldl (fun u m => u.pairInto (N_CHAR + m)) t

/-- Step 3: every back-link. -/
def relink (t : Tree) : Tree := (List.range TSIZE).foldl (fun u i => u.linkTo (u.sonAt i) i) t

/-- `Rebuild()` (R136), with its check (R139). -/
def rebuild (t : Tree) : TreeRes :=
  match gatherLeaves t with
  | (t1, j) => if j = N_CHAR then .ok (relink (pairAll t1)) else .breach t1

/-- `Update(s)` (R133); a rebuild runs first when the root has reached MAX_FREQ (R135). -/
def update (t : Tree) (sym : Nat) : TreeRes :=
  if t.freqAt ROOT = MAX_FREQ then
    match rebuild t with
    | .ok t1 => updateLoop TSIZE t1 (t1.parentAt (TSIZE + sym))
    | .breach t1 => .breach t1
  else updateLoop TSIZE t (t.parentAt (TSIZE + sym))

/-! ### DecodeSymbol -/

/-- The walk of `DecodeSymbol` (R132) from child-pair index or leaf value `c`. No code is longer than 313 bits (R100);
a walk of more than `TSIZE` bits needs a tree that is none, and raises TreeInvariantViolation: DESIGN CHOICE, log 8. -/
def walk : Nat → Nat → State → Res Nat
  | n, c, s =>
    if c < TSIZE then
      match n with
      | 0 => .raise .treeInvariantViolation s
      | n + 1 =>
        match nextBit s with
        | (b, s') => walk n (s'.tree.sonAt (c + b.toNat)) s'
    else .ok c s

/-- Counts the decoded symbol (R132, R133). -/
def countSymbol (sym : Nat) (s : State) : Res Nat :=
  match update s.tree sym with
  | .ok t => .ok sym { s with tree := t }
  | .breach t => .raise .treeInvariantViolation { s with tree := t }

/-- `DecodeSymbol()` (R132). -/
def decodeSymbol (s : State) : Res Nat :=
  (walk TSIZE (s.tree.sonAt ROOT) s).bind fun c s1 =>
    if c - TSIZE < N_CHAR then countSymbol (c - TSIZE) s1 else .raise .treeInvariantViolation s1

end Sys2Proof.Machine
end

