-- ==== Sys2Proof/Machine/Operands.lean ====
section
/-! DEFINITION. The operand forms: size codes, match lengths, position codes and 16-bit values (30_encoding.md). -/

namespace Sys2Proof.Machine

open Sys2Proof.Config

/-- The target size of a size code, 128 << size_code (R10, R83). -/
def targetOfSizeCode (sc : BitVec 8) : Nat := 128 <<< sc.toNat

/-- The length of the match of symbol 256 + k: symbol - 253 (R88). -/
def matchLength (k : BitVec 8) : Nat := k.toNat + 3

/-- R68: a 16-bit value from its first and second byte. -/
def wordLe (lo hi : Byte) : BitVec 16 := hi ++ lo

/-- `d_code(i)`, the high six bits of a distance (R92). -/
def dCode (i : BitVec 8) : Nat :=
  let v := i.toNat
  if v < 0x20 then 0
  else if v < 0x50 then 1 + ((v - 0x20) >>> 4)
  else if v < 0x90 then 4 + ((v - 0x50) >>> 3)
  else if v < 0xC0 then 12 + ((v - 0x90) >>> 2)
  else if v < 0xF0 then 24 + ((v - 0xC0) >>> 1)
  else 48 + (v - 0xF0)

/-- `extra(i)`, how many bits follow the lead byte (R92, R93). -/
def extra (i : BitVec 8) : Nat :=
  let v := i.toNat
  if v < 0x20 then 1
  else if v < 0x50 then 2
  else if v < 0x90 then 3
  else if v < 0xC0 then 4
  else if v < 0xF0 then 5
  else 6

/-- The distance of a position code whose lead byte is `i` and whose folded value is `v` (R91). -/
def distanceOf (i : BitVec 8) (v : Nat) : BitVec 12 := BitVec.ofNat 12 ((dCode i <<< 6) ||| (v &&& 0x3F))

/-- R163: the window index of a match's first byte. 12-bit arithmetic is arithmetic modulo SBSIZE. -/
def matchSource (r dist : BitVec 12) : BitVec 12 := r - dist - 1

end Sys2Proof.Machine
end

