-- ==== Sys2Proof/Machine/Window.lean ====
section
/-! DEFINITION. The LZSS window family (42_lzss.md R160-R166), and the meanings of the position-code rows. -/

namespace Sys2Proof.Machine

open Sys2Proof.Config

/-- `PushLiteral(b)` (R161): the byte goes to `WIN[r]`, `r` advances modulo SBSIZE, and the byte is returned. -/
def pushLiteral (b : Byte) (s : State) : State :=
  { s with win := s.win.write FILL s.r.toNat b, r := s.r + 1, outByte := b }

/-- The window index the next copy step reads, `(msrc + copied) mod SBSIZE` (R164). -/
def copyIndex (s : State) : BitVec 12 := s.msrc + s.copied.setWidth 12

/-- `CopyStep()` (R164): read first, then write at `r`. -/
def copyStep (s : State) : State :=
  pushLiteral (s.winRead (copyIndex s).toNat) { s with copied := s.copied + 1 }

/-- `DecodePosition()` (R162) once the lead byte `i` has been read: the extra bits, and the distance they give. -/
def positionFrom (i : BitVec 8) (s : State) : State :=
  match foldBits (extra i) i.toNat s with
  | (v, s') => { s' with dist := distanceOf i v }

/-- `DecodePosition()` (R162). -/
def decodePosition (s : State) : State :=
  match nextBits8 s with
  | (i, s') => positionFrom i s'

/-! ### The position rows (R92): each is `DecodePosition` from its own lead bytes -/

/-- POS_E1: lead bytes 0x00-0x1F. -/
def execPosE1 (x : BitVec 5) (s : State) : Host.Outcome State Fault Refusal := .next (positionFrom (0b000#3 ++ x) s)

/-- POS_E2_LO: lead bytes 0x20-0x3F. -/
def execPosE2Lo (x : BitVec 5) (s : State) : Host.Outcome State Fault Refusal := .next (positionFrom (0b001#3 ++ x) s)

/-- POS_E2_HI: lead bytes 0x40-0x4F. -/
def execPosE2Hi (x : BitVec 4) (s : State) : Host.Outcome State Fault Refusal := .next (positionFrom (0b0100#4 ++ x) s)

/-- POS_E3_LO: lead bytes 0x50-0x5F. -/
def execPosE3Lo (x : BitVec 4) (s : State) : Host.Outcome State Fault Refusal := .next (positionFrom (0b0101#4 ++ x) s)

/-- POS_E3_MID: lead bytes 0x60-0x7F. -/
def execPosE3Mid (x : BitVec 5) (s : State) : Host.Outcome State Fault Refusal := .next (positionFrom (0b011#3 ++ x) s)

/-- POS_E3_HI: lead bytes 0x80-0x8F. -/
def execPosE3Hi (x : BitVec 4) (s : State) : Host.Outcome State Fault Refusal := .next (positionFrom (0b1000#4 ++ x) s)

/-- POS_E4_LO: lead bytes 0x90-0x9F. -/
def execPosE4Lo (x : BitVec 4) (s : State) : Host.Outcome State Fault Refusal := .next (positionFrom (0b1001#4 ++ x) s)

/-- POS_E4_HI: lead bytes 0xA0-0xBF. -/
def execPosE4Hi (x : BitVec 5) (s : State) : Host.Outcome State Fault Refusal := .next (positionFrom (0b101#3 ++ x) s)

/-- POS_E5_LO: lead bytes 0xC0-0xDF. -/
def execPosE5Lo (x : BitVec 5) (s : State) : Host.Outcome State Fault Refusal := .next (positionFrom (0b110#3 ++ x) s)

/-- POS_E5_HI: lead bytes 0xE0-0xEF. -/
def execPosE5Hi (x : BitVec 4) (s : State) : Host.Outcome State Fault Refusal := .next (positionFrom (0b1110#4 ++ x) s)

/-- POS_E6: lead bytes 0xF0-0xFF. -/
def execPosE6 (x : BitVec 4) (s : State) : Host.Outcome State Fault Refusal := .next (positionFrom (0b1111#4 ++ x) s)

end Sys2Proof.Machine
end

