-- ==== Sys2Proof/Machine/Decompressor.lean ====
section
/-! DEFINITION. The Decompressor family (43_decompressor.md R180-R189), and the meanings of the symbol rows. -/

namespace Sys2Proof.Machine

open Sys2Proof.Config

/-- Match entry (R183) for symbol 256 + k: the length, the position code, the source index with `r` as it stands, and
the first copy step in the same call. -/
def matchEntry (k : BitVec 8) (s : State) : State :=
  let s1 := decodePosition { s with mlen := BitVec.ofNat 6 (matchLength k) }
  copyStep { s1 with msrc := matchSource s1.r s1.dist, copied := 0, mstate := .copyingMatch }

/-- LIT (R182): symbol `b` is the output byte, pushed into the window. -/
def execLit (b : BitVec 8) (s : State) : Host.Outcome State Fault Refusal := .next (pushLiteral b s)

/-- MATCH (R183). A symbol past 313 is never produced, and would be a TreeInvariantViolation (R89). -/
def execLzMatch (k : BitVec 8) (s : State) : Host.Outcome State Fault Refusal :=
  if k.toNat < 58 then .next (matchEntry k s) else .next (raiseErr .treeInvariantViolation s)

/-- A match byte is still to be delivered (R181, R184). -/
def State.copyPending (s : State) : Bool :=
  decide (s.mstate = .copyingMatch) && decide (s.copied.toNat < s.mlen.toNat)

/-- Whether the end of the source stops a byte request (R185). With the parameter of log 13 at its default this is
EOF alone. -/
def State.eofStops (s : State) : Bool :=
  s.eof && (eofAtFirstFailedRead || (!s.copyPending && decide (s.realBits = 0)))

/-- What `DecNextByte` does with a decoded symbol (R182, R183). -/
def deliverSymbol (sym : Nat) (s : State) : State :=
  if sym < 256 then pushLiteral (BitVec.ofNat 8 sym) s else matchEntry (BitVec.ofNat 8 (sym - 256)) s

/-- `DecNextByte()` (R181). `none` is Eof. -/
def decNextByte (s : State) : Res (Option Byte) :=
  if s.eofStops then .ok none s
  else if s.copyPending then .ok (some (copyStep s).outByte) (copyStep s)
  else
    (decodeSymbol { s with mstate := .idle }).bind fun sym s1 =>
      .ok (some (deliverSymbol sym s1).outByte) (deliverSymbol sym s1)

/-- `ByteIn()` (R180). -/
def byteIn (s : State) : Res (Option Byte) :=
  if s.compressed then decNextByte s
  else
    match rawByte s with
    | (b, s') => .ok b s'

/-- `WordIn()` (R187): little-endian; a first byte that arrived stays consumed. -/
def wordIn (s : State) : Res (Option (BitVec 16)) :=
  (byteIn s).bind fun lo s1 =>
    match lo with
    | none => .ok none s1
    | some lo =>
      (byteIn s1).bind fun hi s2 =>
        match hi with
        | none => .ok none s2
        | some hi => .ok (some (wordLe lo hi)) s2

/-- More than the bytes `ByteIn` can still deliver: every delivered byte makes it smaller while the root is an internal
node (R206, R302: a bound computed from the source's length). -/
def byteBudget (s : State) : Nat :=
  let left := 8 * (s.src.size - s.spos)
  let copies := s.mlen.toNat - s.copied.toNat
  if s.eof then if eofAtFirstFailedRead then 0 else 64 * s.realBits + copies
  else 64 * (s.bitcnt.toNat + left + 1) + copies

end Sys2Proof.Machine
end

