-- ==== Sys2Proof/Machine/Payload.lean ====
section
/-! DEFINITION. The sector payload family (44_sector_payload.md R200-R209), and the meanings of the method and block
rows. -/

namespace Sys2Proof.Machine

open Sys2Proof.Config

/-- `Need()` (R200): a byte the method must have. -/
def need (s : State) : Res Byte :=
  (byteIn s).bind fun b s' =>
    match b with
    | some b => .ok b s'
    | none => .raise .streamExhausted s'

/-- `for k in 0..n: Emit(Need())` (R201, R205). -/
def copyThrough : Nat → State → Res Unit
  | 0, s => .ok () s
  | n + 1, s =>
    match need s with
    | .ok b s' => copyThrough n (emit b s')
    | .raise e s' => .raise e s'

/-- `M0(T)` (R201): raw. -/
def method0 (s : State) : Res Unit := copyThrough s.tgt.toNat s

/-- The loop of `M1` (R202): at most `n` pairs, cut at the target size. -/
def repeatPair (b1 b2 : Byte) : Nat → State → State
  | 0, s => s
  | n + 1, s =>
    let s1 := if s.w.toNat < s.tgt.toNat then emit b1 s else s
    let s2 := if s1.w.toNat < s1.tgt.toNat then emit b2 s1 else s1
    if s2.tgt.toNat ≤ s2.w.toNat then s2 else repeatPair b1 b2 n s2

/-- `M1(T)` (R202, R203): the whole record is read before a byte is written. -/
def method1 (s : State) : Res Unit :=
  (need s).bind fun lo s1 =>
    (need s1).bind fun hi s2 =>
      (need { s2 with cnt := wordLe lo hi }).bind fun b1 s3 =>
        (need s3).bind fun b2 s4 =>
          let s5 := repeatPair b1 b2 s4.cnt.toNat s4
          .ok () { s5 with short := s5.shortOf }

/-- `BlkLiteral()` (R205): the clamp limits the bytes read as well as the bytes written. -/
def blkLiteral (s : State) : Res Unit :=
  (need s).bind fun c s1 =>
    let n := min c.toNat s1.remaining.toNat
    (copyThrough n { s1 with cnt := BitVec.ofNat 16 n }).bind fun _ s2 =>
      .ok () { s2 with remaining := s2.remaining - BitVec.ofNat 14 n }

/-- The read loop of `BlkFragment` (R206): `n` more bytes, the first of them FRAG[k]. -/
def readFragment : Nat → Nat → State → Res Unit
  | 0, _, s => .ok () s
  | n + 1, k, s =>
    match need s with
    | .ok b s' => readFragment n (k + 1) (s'.fragWrite k b)
    | .raise e s' => .raise e s'

/-- `for k in 0..fsize: Emit(FRAG[k])` (R206): `n` more bytes, from FRAG[k]. -/
def emitFragment : Nat → Nat → State → State
  | 0, _, s => s
  | n + 1, k, s => emitFragment n (k + 1) (emit (s.fragRead k) s)

/-- The copy loop of `BlkFragment` (R206): at most `n` copies, none that does not fit. -/
def repeatFragment : Nat → State → State
  | 0, s => s
  | n + 1, s =>
    if s.remaining.toNat < s.fsize then s
    else
      let s1 := emitFragment s.fsize 0 s
      repeatFragment n { s1 with remaining := s1.remaining - BitVec.ofNat 14 s1.fsize }

/-- `BlkFragment(bt)` (R206): the count comes before the fragment, and every fragment byte is read. -/
def blkFragment (bt : BitVec 8) (s : State) : Res Unit :=
  (need { s with fsize := 1 <<< bt.toNat }).bind fun c s1 =>
    (readFragment s1.fsize 0 { s1 with cnt := c.setWidth 16 }).bind fun _ s2 =>
      .ok () (repeatFragment s2.cnt.toNat s2)

/-- The loop of `M2` (R204). `n` bounds the blocks; running out of it needs a tree whose root is a leaf, and raises
TreeInvariantViolation: DESIGN CHOICE, log 9. -/
def blocks : Nat → State → Res Unit
  | n, s =>
    if s.remaining.toNat = 0 then .ok () s
    else
      match n with
      | 0 => .raise .treeInvariantViolation s
      | n + 1 =>
        match need s with
        | .raise e s1 => .raise e s1
        | .ok bt s1 =>
          match if bt = 0 then blkLiteral s1 else blkFragment bt s1 with
          | .ok _ s2 => blocks n s2
          | .raise e s2 => .raise e s2

/-- `M2(T)` (R204): block RLE. Every block reads at least two bytes. -/
def method2 (s : State) : Res Unit := blocks (byteBudget s + 1) { s with remaining := s.tgt }

/-- `DecodePayload(method, T)` (R200): OUTBUF[0..T-1] is cleared before the method runs. -/
def decodePayload (m : BitVec 8) (target : Nat) (s : State) : Res Unit :=
  if m.toNat > 2 then .raise .unknownCompressionMethod s
  else
    let s1 := { s with
      outbuf := s.outbuf.clearBelow target
      w := 0
      tgt := BitVec.ofNat 14 target
      short := false }
    if m.toNat = 0 then method0 s1 else if m.toNat = 1 then method1 s1 else method2 s1

/-- Runs a payload token alone, with `room` bytes of output still allowed to it: its effect, or the error it raises.
OUTBUF ends at 8191 (R62); a token that could pass it stops the model. Log 12. -/
def runPayload (room : Nat) (f : State → Res Unit) (s : State) : Host.Outcome State Fault Refusal :=
  if s.w.toNat + room ≤ OUTBUF_SIZE then .next (f s).settle else .fault .outbufOverrun

/-- RAW (R201). -/
def execRaw (s : State) : Host.Outcome State Fault Refusal := runPayload s.tgt.toNat method0 s

/-- REPEAT2 (R202, R203). -/
def execRepeat2 (s : State) : Host.Outcome State Fault Refusal := runPayload s.tgt.toNat method1 s

/-- BLOCK_RLE (R204). -/
def execBlockRle (s : State) : Host.Outcome State Fault Refusal := runPayload s.tgt.toNat method2 s

/-- BLK_LITERAL (R205). -/
def execBlkLiteral (s : State) : Host.Outcome State Fault Refusal := runPayload s.remaining.toNat blkLiteral s

/-- BLK_FRAGMENT bt (R206). -/
def execBlkFragment (bt : BitVec 8) (s : State) : Host.Outcome State Fault Refusal :=
  runPayload s.remaining.toNat (blkFragment bt) s

end Sys2Proof.Machine
end

