-- ==== Sys2Proof/Machine/Commands.lean ====
section
/-! DEFINITION. The host commands (45_host_commands.md R230-R240). -/

namespace Sys2Proof.Machine

open Sys2Proof.Config

/-- Command acceptance for every command but INIT (R230): before the first INIT the command is illegal, and while
FAULTED is 1 it completes at once with ERR = 4 and changes nothing else (R22, R265). -/
def accept (body : State → State) (s : State) : State :=
  if !s.inited then illegal s
  else if s.faulted then { s with err := .treeInvariantViolation }
  else body s

/-- `INIT(c)` (R231, R45). It reads no source byte and leaves the source where it stands. -/
def initStream (c : Bool) (s : State) : State :=
  { s with
    inited := true
    faulted := false
    compressed := c
    eof := false
    shortFill := false
    err := .success
    data := 0
    outlen := 0
    outbuf := []
    bitbuf := 0
    bitcnt := 0
    padbits := 0
    tree := hufInit
    win := []
    r := BitVec.ofNat 12 R_INIT
    mstate := .idle
    msrc := 0
    mlen := 0
    copied := 0 }

/-- How a READ command ends (R232, R233): the value in DATA, or DATA = 0 and the error (R27, R262). -/
def finishRead : Res (Option (BitVec 16)) → State
  | .ok (some v) s => { s with data := v, err := .success }
  | .ok none s => raiseErr .streamExhausted { s with data := 0 }
  | .raise e s => raiseErr e { s with data := 0 }

/-- `READ_BYTE()` (R232). -/
def readByte (s : State) : State :=
  finishRead ((byteIn s).bind fun b s' => .ok (b.map (BitVec.setWidth 16)) s')

/-- `READ_WORD_LE()` (R233). -/
def readWordLe (s : State) : State := finishRead (wordIn s)

/-- `DecodeCmd(m, T)` (R236). -/
def decodeCommand (m : BitVec 8) (target : Nat) (s : State) : State :=
  match decodePayload m target s with
  | .ok _ s' => { s' with shortFill := s'.short, outlen := BitVec.ofNat 14 target, err := .success }
  | .raise e s' => raiseErr e s'

/-- `DECODE_SECTOR(m, sc)` (R234): the size is checked before the method. -/
def decodeSector (m sc : BitVec 8) (s : State) : State :=
  let s1 := { s with shortFill := false, outlen := 0 }
  if sc.toNat > 6 then raiseErr .invalidSizeCode s1 else decodeCommand m (targetOfSizeCode sc) s1

/-- `DECODE_LEN(m, n)` (R235). -/
def decodeLen (m : BitVec 8) (n : BitVec 16) (s : State) : State :=
  let s1 := { s with shortFill := false, outlen := 0 }
  if n.toNat > MAX_TARGET then raiseErr .invalidSizeCode s1 else decodeCommand m n.toNat s1

/-- INIT (R231): accepted in every state (R230). -/
def execInit (c : Bool) (s : State) : Host.Outcome State Fault Refusal := .next (initStream c s)

/-- READ_BYTE (R232). -/
def execReadByte (s : State) : Host.Outcome State Fault Refusal := .next (accept readByte s)

/-- READ_WORD_LE (R233). -/
def execReadWordLe (s : State) : Host.Outcome State Fault Refusal := .next (accept readWordLe s)

/-- DECODE_SECTOR (R234). -/
def execDecodeSector (m sc : BitVec 8) (s : State) : Host.Outcome State Fault Refusal :=
  .next (accept (decodeSector m sc) s)

/-- DECODE_LEN (R235). -/
def execDecodeLen (m : BitVec 8) (n : BitVec 16) (s : State) : Host.Outcome State Fault Refusal :=
  .next (accept (decodeLen m n) s)

end Sys2Proof.Machine
end

