-- ==== Sys2Proof/Machine/Dispatch.lean ====
section
/-! DEFINITION. One arm per instruction: a direct call of its meaning. -/

namespace Sys2Proof.Machine

def exec (i : Instr) (s : State) : Host.Outcome State Fault Refusal :=
  match i with
  -- host commands
  | .init c => Sys2Proof.Machine.execInit c s
  | .readByte => Sys2Proof.Machine.execReadByte s
  | .readWordLe => Sys2Proof.Machine.execReadWordLe s
  | .decodeSector m sc => Sys2Proof.Machine.execDecodeSector m sc s
  | .decodeLen m n => Sys2Proof.Machine.execDecodeLen m n s
  -- symbols
  | .lit b => Sys2Proof.Machine.execLit b s
  | .lzMatch k => Sys2Proof.Machine.execLzMatch k s
  -- position codes
  | .posE1 x => Sys2Proof.Machine.execPosE1 x s
  | .posE2Lo x => Sys2Proof.Machine.execPosE2Lo x s
  | .posE2Hi x => Sys2Proof.Machine.execPosE2Hi x s
  | .posE3Lo x => Sys2Proof.Machine.execPosE3Lo x s
  | .posE3Mid x => Sys2Proof.Machine.execPosE3Mid x s
  | .posE3Hi x => Sys2Proof.Machine.execPosE3Hi x s
  | .posE4Lo x => Sys2Proof.Machine.execPosE4Lo x s
  | .posE4Hi x => Sys2Proof.Machine.execPosE4Hi x s
  | .posE5Lo x => Sys2Proof.Machine.execPosE5Lo x s
  | .posE5Hi x => Sys2Proof.Machine.execPosE5Hi x s
  | .posE6 x => Sys2Proof.Machine.execPosE6 x s
  -- methods
  | .raw => Sys2Proof.Machine.execRaw s
  | .repeat2 => Sys2Proof.Machine.execRepeat2 s
  | .blockRle => Sys2Proof.Machine.execBlockRle s
  -- method-2 blocks
  | .blkLiteral => Sys2Proof.Machine.execBlkLiteral s
  | .blkFragment bt => Sys2Proof.Machine.execBlkFragment bt s

end Sys2Proof.Machine
end

