-- ==== Sys2Proof/Machine/Inputs.lean ====
section
/-! DEFINITION. What the core does with one input from outside: the register window (10_state.md R48), the byte source
(R42, R293), power-on reset (R290), and the code words that carry instructions. -/

namespace Sys2Proof.Machine

open Sys2Proof.Config

/-- The code word an input carries: a word written to CMD (offset 0x0000, R30, R48), or a token handed in alone. -/
def Input.codeWord : Input → Option CodeWord
  | .write32 offset word => if offset = 0 then some (.cmd32 word) else none
  | .token word => some word
  | .read32 _ | .read8 _ | .attach _ _ | .powerOn => none

/-- The input that hands the core a code word: a write to CMD for a command, else the token input. -/
def inputOf : CodeWord → Input
  | .cmd32 word => .write32 0 word
  | c => .token c

/-- A code word that is no instruction: an illegal command word (R82, R237), a symbol past 313 (R89), or an unknown
method (R207, R264). -/
def rejected (e : Reject) (s : State) : State :=
  match e with
  | .reservedOpcode | .reservedField => illegal s
  | .noSuchSymbol => raiseErr .treeInvariantViolation s
  | .unknownMethod => raiseErr .unknownCompressionMethod s

/-- Decodes a code word and runs it. -/
def runCodeWord (c : CodeWord) (s : State) : Host.Outcome State Fault Refusal :=
  match decode c with
  | .ok i => exec i s
  | .error e => .next (rejected e s)

/-- STATUS as the host reads it (R29): bits 3:1 are any value before the first INIT (R43, R44). -/
def State.readStatus (s : State) : BitVec 32 :=
  if s.inited then s.status else s.statusWith (unspecifiedStatus s.draws)

/-- A byte of OUTBUF as the host reads it: any value before the first INIT (R43, R44). -/
def State.readOutbuf (s : State) (a : Nat) : Byte := if s.inited then s.outRead a else unspecifiedByte s.draws

/-- Before the first INIT a read draws a free value, a fresh one each time. Log 5. -/
def State.drawn (s : State) : State := if s.inited then s else { s with draws := s.draws + 1 }

/-- A 32-bit register read (R48). CMD and the reserved offsets read 0 (U7). -/
def State.readReg (s : State) (offset : Nat) : BitVec 32 :=
  if offset = 0x0004 then s.readStatus
  else if offset = 0x0008 then s.data.setWidth 32
  else if offset = 0x000C then s.outlen.setWidth 32
  else 0

/-- The core's answer to one input. A write to a read-only offset has no effect and returns 0 (R48); a register access
of another width or alignment stops the model (log 16). -/
def stepInput (x : Input) (s : State) : Host.Outcome State Fault Refusal :=
  match x with
  | .write32 offset word =>
    if offset.toNat % 4 ≠ 0 then .fault .unsupportedAccess
    else if offset = 0 then runCodeWord (.cmd32 word) s
    else .next { s with resp := 0 }
  | .read32 offset =>
    if offset.toNat % 4 ≠ 0 ∨ 0x2000 ≤ offset.toNat then .fault .unsupportedAccess
    else if offset.toNat = 0x0004 then .next { s.drawn with resp := s.readReg offset.toNat }
    else .next { s with resp := s.readReg offset.toNat }
  | .read8 offset =>
    if offset.toNat < 0x2000 then .fault .unsupportedAccess
    else .next { s.drawn with resp := (s.readOutbuf (offset.toNat - 0x2000)).setWidth 32 }
  | .attach src spos => .next { s with src := src, spos := spos }
  | .powerOn =>
    .next { s with inited := false, faulted := false, shortFill := false, err := .success, data := 0, outlen := 0 }
  | .token word => runCodeWord word s

end Sys2Proof.Machine
end

