-- ==== Sys2Proof/Machine/Step.lean ====
section
/-! DEFINITION. One step: the oldest waiting input, run whole (45_host_commands.md R238). -/

namespace Sys2Proof.Machine

/-- Takes the oldest input. With none waiting, the core holds its state and waits (60_exceptions.md R278). -/
def step (s : State) : Host.Outcome State Fault Refusal :=
  match s.inputs with
  | [] => .next s
  | x :: rest => stepInput x { s with inputs := rest }

/-- A word of the opcode table, placed where the next step takes its input. Log 3. -/
def State.withFetchWord (s : State) (nbits w : Nat) : State :=
  match tableWord nbits w with
  | some c => { s with inputs := inputOf c :: s.inputs }
  | none => s

end Sys2Proof.Machine
end

