-- ==== Sys2Proof/Safety.lean ====
section
/-! DEFINITION. The vocabulary of the claims: what a good state is, which instructions are commands, and what the core
still has in front of it. -/

namespace Sys2Proof.Safety

open Sys2Proof.Config Sys2Proof.Machine

/-! ### Good states -/

/-- The bit buffer as R31 and R32 describe it: at most 16 valid bits, and every bit below them 0. -/
structure BitsOk (s : State) : Prop where
  count : s.bitcnt.toNat ≤ 16
  low : ∀ k, k < 16 - s.bitcnt.toNat → s.bitbuf.getLsbD k = false

/-- What every step keeps: the three memories in canonical form inside their address spaces (20_memory.md R60-R63), the
bit buffer (R31, R32), OUTLEN in range (R28), a match length of 3..60 and a copy count within it (R39, R40), and in
compressed mode the sentinel and the range of the back-links (R33, R35). -/
structure Inv (s : State) : Prop where
  win_wf : s.win.wf FILL
  win_below : s.win.below SBSIZE
  outbuf_wf : s.outbuf.wf 0
  outbuf_below : s.outbuf.below OUTBUF_SIZE
  frag_wf : s.frag.wf 0
  frag_below : s.frag.below FRAG_MAX
  bits : BitsOk s
  outlen_le : s.outlen.toNat ≤ OUTBUF_SIZE
  match_length : s.mstate = .copyingMatch → 3 ≤ s.mlen.toNat ∧ s.mlen.toNat ≤ LASIZE
  match_copied : s.mstate = .copyingMatch → s.copied.toNat ≤ s.mlen.toNat
  sentinel : s.compressed = true → s.tree.freqAt TSIZE = FREQ_SENTINEL
  parents : ∀ x, s.tree.parentAt x ≤ ROOT

/-- The weight of symbol `sym`'s leaf. -/
def leafFreq (t : Tree) (sym : Nat) : Nat := t.freqAt (t.parentAt (TSIZE + sym))

/-- The sum of the weights of the first `n` symbols' leaves. -/
def leafSum (t : Tree) : Nat → Nat
  | 0 => 0
  | n + 1 => leafSum t n + leafFreq t n

/-- The tree invariants of R137, item by item, with the sentinel of R33 and the leaf values of R89. -/
structure TreeInv (t : Tree) : Prop where
  /-- R33. -/
  sentinel : t.freqAt TSIZE = FREQ_SENTINEL
  /-- R137.1: the sibling property. -/
  sorted : ∀ c, c < ROOT → t.freqAt c ≤ t.freqAt (c + 1)
  /-- R137.2. -/
  node : ∀ c, c < TSIZE → t.sonAt c < TSIZE →
    t.sonAt c % 2 = 0 ∧ t.sonAt c + 1 < TSIZE ∧ t.freqAt c = t.freqAt (t.sonAt c) + t.freqAt (t.sonAt c + 1)
  /-- R89: a leaf holds one of the 314 symbols. -/
  leaf_value : ∀ c, c < TSIZE → TSIZE ≤ t.sonAt c → t.sonAt c < TSIZE + N_CHAR
  /-- R137.3: symbol `sym` is in the leaf `parent[TSIZE + sym]`. -/
  leaf_slot : ∀ sym, sym < N_CHAR →
    t.parentAt (TSIZE + sym) < TSIZE ∧ t.sonAt (t.parentAt (TSIZE + sym)) = TSIZE + sym
  /-- R137.3: and in no other. -/
  leaf_unique : ∀ c sym, c < TSIZE → sym < N_CHAR → t.sonAt c = TSIZE + sym → c = t.parentAt (TSIZE + sym)
  /-- R137.4. -/
  link : ∀ x, x < ROOT → t.parentAt x < TSIZE ∧ t.sonAt (t.parentAt x) = x - x % 2
  /-- R35. -/
  root_parent : t.parentAt ROOT = 0
  /-- R137.5. -/
  positive : ∀ c, c < TSIZE → 1 ≤ t.freqAt c
  /-- R137.5. -/
  root_sum : t.freqAt ROOT = leafSum t N_CHAR
  /-- R137.5. -/
  root_le : t.freqAt ROOT ≤ MAX_FREQ
  /-- R137.6. -/
  slot_zero : TSIZE ≤ t.sonAt 0

/-- In compressed mode the tree meets the invariants of R137. -/
def TreeGood (s : State) : Prop := s.compressed = true → TreeInv s.tree

/-- The core executes READ and DECODE commands (R230): an INIT has completed and no violation has been raised. -/
def Ready (s : State) : Prop := s.inited = true ∧ s.faulted = false

/-! ### Kinds of instructions -/

/-- The host commands (R81). -/
def isCommand : Instr → Bool
  | .init _ | .readByte | .readWordLe | .decodeSector _ _ | .decodeLen _ _ => true
  | _ => false

/-- INIT. -/
def isInit : Instr → Bool
  | .init _ => true
  | _ => false

/-- A command word R82 calls illegal: a reserved opcode, or a 1 in a field that must be 0 for its opcode. -/
def illegalWord (word : BitVec 32) : Bool :=
  let op := word.toNat % 16
  let rsv0 := word.toNat / 16 % 16
  let a := word.toNat / 256 % 256
  let b := word.toNat / 65536
  decide (op = 0 ∨ 6 ≤ op ∨ rsv0 ≠ 0 ∨ (op = 1 ∧ (2 ≤ a ∨ b ≠ 0)) ∨ (op = 2 ∧ (a ≠ 0 ∨ b ≠ 0)) ∨
    (op = 3 ∧ (a ≠ 0 ∨ b ≠ 0)) ∨ (op = 4 ∧ 256 ≤ b))

/-! ### The bits in front of the core -/

/-- Bit `k` of a byte sequence from byte `start` on, MSB first, with zeros after the end: bit `7 - (k mod 8)` of
`S'[k div 8]` (R115). -/
def sourceBit (src : Array (BitVec 8)) (start k : Nat) : Bool :=
  match src[start + k / 8]? with
  | some b => b.getLsbD (7 - k % 8)
  | none => false

/-- Bit `k` of what the bit readers will see: the valid bits of `bitbuf`, then the source, then zeros. -/
def bitsAhead (s : State) (k : Nat) : Bool :=
  if k < s.bitcnt.toNat then s.bitbuf.getLsbD (15 - k)
  else if s.eof then false
  else sourceBit s.src s.spos (k - s.bitcnt.toNat)

/-- The next `n` bits as a number, MSB first. -/
def valueAhead (s : State) : Nat → Nat
  | 0 => 0
  | n + 1 => 2 * valueAhead s n + (bitsAhead s n).toNat

/-- The bits of `n` bits from `k` on of a source, as a list. -/
def sourceBits (src : Array (BitVec 8)) (start k n : Nat) : List Bool :=
  (List.range n).map fun j => sourceBit src start (k + j)

/-- The bits one read call delivers, first bit first: `true` is NextBit, `false` is NextBits8. -/
def readOne (single : Bool) (s : State) : List Bool × State :=
  if single then
    match nextBit s with
    | (b, s') => ([b], s')
  else
    match nextBits8 s with
    | (v, s') => ((List.range 8).map fun j => v.getLsbD (7 - j), s')

/-- A run of read calls. -/
def readRun : List Bool → State → List Bool × State
  | [], s => ([], s)
  | c :: cs, s =>
    match readOne c s with
    | (bs, s1) =>
      match readRun cs s1 with
      | (bs', s2) => (bs ++ bs', s2)

/-- How many bits a run of read calls consumes. -/
def readBitsOf : List Bool → Nat
  | [] => 0
  | c :: cs => (if c then 1 else 8) + readBitsOf cs

/-! ### Bytes -/

/-- The bytes of `n` byte requests that all deliver one, and the state after them. -/
def reads : Nat → State → Res (List (BitVec 8))
  | 0, s => .ok [] s
  | n + 1, s => (need s).bind fun b s1 => (reads n s1).bind fun bs s2 => .ok (b :: bs) s2

/-- Pushes of several bytes, first byte first. -/
def pushAll : List (BitVec 8) → State → State
  | [], s => s
  | b :: bs, s => pushAll bs (pushLiteral b s)

/-- The bytes of `n` copy steps, and the state after them. -/
def copyRun : Nat → State → List (BitVec 8) × State
  | 0, s => ([], s)
  | n + 1, s =>
    match copyRun n (copyStep s) with
    | (bs, s') => ((copyStep s).outByte :: bs, s')

/-- Up to `n` byte requests (R180), ending at the first that delivers none: the bytes delivered, first byte first, and
the state after the last request. -/
def requests : Nat → State → List (BitVec 8) × State
  | 0, s => ([], s)
  | n + 1, s =>
    match byteIn s with
    | .ok (some b) s1 => (b :: (requests n s1).1, (requests n s1).2)
    | .ok none s1 => ([], s1)
    | .raise _ s1 => ([], s1)

/-- From `s` to `t` exactly the bytes `bs` were pushed: byte `j` went to address `r + j` modulo 4096, a later push over
an earlier one, every other address reads as before, and `r` advanced by their number (R161). -/
structure Pushed (bs : List (BitVec 8)) (s t : State) : Prop where
  cursor : t.r.toNat = (s.r.toNat + bs.length) % SBSIZE
  stored : ∀ j, j < bs.length → bs.length ≤ j + SBSIZE → t.winRead ((s.r.toNat + j) % SBSIZE) = bs.getD j 0
  kept : ∀ a, (∀ j, j < bs.length → (s.r.toNat + j) % SBSIZE ≠ a) → t.winRead a = s.winRead a

/-- How many links lead from a slot up to the root, counting at most `n`. -/
def climb (t : Tree) : Nat → Nat → Nat
  | 0, _ => 0
  | n + 1, c => if c = ROOT then 0 else 1 + climb t n (t.parentAt c)

/-- The slot `n` links above slot `c`. -/
def ancestor (t : Tree) : Nat → Nat → Nat
  | 0, c => c
  | n + 1, c => ancestor t n (t.parentAt c)

/-- The blocks of a method-2 payload, run one after the other until nothing remains (R204). -/
inductive BlocksTo : State → State → Prop where
  | done (s : State) (h : s.remaining.toNat = 0) : BlocksTo s s
  | block (s s1 s2 t : State) (bt : BitVec 8) (h : s.remaining.toNat ≠ 0) (hbt : need s = .ok bt s1)
      (hblk : (if bt = 0 then blkLiteral s1 else blkFragment bt s1) = .ok () s2) (rest : BlocksTo s2 t) : BlocksTo s t

/-- The blocks of a method-2 payload up to the one that raises `e`: at its type byte, or inside it (R204, R263). -/
inductive BlocksRaise : State → Err → State → Prop where
  | type (s t : State) (e : Err) (h : s.remaining.toNat ≠ 0) (hbt : need s = .raise e t) : BlocksRaise s e t
  | inside (s s1 t : State) (bt : BitVec 8) (e : Err) (h : s.remaining.toNat ≠ 0) (hbt : need s = .ok bt s1)
      (hblk : (if bt = 0 then blkLiteral s1 else blkFragment bt s1) = .raise e t) : BlocksRaise s e t
  | later (s s1 s2 t : State) (bt : BitVec 8) (e : Err) (h : s.remaining.toNat ≠ 0) (hbt : need s = .ok bt s1)
      (hblk : (if bt = 0 then blkLiteral s1 else blkFragment bt s1) = .ok () s2) (rest : BlocksRaise s2 e t) :
      BlocksRaise s e t

/-! ### Frames -/

/-- The bit reader, the tree, the window, the match registers and the source cursor of `t` are those of `s`. -/
def SameDatapath (s t : State) : Prop :=
  t.eof = s.eof ∧ t.bitbuf = s.bitbuf ∧ t.bitcnt = s.bitcnt ∧ t.padbits = s.padbits ∧ t.tree = s.tree ∧
  t.win = s.win ∧ t.r = s.r ∧ t.mstate = s.mstate ∧ t.msrc = s.msrc ∧ t.mlen = s.mlen ∧ t.copied = s.copied ∧
  t.src = s.src ∧ t.spos = s.spos

/-- `t` differs from `s` at most in what a read of bits may change: the end flag, the bit buffer and the source
cursor. -/
def OnlyBits (s t : State) : Prop :=
  t = { s with eof := t.eof, bitbuf := t.bitbuf, bitcnt := t.bitcnt, padbits := t.padbits, spos := t.spos }

/-- `t` differs from `s` at most in what a byte request may change: the end flag, the bit buffer, the tree, the window,
the match registers, the source cursor, and the model's own return registers. -/
def OnlyDatapath (s t : State) : Prop :=
  t = { s with
    eof := t.eof
    bitbuf := t.bitbuf
    bitcnt := t.bitcnt
    padbits := t.padbits
    tree := t.tree
    win := t.win
    r := t.r
    mstate := t.mstate
    msrc := t.msrc
    mlen := t.mlen
    copied := t.copied
    dist := t.dist
    outByte := t.outByte
    spos := t.spos }

/-- `t` differs from `s` at most in what a payload may change: what byte requests may, OUTBUF, and the command-local
registers. -/
def OnlyPayload (s t : State) : Prop :=
  t = { s with
    eof := t.eof
    bitbuf := t.bitbuf
    bitcnt := t.bitcnt
    padbits := t.padbits
    tree := t.tree
    win := t.win
    r := t.r
    mstate := t.mstate
    msrc := t.msrc
    mlen := t.mlen
    copied := t.copied
    dist := t.dist
    outByte := t.outByte
    spos := t.spos
    outbuf := t.outbuf
    remaining := t.remaining
    w := t.w
    fsize := t.fsize
    cnt := t.cnt
    frag := t.frag
    tgt := t.tgt
    short := t.short }

/-- `t` differs from `s` at most in the command-local registers (R41) and the model's own return registers. -/
def OnlyLocals (s t : State) : Prop :=
  t = { s with
    remaining := t.remaining
    w := t.w
    fsize := t.fsize
    cnt := t.cnt
    frag := t.frag
    tgt := t.tgt
    short := t.short
    dist := t.dist
    outByte := t.outByte }

end Sys2Proof.Safety
end

