-- ==== Sys2Proof/Certificates/Slice0/Obligations.lean ====
section
/-! DEFINITION. The statements for the provers, in the order of the spec's files. -/

section

open Sys2Proof Sys2Proof.Config Sys2Proof.Machine Sys2Proof.Safety

/-! ### Reset, registers and steps -/

/-- 70_reset_and_hazards.md R290, 10_state.md R44: power-on reset, as the state after reset and as an input at any
time, sets the six defined registers, and STATUS reads 1 under the mask of its defined bits. -/
def Obligations.PowerOnSetsTheDefinedRegisters : Prop :=
  (State.reset.inited = false ∧ State.reset.faulted = false ∧ State.reset.shortFill = false ∧
    State.reset.err = .success ∧ State.reset.data = 0 ∧ State.reset.outlen = 0 ∧
    State.reset.readStatus &&& 0xFFFFFFF1#32 = 1#32) ∧
  ∀ s : State, ∃ t, stepInput .powerOn s = .next t ∧
    t.inited = false ∧ t.faulted = false ∧ t.shortFill = false ∧ t.err = .success ∧ t.data = 0 ∧ t.outlen = 0 ∧
    t.readStatus &&& 0xFFFFFFF1#32 = 1#32

/-- The invariant of every step holds at reset. It rests on the model's reset values (log 4). -/
def Obligations.InvHoldsAtReset : Prop := Inv State.reset

/-- From every state that meets it, a step keeps the invariant: canonical memories inside their address spaces
(20_memory.md R60, R62, R63), the bit buffer of R31 and R32, OUTLEN at most 8192 (R28), a match length of 3..60 and a
copy count within it (R39, R40), the sentinel of R33 in compressed mode, and back-links that are slots (R35). -/
def Obligations.InvKeptByEveryStep : Prop := ∀ s t : State, Inv s → step s = .next t → Inv t

/-- A step runs the decoded instruction: with a code word at the head of the inputs, the step is `exec` of what the
word decodes to, with that input taken; a word that is no instruction is answered by name; with no input, the core
holds its state. The list of inputs (log 3), a token handed in alone, which no host can do (log 2), and the step with
no input (log 22, after 60_exceptions.md R278) are the model's own choices. -/
def Obligations.StepRunsTheDecodedInstruction : Prop :=
  ∀ (s u : State) (c : CodeWord) (rest : List Input), u = { s with inputs := rest } →
    (s.inputs = inputOf c :: rest →
      (∀ i, decode c = .ok i → step s = exec i u) ∧ ∀ e, decode c = .error e → step s = .next (rejected e u)) ∧
    (s.inputs = [] → step s = .next s)

/-- 45_host_commands.md R230, R237, 60_exceptions.md R266: the checks on a word written to CMD, in order. An illegal
word, or a legal one other than INIT before the first INIT, writes ERR = 5 and nothing else; while FAULTED a command
other than INIT writes ERR = 4 and nothing else; INIT is accepted in every state. -/
def Obligations.CommandAcceptanceOrder : Prop :=
  ∀ (word : BitVec 32) (s u : State) (rest : List Input),
    s.inputs = .write32 0 word :: rest → u = { s with inputs := rest } →
    (illegalWord word = true → step s = .next { u with err := .illegalCommand }) ∧
    (illegalWord word = false → ∃ i, isCommand i = true ∧ decode (.cmd32 word) = .ok i ∧
      (isInit i = true ↔ word.toNat % 16 = 1) ∧ step s = exec i u ∧
      (isInit i = true → ∃ t, step s = .next t ∧ Ready t) ∧
      (isInit i = false → u.inited = false → step s = .next { u with err := .illegalCommand }) ∧
      (isInit i = false → u.inited = true → u.faulted = true →
        step s = .next { u with err := .treeInvariantViolation }))

/-- 10_state.md R29, 60_exceptions.md R261: a read of STATUS. Every bit but 3:1 holds its field in every state, ERR as the
number R261 gives it; bits 3:1 do once an INIT has completed (before it they are free, log 5). The read changes only
what the host gets back and, before INIT, the model's count of draws. -/
def Obligations.StatusView : Prop :=
  ∀ s : State, ∃ t, stepInput (.read32 4) s = .next t ∧ t = { s with resp := t.resp, draws := t.draws } ∧
    (s.inited = true → t.draws = s.draws ∧ t.resp.getLsbD 1 = s.eof ∧ t.resp.getLsbD 2 = s.compressed ∧
      t.resp.getLsbD 3 = decide (s.mstate = .copyingMatch)) ∧
    t.resp.getLsbD 0 = true ∧ t.resp.getLsbD 4 = s.shortFill ∧ t.resp.getLsbD 5 = s.inited ∧
    t.resp.getLsbD 6 = s.faulted ∧ t.resp.getLsbD 7 = false ∧ t.resp.extractLsb' 12 20 = 0 ∧
    (s.err = .success → t.resp.extractLsb' 8 4 = 0) ∧
    (s.err = .streamExhausted → t.resp.extractLsb' 8 4 = 1) ∧
    (s.err = .unknownCompressionMethod → t.resp.extractLsb' 8 4 = 2) ∧
    (s.err = .invalidSizeCode → t.resp.extractLsb' 8 4 = 3) ∧
    (s.err = .treeInvariantViolation → t.resp.extractLsb' 8 4 = 4) ∧
    (s.err = .illegalCommand → t.resp.extractLsb' 8 4 = 5)

/-- 10_state.md R48, R43, R44: the other registers of the window, in every state, before the first INIT too. Every access
answers and changes nothing but what the host gets back; an OUTBUF byte is its own once an INIT has completed, and
before that it is a free byte (log 5), whose read adds to the model's count of draws. -/
def Obligations.RegisterWindow : Prop :=
  ∀ s : State,
    (∀ word, stepInput (.write32 0 word) s = runCodeWord (.cmd32 word) s) ∧
    (∀ (offset : BitVec 14) (word : BitVec 32), offset.toNat % 4 = 0 → offset ≠ 0 →
      stepInput (.write32 offset word) s = .next { s with resp := 0 }) ∧
    stepInput (.read32 0) s = .next { s with resp := 0 } ∧
    stepInput (.read32 8) s = .next { s with resp := s.data.setWidth 32 } ∧
    stepInput (.read32 12) s = .next { s with resp := s.outlen.setWidth 32 } ∧
    (∀ offset : BitVec 14, offset.toNat % 4 = 0 → 16 ≤ offset.toNat → offset.toNat < 0x2000 →
      stepInput (.read32 offset) s = .next { s with resp := 0 }) ∧
    ∀ offset : BitVec 14, 0x2000 ≤ offset.toNat →
      (s.inited = true →
        stepInput (.read8 offset) s = .next { s with resp := (s.outRead (offset.toNat - 0x2000)).setWidth 32 }) ∧
      ∃ (t : State) (b : BitVec 8), stepInput (.read8 offset) s = .next t ∧
        t = { s with resp := b.setWidth 32, draws := t.draws }

/-! ### Encodings -/

/-- Decoding the encoding of a well-formed instruction gives it back, every operand at every value. -/
def Obligations.DecodeOfEncodeIsTheInstruction : Prop := ∀ i : Instr, WellFormed i = true → decode (encode i) = .ok i

/-- Every word that decodes is the encoding of a well-formed instruction: no second spelling and no dropped bit. -/
def Obligations.DecodedWordIsItsEncoding : Prop :=
  ∀ (c : CodeWord) (i : Instr), decode c = .ok i → WellFormed i = true ∧ encode i = c

/-- 30_encoding.md R84: the command words of every legal form, as the rule writes them. -/
def Obligations.CommandWordsOfEveryForm : Prop :=
  decode (.cmd32 0x00000001#32) = .ok (.init false) ∧ decode (.cmd32 0x00000101#32) = .ok (.init true) ∧
  decode (.cmd32 0x00000002#32) = .ok .readByte ∧ decode (.cmd32 0x00000003#32) = .ok .readWordLe ∧
  (∀ m sc : BitVec 8, decode (.cmd32 (BitVec.ofNat 32 (sc.toNat <<< 16 ||| m.toNat <<< 8 ||| 0x4))) =
    .ok (.decodeSector m sc)) ∧
  ∀ (m : BitVec 8) (n : BitVec 16), decode (.cmd32 (BitVec.ofNat 32 (n.toNat <<< 16 ||| m.toNat <<< 8 ||| 0x5))) =
    .ok (.decodeLen m n)

/-- Words of every format written out bit by bit from the spec's encodings decode to what they stand for. A sanity
statement. -/
def Obligations.WordsWrittenOutDecode : Prop :=
  decode (.cmd32 0b00000000000001100000001000000100#32) = .ok (.decodeSector 2 6) ∧
  decode (.cmd32 0b00000000000001000000000000000101#32) = .ok (.decodeLen 0 4) ∧
  decode (.sym9 0b001000001#9) = .ok (.lit 0x41) ∧ decode (.sym9 0b100111001#9) = .ok (.lzMatch 57) ∧
  decode (.pos8x 0b00011111#8) = .ok (.posE1 0b11111) ∧ decode (.pos8x 0b01001111#8) = .ok (.posE2Hi 0b1111) ∧
  decode (.pos8x 0b11110001#8) = .ok (.posE6 0b0001) ∧ decode (.method8 0b00000001#8) = .ok .repeat2 ∧
  decode (.blk8 0b00000000#8) = .ok .blkLiteral ∧ decode (.blk8 0b00010100#8) = .ok (.blkFragment 0x14)

/-- 30_encoding.md R89, R94, R95, R99: symbols past 313 and methods past 2 are rejected, each with its error; every
position lead byte and every block type is an instruction. -/
def Obligations.RejectedTokens : Prop :=
  (∀ (sym : BitVec 9) (s : State), 314 ≤ sym.toNat →
    runCodeWord (.sym9 sym) s = .next { s with err := .treeInvariantViolation, faulted := true }) ∧
  (∀ (tag : BitVec 8) (s : State), 3 ≤ tag.toNat →
    runCodeWord (.method8 tag) s = .next { s with err := .unknownCompressionMethod }) ∧
  ∀ b : BitVec 8, (∃ i, decode (.pos8x b) = .ok i) ∧ ∃ i, decode (.blk8 b) = .ok i

/-- 30_encoding.md R92, R93: class by class, the bits after the lead byte, the distances, and the code of a distance:
its prefix, then the distance's low six bits. -/
def Obligations.PositionCodeTable : Prop :=
  ∀ (lead : BitVec 8) (x v d : Nat), x < 2 ^ extra lead → v = lead.toNat * 2 ^ extra lead + x →
    d = (distanceOf lead v).toNat →
    v % 64 = d % 64 ∧
    (lead.toNat ≤ 0x1F → extra lead = 1 ∧ d ≤ 63 ∧ v / 64 = d / 64) ∧
    (0x20 ≤ lead.toNat ∧ lead.toNat ≤ 0x4F → extra lead = 2 ∧ 64 ≤ d ∧ d ≤ 255 ∧ v / 64 = d / 64 + 1) ∧
    (0x50 ≤ lead.toNat ∧ lead.toNat ≤ 0x8F → extra lead = 3 ∧ 256 ≤ d ∧ d ≤ 767 ∧ v / 64 = d / 64 + 6) ∧
    (0x90 ≤ lead.toNat ∧ lead.toNat ≤ 0xBF → extra lead = 4 ∧ 768 ≤ d ∧ d ≤ 1535 ∧ v / 64 = d / 64 + 24) ∧
    (0xC0 ≤ lead.toNat ∧ lead.toNat ≤ 0xEF → extra lead = 5 ∧ 1536 ≤ d ∧ d ≤ 3071 ∧ v / 64 = d / 64 + 72) ∧
    (0xF0 ≤ lead.toNat → extra lead = 6 ∧ 3072 ≤ d ∧ d ≤ 4095 ∧ v / 64 = d / 64 + 192)

/-- 30_encoding.md R94: every distance has exactly one code, and the Kraft sum is 1 (here over 2^14). -/
def Obligations.PositionCodeIsComplete : Prop :=
  (∀ d : BitVec 12, ∃ (lead : BitVec 8) (x : Nat), x < 2 ^ extra lead ∧
    distanceOf lead (lead.toNat * 2 ^ extra lead + x) = d ∧
    ∀ (lead' : BitVec 8) (x' : Nat), x' < 2 ^ extra lead' →
      distanceOf lead' (lead'.toNat * 2 ^ extra lead' + x') = d → lead' = lead ∧ x' = x) ∧
  ((List.range 256).map fun i =>
    2 ^ extra (BitVec.ofNat 8 i) * 2 ^ (14 - (8 + extra (BitVec.ofNat 8 i)))).sum = 2 ^ 14

/-! ### BitStream -/

/-- 40_bitstream.md R111: `RawByte` delivers the next source byte; at the end it sets EOF and from then on never asks
the source again. -/
def Obligations.RawByteIsSticky : Prop :=
  ∀ s : State,
    (s.eof = true → rawByte s = (none, s)) ∧
    (∀ b, s.eof = false → s.src[s.spos]? = some b → rawByte s = (some b, { s with spos := s.spos + 1 })) ∧
    (s.eof = false → s.src[s.spos]? = none → rawByte s = (none, { s with eof := true }))

/-- 40_bitstream.md R112: a refill leaves 9 to 16 valid bits and zeros below them, changes no bit the readers will see,
and touches only the bit reader's registers. -/
def Obligations.RefillTopsUpTheBuffer : Prop :=
  ∀ s : State, BitsOk s →
    BitsOk (refill s) ∧ 9 ≤ (refill s).bitcnt.toNat ∧ (∀ k, bitsAhead (refill s) k = bitsAhead s k) ∧
    OnlyBits s (refill s)

/-- 40_bitstream.md R115: from INIT, whatever mix of one-bit and eight-bit reads, the bits delivered are the source's,
MSB first, with zeros after its end. -/
def Obligations.ReadsDeliverTheSourceBits : Prop :=
  ∀ (calls : List Bool) (c : Bool) (s t : State) (bs : List Bool),
    readRun calls (initStream c s) = (bs, t) → bs = sourceBits s.src s.spos 0 (readBitsOf calls)

/-- 40_bitstream.md R116: after a read call that began with `k0` bits consumed, ceil((k0 + 9) / 8) bytes have been
loaded, real or sentinel, which fixes bitcnt, the source cursor and EOF. -/
def Obligations.LookAheadAndEndFlag : Prop :=
  ∀ (calls : List Bool) (last c : Bool) (s t : State) (bs : List Bool) (n : Nat), s.spos ≤ s.src.size →
    readRun (calls ++ [last]) (initStream c s) = (bs, t) → n = (readBitsOf calls + 9 + 7) / 8 →
    t.bitcnt.toNat + readBitsOf (calls ++ [last]) = 8 * n ∧ t.spos = s.spos + min n (s.src.size - s.spos) ∧
    (t.eof = true ↔ s.src.size - s.spos < n)

/-! ### Huffman -/

/-- 41_huffman.md R131, 30_encoding.md R90: after INIT symbols 0..115 are 9 links below the root, 116..313 are 8. -/
def Obligations.InitialCodeLengths : Prop :=
  ∀ sym, sym < 314 → climb hufInit 10 (hufInit.parentAt (627 + sym)) = if sym < 116 then 9 else 8

/-- 41_huffman.md R132, 30_encoding.md R86: in a tree that meets R137, when the bits in front of the core are the path
of a symbol, root first (bit 1 names the odd slot of a pair), the walk ends at that symbol's leaf and consumes exactly
those bits, and DecodeSymbol answers that symbol and leaves the tree that Update gives (in such a tree it always gives
one, by the statement UpdateKeepsTheTree). -/
def Obligations.WalkReadsTheCodeOfItsSymbol : Prop :=
  ∀ (s : State) (sym n leaf : Nat), TreeInv s.tree → BitsOk s → sym < N_CHAR →
    leaf = s.tree.parentAt (TSIZE + sym) → ancestor s.tree n leaf = ROOT →
    (∀ m, m < n → ancestor s.tree m leaf ≠ ROOT ∧
      bitsAhead s (n - 1 - m) = decide (ancestor s.tree m leaf % 2 = 1)) →
    ∃ t, walk TSIZE (s.tree.sonAt ROOT) s = .ok (TSIZE + sym) t ∧ (∀ k, bitsAhead t k = bitsAhead s (k + n)) ∧
      OnlyBits s t ∧
      ∀ tree, update s.tree sym = .ok tree → decodeSymbol s = .ok sym { t with tree := tree }

/-- 41_huffman.md R133, R134, R137, R138: in a tree that meets R137, counting a symbol succeeds, keeps R137, and adds
one to the root and to that symbol's leaf alone; at a root of MAX_FREQ the rebuild runs first. -/
def Obligations.UpdateKeepsTheTree : Prop :=
  ∀ (t : Tree) (sym : Nat), TreeInv t → sym < N_CHAR →
    ∃ t' u, update t sym = .ok t' ∧ TreeInv t' ∧
      (if t.freqAt ROOT = MAX_FREQ then rebuild t = .ok u else u = t) ∧
      t'.freqAt ROOT = u.freqAt ROOT + 1 ∧
      ∀ x, x < N_CHAR → leafFreq t' x = leafFreq u x + if x = sym then 1 else 0

/-- 41_huffman.md R136, R137, R138: a rebuild succeeds, keeps R137, halves every leaf rounding up and keeps its symbol,
and leaves the root at most 16541. -/
def Obligations.RebuildKeepsTheTree : Prop :=
  ∀ t : Tree, TreeInv t →
    ∃ t', rebuild t = .ok t' ∧ TreeInv t' ∧ t'.freqAt ROOT ≤ 16541 ∧
      ∀ x, x < N_CHAR → leafFreq t' x = (leafFreq t x + 1) / 2

/-- 41_huffman.md R137, R139, 60_exceptions.md R265: from a core that is not faulted and whose tree meets R137, no
command raises TreeInvariantViolation, and the tree still meets R137 after it. -/
def Obligations.CommandsNeverBreakTheTree : Prop :=
  ∀ (i : Instr) (s : State), isCommand i = true → s.faulted = false → TreeGood s →
    ∃ t, exec i s = .next t ∧ t.faulted = false ∧ t.err ≠ .treeInvariantViolation ∧ TreeGood t

/-! ### Window and Decompressor -/

/-- 30_encoding.md R87, 42_lzss.md R161, 43_decompressor.md R182: LIT writes its byte at `r`, advances `r` modulo 4096
and returns the byte; nothing else changes. -/
def Obligations.LitPushesItsByte : Prop :=
  ∀ (b : BitVec 8) (s : State), s.win.wf FILL →
    decode (.sym9 (b.setWidth 9)) = .ok (.lit b) ∧
    ∃ t, exec (.lit b) s = .next t ∧ t.outByte = b ∧ t.r.toNat = (s.r.toNat + 1) % 4096 ∧
      (∀ a, t.winRead a = if a = s.r.toNat then b else s.winRead a) ∧
      t = { s with win := t.win, r := t.r, outByte := t.outByte }

/-- 30_encoding.md R91, 42_lzss.md R162: each of the eleven position rows reads its extra bits, gives the distance, and
changes nothing but the bit reader and the returned distance. -/
def Obligations.PositionRowsReadTheirCode : Prop :=
  ∀ (i : Instr) (lead : BitVec 8) (s : State), decode (.pos8x lead) = .ok i → BitsOk s →
    ∃ t, exec i s = .next t ∧
      t.dist = distanceOf lead (lead.toNat * 2 ^ extra lead + valueAhead s (extra lead)) ∧
      (∀ k, bitsAhead t k = bitsAhead s (k + extra lead)) ∧ BitsOk t ∧ OnlyBits { s with dist := t.dist } t

/-- 30_encoding.md R88, R91, 42_lzss.md R163, R164, 43_decompressor.md R183: MATCH sets the length, reads the position
code, places the source from `r` as it stood, and delivers the first byte in the same call; the tree, OUTBUF and every
other window byte are unchanged. -/
def Obligations.MatchDeliversItsFirstByte : Prop :=
  ∀ (sym : BitVec 9) (k lead : BitVec 8) (d from_ : BitVec 12) (s : State), 256 ≤ sym.toNat → sym.toNat ≤ 313 →
    BitsOk s → s.win.wf FILL → k = sym.setWidth 8 → lead = BitVec.ofNat 8 (valueAhead s 8) →
    d = distanceOf lead (valueAhead s (8 + extra lead)) → from_ = s.r - d - 1 →
    decode (.sym9 sym) = .ok (.lzMatch k) ∧
    ∃ t, exec (.lzMatch k) s = .next t ∧ t.mlen.toNat = sym.toNat - 253 ∧ t.dist = d ∧ t.msrc = from_ ∧
      t.copied = 1 ∧ t.mstate = .copyingMatch ∧ t.outByte = s.winRead from_.toNat ∧
      t.r.toNat = (s.r.toNat + 1) % 4096 ∧
      (∀ a, t.winRead a = if a = s.r.toNat then s.winRead from_.toNat else s.winRead a) ∧
      (∀ n, bitsAhead t n = bitsAhead s (n + (8 + extra lead))) ∧ t.tree = s.tree ∧ OnlyDatapath s t

/-- 42_lzss.md R165: a copy of up to 60 bytes at distance `d` repeats the last `d + 1` bytes of the window, also where it
reads bytes it has itself written and where it crosses the end of the window. -/
def Obligations.MatchCopyIsPeriodic : Prop :=
  ∀ (s t : State) (d : BitVec 12) (n : Nat) (bs : List (BitVec 8)), s.win.wf FILL → n ≤ 60 →
    s.msrc = s.r - d - 1 → s.copied = 0 → copyRun n s = (bs, t) →
    bs.length = n ∧ t.r.toNat = (s.r.toNat + n) % 4096 ∧
    ∀ k, k < n → bs[k]? = some (s.winRead (s.r - d - 1 + BitVec.ofNat 12 (k % (d.toNat + 1))).toNat)

/-- 42_lzss.md R165: a match at distance 4095 outputs the oldest bytes of the window and leaves the window unchanged. -/
def Obligations.OldestBytesCopyKeepsTheWindow : Prop :=
  ∀ (s t : State) (n : Nat) (bs : List (BitVec 8)), s.win.wf FILL → n ≤ 60 →
    s.msrc = s.r - 4095#12 - 1 → s.copied = 0 → copyRun n s = (bs, t) →
    t.win = s.win ∧ ∀ k, k < n → bs[k]? = some (s.winRead ((s.r.toNat + k) % 4096))

/-- 42_lzss.md R166: since INIT, the window holds the last 4096 pushed bytes behind `r`, spaces before the first. -/
def Obligations.WindowReach : Prop :=
  ∀ (s t : State) (c : Bool) (bs : List (BitVec 8)) (d : BitVec 12), t = pushAll bs (initStream c s) →
    t.winRead (t.r - 1 - d).toNat = if d.toNat < bs.length then bs.getD (bs.length - 1 - d.toNat) 0 else 0x20

/-- 42_lzss.md R161, 43_decompressor.md R180, R182, R183, R186, 10_state.md R36: which bytes an instruction other than
INIT pushes, and where. A command or a payload token leaves the datapath as `n` byte requests from its start do; in
compressed mode the bytes those requests deliver, and no other, are pushed from `s.r` on, and in raw mode none is. LIT
pushes its byte, MATCH the window byte at its source index, a position code none. -/
def Obligations.WindowChangesOnlyByPushes : Prop :=
  ∀ (i : Instr) (s t : State), isInit i = false → s.win.wf FILL → exec i s = .next t →
    match i with
    | .init _ => True
    | .lit b => Pushed [b] s t
    | .lzMatch k => if k.toNat < 58 then Pushed [s.winRead t.msrc.toNat] s t else Pushed [] s t
    | .posE1 _ | .posE2Lo _ | .posE2Hi _ | .posE3Lo _ | .posE3Mid _ | .posE3Hi _ | .posE4Lo _ | .posE4Hi _
    | .posE5Lo _ | .posE5Hi _ | .posE6 _ => Pushed [] s t
    | .readByte | .readWordLe | .decodeSector _ _ | .decodeLen _ _ | .raw | .repeat2 | .blockRle | .blkLiteral
    | .blkFragment _ =>
      ∃ (n : Nat) (bs : List (BitVec 8)) (u : State), requests n s = (bs, u) ∧ SameDatapath u t ∧
        Pushed (if s.compressed then bs else []) s t ∧
        (i = .readByte → n ≤ 1) ∧ (i = .readWordLe → n ≤ 2) ∧ (i = .raw → n ≤ s.tgt.toNat) ∧ (i = .repeat2 → n ≤ 4) ∧
        (∀ size, i = .decodeLen 0 size → n ≤ size.toNat) ∧ (∀ size, i = .decodeLen 1 size → n ≤ 4)

/-- 43_decompressor.md R184, 70_reset_and_hazards.md R298: with a match pending, READ_BYTE delivers its next byte; no
bit is read and no symbol decoded, and MATCH_PENDING stays 1. -/
def Obligations.ReadByteDeliversThePendingMatch : Prop :=
  ∀ (s : State) (b : BitVec 8), Ready s → s.compressed = true → s.eof = false → s.mstate = .copyingMatch →
    s.copied.toNat < s.mlen.toNat → s.win.wf FILL → b = s.winRead ((s.msrc.toNat + s.copied.toNat) % 4096) →
    ∃ t, exec .readByte s = .next t ∧ t.data = b.setWidth 16 ∧
      t = { s with data := t.data, err := .success, copied := s.copied + 1, win := t.win, r := s.r + 1, outByte := b } ∧
      ∀ a, t.winRead a = if a = s.r.toNat then b else s.winRead a

/-- 43_decompressor.md R185, at the default of the spec's parameter (log 13): with EOF set, READ commands end in
StreamExhausted whatever is pending, and no tree, window, bit or match register changes. -/
def Obligations.EndOfStreamAtEntry : Prop :=
  ∀ s : State, Ready s → s.compressed = true → s.eof = true →
    exec .readByte s = .next { s with data := 0, err := .streamExhausted } ∧
    exec .readWordLe s = .next { s with data := 0, err := .streamExhausted }

/-- 43_decompressor.md R186, 40_bitstream.md R118: in raw mode no command but INIT touches the tree, the window, the bit
buffer or the match registers. -/
def Obligations.RawModeIsolation : Prop :=
  ∀ (i : Instr) (s t : State), isCommand i = true → isInit i = false → s.compressed = false → exec i s = .next t →
    t.tree = s.tree ∧ t.win = s.win ∧ t.r = s.r ∧ t.bitbuf = s.bitbuf ∧ t.bitcnt = s.bitcnt ∧ t.mstate = s.mstate ∧
    t.msrc = s.msrc ∧ t.mlen = s.mlen ∧ t.copied = s.copied

/-! ### Payload tokens -/

/-- 44_sector_payload.md R201: RAW copies `tgt` payload bytes to OUTBUF from `w` on and consumes no more; where the byte
after the first `k` is missing it ends in that error with those `k` bytes written. -/
def Obligations.RawTokenCopiesItsBytes : Prop :=
  ∀ (s t : State) (bs : List (BitVec 8)), s.outbuf.wf 0 → s.w.toNat + s.tgt.toNat ≤ OUTBUF_SIZE →
    (reads s.tgt.toNat s = .ok bs t → ∃ u, exec .raw s = .next u ∧
      u = { t with outbuf := u.outbuf, w := u.w } ∧ u.w.toNat = s.w.toNat + s.tgt.toNat ∧
      ∀ a, u.outRead a =
        if s.w.toNat ≤ a ∧ a < s.w.toNat + s.tgt.toNat then bs.getD (a - s.w.toNat) 0 else s.outRead a) ∧
    ∀ (k : Nat) (s1 : State) (e : Err), k < s.tgt.toNat → reads k s = .ok bs s1 → need s1 = .raise e t →
      ∃ u, exec .raw s = .next u ∧
        u = { t with outbuf := u.outbuf, w := u.w, err := e, faulted := u.faulted } ∧ u.w.toNat = s.w.toNat + k ∧
        ∀ a, u.outRead a =
          if s.w.toNat ≤ a ∧ a < s.w.toNat + k then bs.getD (a - s.w.toNat) 0 else s.outRead a

/-- 44_sector_payload.md R202, R203, 30_encoding.md R96: REPEAT2 reads four bytes and repeats the pair, cut at the
target; the flag says whether the target was not reached. A missing record byte ends it before anything is written. -/
def Obligations.Repeat2TokenRepeatsItsPair : Prop :=
  ∀ (s t : State) (lo hi b1 b2 : BitVec 8) (n : Nat) (e : Err), s.outbuf.wf 0 →
    s.w.toNat + s.tgt.toNat ≤ OUTBUF_SIZE →
    n = min (2 * (hi.toNat * 256 + lo.toNat)) (s.tgt.toNat - s.w.toNat) →
    (reads 4 s = .ok [lo, hi, b1, b2] t → ∃ u, exec .repeat2 s = .next u ∧
      u = { t with outbuf := u.outbuf, w := u.w, cnt := u.cnt, short := u.short } ∧
      u.cnt.toNat = hi.toNat * 256 + lo.toNat ∧ u.w.toNat = s.w.toNat + n ∧
      u.short = decide (s.w.toNat + n < s.tgt.toNat) ∧
      ∀ a, u.outRead a = if s.w.toNat ≤ a ∧ a < s.w.toNat + n then
        (if (a - s.w.toNat) % 2 = 0 then b1 else b2) else s.outRead a) ∧
    (reads 4 s = .raise e t → ∃ u, exec .repeat2 s = .next u ∧ u.err = e ∧ u.outbuf = s.outbuf ∧ u.w = s.w)

/-- 44_sector_payload.md R205, 30_encoding.md R97: BLK_LITERAL reads a count, clamps it to what remains, and copies that
many bytes. A missing count, or a byte missing after the first `k`, ends it in that error with those `k` written. -/
def Obligations.BlkLiteralTokenCopiesItsRun : Prop :=
  ∀ (s t : State), s.outbuf.wf 0 → s.w.toNat + s.remaining.toNat ≤ OUTBUF_SIZE →
    (∀ e, need s = .raise e t → ∃ u, exec .blkLiteral s = .next u ∧ u = { t with err := e, faulted := u.faulted }) ∧
    ∀ (s1 : State) (c : BitVec 8) (bs : List (BitVec 8)) (n : Nat), need s = .ok c s1 →
      n = min c.toNat s.remaining.toNat →
      (reads n s1 = .ok bs t → ∃ u, exec .blkLiteral s = .next u ∧
        u = { t with outbuf := u.outbuf, w := u.w, cnt := u.cnt, remaining := u.remaining } ∧ u.cnt.toNat = n ∧
        u.w.toNat = s.w.toNat + n ∧ u.remaining.toNat = s.remaining.toNat - n ∧
        ∀ a, u.outRead a = if s.w.toNat ≤ a ∧ a < s.w.toNat + n then bs.getD (a - s.w.toNat) 0 else s.outRead a) ∧
      ∀ (k : Nat) (s2 : State) (e : Err), k < n → reads k s1 = .ok bs s2 → need s2 = .raise e t →
        ∃ u, exec .blkLiteral s = .next u ∧
          u = { t with outbuf := u.outbuf, w := u.w, cnt := u.cnt, err := e, faulted := u.faulted } ∧
          u.w.toNat = s.w.toNat + k ∧
          ∀ a, u.outRead a = if s.w.toNat ≤ a ∧ a < s.w.toNat + k then bs.getD (a - s.w.toNat) 0 else s.outRead a

/-- 44_sector_payload.md R206, 30_encoding.md R98: BLK_FRAGMENT reads a count and `2^bt` fragment bytes, keeps the first
8192 in FRAG, and writes as many whole copies as the count asks for and the remaining space takes. A byte missing ends
it in that error with OUTBUF unchanged. R206 has bt in 1..255; that it holds at bt = 0 as well, which no word encodes, is
the model's own choice (log 24). -/
def Obligations.BlkFragmentTokenCopiesItsFragment : Prop :=
  ∀ (bt : BitVec 8) (s t : State), s.outbuf.wf 0 → s.frag.wf 0 → s.w.toNat + s.remaining.toNat ≤ OUTBUF_SIZE →
    (∀ e, need s = .raise e t → ∃ u, exec (.blkFragment bt) s = .next u ∧
      u = { t with err := e, faulted := u.faulted, fsize := 2 ^ bt.toNat }) ∧
    ∀ (s1 : State) (c : BitVec 8) (bs : List (BitVec 8)) (f m : Nat), need s = .ok c s1 → f = 2 ^ bt.toNat →
      m = min c.toNat (s.remaining.toNat / f) →
      (reads f s1 = .ok bs t → ∃ u, exec (.blkFragment bt) s = .next u ∧
        u = { t with
          outbuf := u.outbuf, frag := u.frag, w := u.w, cnt := u.cnt, fsize := f, remaining := u.remaining } ∧
        u.cnt.toNat = c.toNat ∧ u.w.toNat = s.w.toNat + m * f ∧ u.remaining.toNat = s.remaining.toNat - m * f ∧
        (∀ k, u.fragRead k = if k < f ∧ k < FRAG_MAX then bs.getD k 0 else s.fragRead k) ∧
        ∀ a, u.outRead a =
          if s.w.toNat ≤ a ∧ a < s.w.toNat + m * f then bs.getD ((a - s.w.toNat) % f) 0 else s.outRead a) ∧
      ∀ e, reads f s1 = .raise e t → ∃ u, exec (.blkFragment bt) s = .next u ∧
        u = { t with frag := u.frag, cnt := u.cnt, fsize := f, err := e, faulted := u.faulted }

/-- 44_sector_payload.md R204, 60_exceptions.md R263: BLOCK_RLE runs its blocks until nothing remains; with nothing to
produce it reads nothing; where a block raises it ends in that error, and OUTBUF changes only from where the token began
up to the bytes the blocks had written. In a tree that meets R137 the model's bound on the blocks (log 9) never shows. -/
def Obligations.BlockRleRunsItsBlocks : Prop :=
  ∀ s t : State, TreeGood s → s.w.toNat + s.tgt.toNat ≤ OUTBUF_SIZE →
    (BlocksTo { s with remaining := s.tgt } t → exec .blockRle s = .next t) ∧
    (s.tgt = 0 → exec .blockRle s = .next { s with remaining := 0 }) ∧
    ∀ e, BlocksRaise { s with remaining := s.tgt } e t → ∃ u, exec .blockRle s = .next u ∧
      u = { t with err := e, faulted := u.faulted } ∧ (e ≠ .treeInvariantViolation → u.faulted = s.faulted) ∧
      s.w.toNat ≤ u.w.toNat ∧ u.w.toNat ≤ s.w.toNat + s.tgt.toNat ∧
      (s.outbuf.wf 0 → ∀ a, ¬ (s.w.toNat ≤ a ∧ a < u.w.toNat) → u.outRead a = s.outRead a)

/-- Every payload token answers a next state wherever its output fits, changes only what a payload may change, ERR and
FAULTED (44_sector_payload.md R200-R206), and leaves every byte of OUTBUF outside its `w .. w + room` as it was, the room
being `tgt` for a method and `remaining` for a block. -/
def Obligations.PayloadTokensAnswer : Prop :=
  ∀ (s : State) (bt : BitVec 8), s.outbuf.wf 0 →
    (s.w.toNat + s.tgt.toNat ≤ OUTBUF_SIZE → ∀ i ∈ [Instr.raw, Instr.repeat2, Instr.blockRle],
      ∃ t, exec i s = .next t ∧ OnlyPayload { s with err := t.err, faulted := t.faulted } t ∧
        ∀ a, ¬ (s.w.toNat ≤ a ∧ a < s.w.toNat + s.tgt.toNat) → t.outRead a = s.outRead a) ∧
    (s.w.toNat + s.remaining.toNat ≤ OUTBUF_SIZE → ∀ i ∈ [Instr.blkLiteral, Instr.blkFragment bt],
      ∃ t, exec i s = .next t ∧ OnlyPayload { s with err := t.err, faulted := t.faulted } t ∧
        ∀ a, ¬ (s.w.toNat ≤ a ∧ a < s.w.toNat + s.remaining.toNat) → t.outRead a = s.outRead a)

/-- What a token run alone does (the model's own choice, log 2) is what the units do with it inside a command, where it
ends and where it raises: a symbol in DecNextByte (43_decompressor.md R181), a position code in DecodePosition (42_lzss.md
R162), a method in DecodePayload and the DECODE command around it (44_sector_payload.md R200, 45_host_commands.md R236),
a block in the loop of method 2 (R204). -/
def Obligations.TokensRunInsideTheirCommands : Prop :=
  (∀ s : State, s.eofStops = false → s.copyPending = false →
    (∀ (sym : Nat) (t : State), decodeSymbol { s with mstate := .idle } = .ok sym t →
      ∃ i u, decode (.sym9 (BitVec.ofNat 9 sym)) = .ok i ∧ exec i t = .next u ∧
        decNextByte s = .ok (some u.outByte) u) ∧
    ∀ (e : Err) (t : State), decodeSymbol { s with mstate := .idle } = .raise e t → decNextByte s = .raise e t) ∧
  (∀ (s t : State) (lead : BitVec 8), nextBits8 s = (lead, t) →
    ∃ i, decode (.pos8x lead) = .ok i ∧ exec i t = .next (decodePosition s)) ∧
  (∀ (s s1 : State) (m : BitVec 8) (target : BitVec 16), Ready s → target.toNat ≤ MAX_TARGET →
    s1 = { s with shortFill := false, outlen := 0 } →
    (∀ r, decode (.method8 m) = .error r →
      decodePayload m target.toNat s1 = .raise .unknownCompressionMethod s1 ∧
      exec (.decodeLen m target) s = .next (rejected r s1)) ∧
    ∀ i s2, decode (.method8 m) = .ok i →
      s2 = { s1 with
        outbuf := s1.outbuf.clearBelow target.toNat
        w := 0
        tgt := BitVec.ofNat 14 target.toNat
        short := false } →
      (∀ u, decodePayload m target.toNat s1 = .ok () u → exec i s2 = .next u ∧
        exec (.decodeLen m target) s = .next { u with
          shortFill := u.short, outlen := BitVec.ofNat 14 target.toNat, err := .success }) ∧
      ∀ e u, decodePayload m target.toNat s1 = .raise e u → exec i s2 = .next (raiseErr e u) ∧
        exec (.decodeLen m target) s = .next (raiseErr e u)) ∧
  ∀ (n : Nat) (s s1 : State), s.remaining.toNat ≠ 0 → s.w.toNat + s.remaining.toNat ≤ OUTBUF_SIZE →
    (∀ e, need s = .raise e s1 → blocks (n + 1) s = .raise e s1) ∧
    ∀ bt i, need s = .ok bt s1 → decode (.blk8 bt) = .ok i →
      ∃ u, (exec i s1 = .next u ∧ blocks (n + 1) s = blocks n u) ∨
        ∃ e, exec i s1 = .next (raiseErr e u) ∧ blocks (n + 1) s = .raise e u

/-! ### Host commands -/

/-- Every command answers a next state, from every state, and leaves the source's bytes, the waiting inputs and what the
host last read alone (60_exceptions.md R260, R270). -/
def Obligations.EveryCommandAnswers : Prop :=
  ∀ (i : Instr) (s : State), isCommand i = true →
    ∃ t, exec i s = .next t ∧ t.src = s.src ∧ t.inputs = s.inputs ∧ t.resp = s.resp ∧ t.draws = s.draws

/-- 45_host_commands.md R231, 10_state.md R45, 41_huffman.md R130, 42_lzss.md R160: INIT gives every element its value
and does not move the source. That it leaves the command-local registers as they stood (log 25), and that it sets the
model's own padbits to 0 (log 13), are the model's own choices. -/
def Obligations.InitGivesEveryElement : Prop :=
  ∀ (c : Bool) (s : State), ∃ t, exec (.init c) s = .next t ∧
    t = { s with
      inited := true
      faulted := false
      compressed := c
      eof := false
      shortFill := false
      err := .success
      data := 0
      outlen := 0
      outbuf := t.outbuf
      bitbuf := 0
      bitcnt := 0
      padbits := 0
      tree := t.tree
      win := t.win
      r := 4036
      mstate := .idle
      msrc := 0
      mlen := 0
      copied := 0 } ∧
    (∀ a, t.outRead a = 0) ∧ (∀ a, t.winRead a = 0x20) ∧
    (∀ sym, sym < 314 →
      t.tree.freqAt sym = 1 ∧ t.tree.sonAt sym = sym + 627 ∧ t.tree.parentAt (sym + 627) = sym) ∧
    (∀ j, 314 ≤ j → j < 627 →
      t.tree.freqAt j = t.tree.freqAt (2 * (j - 314)) + t.tree.freqAt (2 * (j - 314) + 1) ∧
      t.tree.sonAt j = 2 * (j - 314) ∧ t.tree.parentAt (2 * (j - 314)) = j ∧
      t.tree.parentAt (2 * (j - 314) + 1) = j) ∧
    t.tree.freqAt 627 = 0xFFFF ∧ t.tree.parentAt 626 = 0

/-- 45_host_commands.md R232, 10_state.md R27: READ_BYTE puts the byte in DATA, or 0 and StreamExhausted; the byte request
itself touches neither OUTBUF nor any result register. -/
def Obligations.ReadByteResult : Prop :=
  ∀ s t : State, Ready s →
    (∀ b, byteIn s = .ok b t → OnlyDatapath s t) ∧
    (∀ b, byteIn s = .ok (some b) t → exec .readByte s = .next { t with data := b.setWidth 16, err := .success }) ∧
    (byteIn s = .ok none t → exec .readByte s = .next { t with data := 0, err := .streamExhausted })

/-- 45_host_commands.md R233, 43_decompressor.md R187: READ_WORD_LE reads two bytes, the low one first; where the second
is missing the first stays consumed. -/
def Obligations.ReadWordResult : Prop :=
  ∀ s t u : State, Ready s →
    (∀ b, byteIn s = .ok b t → OnlyDatapath s t) ∧
    (∀ lo hi, byteIn s = .ok (some lo) t → byteIn t = .ok (some hi) u →
      exec .readWordLe s = .next { u with data := BitVec.ofNat 16 (hi.toNat * 256 + lo.toNat), err := .success }) ∧
    (∀ lo, byteIn s = .ok (some lo) t → byteIn t = .ok none u →
      exec .readWordLe s = .next { u with data := 0, err := .streamExhausted }) ∧
    (byteIn s = .ok none t → exec .readWordLe s = .next { t with data := 0, err := .streamExhausted })

/-- 45_host_commands.md R232, R233, 43_decompressor.md R180: the READ commands in raw mode, from the source's bytes. -/
def Obligations.RawModeReads : Prop :=
  ∀ s : State, Ready s → s.compressed = false →
    (∀ b, s.eof = false → s.src[s.spos]? = some b →
      exec .readByte s = .next { s with spos := s.spos + 1, data := b.setWidth 16, err := .success }) ∧
    (∀ lo hi, s.eof = false → s.src[s.spos]? = some lo → s.src[s.spos + 1]? = some hi →
      exec .readWordLe s = .next { s with
        spos := s.spos + 2, data := BitVec.ofNat 16 (hi.toNat * 256 + lo.toNat), err := .success }) ∧
    (∀ lo, s.eof = false → s.src[s.spos]? = some lo → s.src[s.spos + 1]? = none →
      exec .readWordLe s = .next { s with
        spos := s.spos + 1, eof := true, data := 0, err := .streamExhausted }) ∧
    (s.eof = true ∨ s.src[s.spos]? = none →
      exec .readByte s = .next { s with eof := true, data := 0, err := .streamExhausted } ∧
      exec .readWordLe s = .next { s with eof := true, data := 0, err := .streamExhausted })

/-- The frame of the READ commands (45_host_commands.md R232, R233): outside what a byte request may change only DATA,
ERR and FAULTED may; in the window only the byte at `r`, or for a word the two from `r` on. -/
def Obligations.ReadFrame : Prop :=
  ∀ s t : State, s.win.wf FILL →
    (exec .readByte s = .next t →
      OnlyDatapath { s with data := t.data, err := t.err, faulted := t.faulted } t ∧
      ∀ a, a ≠ s.r.toNat → t.winRead a = s.winRead a) ∧
    (exec .readWordLe s = .next t →
      OnlyDatapath { s with data := t.data, err := t.err, faulted := t.faulted } t ∧
      ∀ a, a ≠ s.r.toNat → a ≠ (s.r + 1).toNat → t.winRead a = s.winRead a)

/-- 44_sector_payload.md R207, 60_exceptions.md R264, R267: a size that is too large is refused before the method is
looked at, an unknown method after it; each clears OUTLEN and SHORT_FILL, and nothing else changes. -/
def Obligations.SizeThenMethodChecks : Prop :=
  ∀ s : State, Ready s →
    (∀ m sc : BitVec 8, 6 < sc.toNat → exec (.decodeSector m sc) s =
      .next { s with shortFill := false, outlen := 0, err := .invalidSizeCode }) ∧
    (∀ (m : BitVec 8) (n : BitVec 16), 8192 < n.toNat → exec (.decodeLen m n) s =
      .next { s with shortFill := false, outlen := 0, err := .invalidSizeCode }) ∧
    (∀ m sc : BitVec 8, sc.toNat ≤ 6 → 2 < m.toNat → exec (.decodeSector m sc) s =
      .next { s with shortFill := false, outlen := 0, err := .unknownCompressionMethod }) ∧
    (∀ (m : BitVec 8) (n : BitVec 16), n.toNat ≤ 8192 → 2 < m.toNat → exec (.decodeLen m n) s =
      .next { s with shortFill := false, outlen := 0, err := .unknownCompressionMethod })

/-- 30_encoding.md R85: DECODE_SECTOR with a size code of 0..6 is DECODE_LEN of 128 << size code. -/
def Obligations.SizeCodeIsATargetSize : Prop :=
  ∀ (m sc : BitVec 8) (s : State), sc.toNat ≤ 6 →
    ∃ t, exec (.decodeSector m sc) s = .next t ∧ exec (.decodeLen m (BitVec.ofNat 16 (128 <<< sc.toNat))) s = .next t

/-- 45_host_commands.md R236, 44_sector_payload.md R201: DECODE of method 0 and length `n` leaves the next `n` payload
bytes in OUTBUF, OUTLEN = n and no error, and consumes exactly those bytes. -/
def Obligations.DecodeRaw : Prop :=
  ∀ (s t : State) (n : BitVec 16) (bs : List (BitVec 8)), Ready s → s.outbuf.wf 0 → n.toNat ≤ MAX_TARGET →
    reads n.toNat s = .ok bs t →
    ∃ u, exec (.decodeLen 0 n) s = .next u ∧ u.outlen.toNat = n.toNat ∧
      u = { t with
        outbuf := u.outbuf
        w := u.outlen
        tgt := u.outlen
        short := false
        shortFill := false
        outlen := u.outlen
        err := .success } ∧
      ∀ a, u.outRead a = if a < n.toNat then bs.getD a 0 else s.outRead a

/-- 45_host_commands.md R236 (corner case), 60_exceptions.md R263: a raw stream that ends inside a method-0 payload. The
bytes that arrived stay in OUTBUF, the rest of the target reads 0, and the result is StreamExhausted with OUTLEN = 0. -/
def Obligations.ExhaustedRawDecode : Prop :=
  ∀ (s : State) (n : BitVec 16), Ready s → s.compressed = false → s.eof = false → s.outbuf.wf 0 →
    n.toNat ≤ MAX_TARGET → s.spos ≤ s.src.size → s.src.size - s.spos < n.toNat →
    ∃ u, exec (.decodeLen 0 n) s = .next u ∧ u.err = .streamExhausted ∧ u.outlen = 0 ∧ u.shortFill = false ∧
      u.eof = true ∧ u.spos = s.src.size ∧
      ∀ a, u.outRead a = if a < n.toNat then (s.src[s.spos + a]?).getD 0 else s.outRead a

/-- 44_sector_payload.md R202, R203, R209: DECODE of method 1. The pair fills OUTBUF up to the target; where it falls
short the rest is 0x00, SHORT_FILL is 1 and the command still succeeds. -/
def Obligations.DecodeRepeat2 : Prop :=
  ∀ (s t : State) (n : BitVec 16) (lo hi b1 b2 : BitVec 8) (count : Nat), Ready s → s.outbuf.wf 0 →
    n.toNat ≤ MAX_TARGET → reads 4 s = .ok [lo, hi, b1, b2] t → count = hi.toNat * 256 + lo.toNat →
    ∃ u, exec (.decodeLen 1 n) s = .next u ∧ u.err = .success ∧ u.outlen.toNat = n.toNat ∧
      u.shortFill = decide (2 * count < n.toNat) ∧ u.spos = t.spos ∧ u.eof = t.eof ∧
      ∀ a, u.outRead a =
        if a < n.toNat then (if a < 2 * count then (if a % 2 = 0 then b1 else b2) else 0) else s.outRead a

/-- 10_state.md R26, R28, 45_host_commands.md R236: how an executed DECODE ends. Success leaves OUTLEN at the target
size, an error leaves OUTLEN and SHORT_FILL at 0; SHORT_FILL is 1 only for method 1. -/
def Obligations.DecodeOutcome : Prop :=
  ∀ (m sc : BitVec 8) (n : BitVec 16) (s : State), Ready s →
    (∃ t, exec (.decodeLen m n) s = .next t ∧
      ((t.err = .success ∧ t.outlen.toNat = n.toNat ∧ (t.shortFill = true → m = 1)) ∨
        (t.err ≠ .success ∧ t.outlen = 0 ∧ t.shortFill = false))) ∧
    ∃ t, exec (.decodeSector m sc) s = .next t ∧
      ((t.err = .success ∧ t.outlen.toNat = 128 * 2 ^ sc.toNat ∧ (t.shortFill = true → m = 1)) ∨
        (t.err ≠ .success ∧ t.outlen = 0 ∧ t.shortFill = false))

/-- The frame of the DECODE commands (20_memory.md R74, 10_state.md R27): outside what a payload may change only OUTLEN,
SHORT_FILL, ERR and FAULTED may, and no byte of OUTBUF from the target size on changes. -/
def Obligations.DecodeFrame : Prop :=
  ∀ (m sc : BitVec 8) (n : BitVec 16) (s t : State), s.outbuf.wf 0 →
    (exec (.decodeLen m n) s = .next t →
      OnlyPayload { s with
        outlen := t.outlen, shortFill := t.shortFill, err := t.err, faulted := t.faulted } t ∧
      ∀ a, n.toNat ≤ a → t.outRead a = s.outRead a) ∧
    (exec (.decodeSector m sc) s = .next t →
      OnlyPayload { s with
        outlen := t.outlen, shortFill := t.shortFill, err := t.err, faulted := t.faulted } t ∧
      ∀ a, 128 * 2 ^ sc.toNat ≤ a → t.outRead a = s.outRead a)

/-! ### Rules of the whole machine -/

/-- 10_state.md R21, R22, R23: no instruction but INIT changes INITED or COMPRESSED, or clears FAULTED. -/
def Obligations.OnlyInitChangesTheMode : Prop :=
  ∀ (i : Instr) (s t : State), isInit i = false → exec i s = .next t →
    t.inited = s.inited ∧ t.compressed = s.compressed ∧ (s.faulted = true → t.faulted = true)

/-- 10_state.md R24, 40_bitstream.md R111, 43_decompressor.md R188: no instruction but INIT clears EOF, and while it is
1 the source is not read. -/
def Obligations.EofStaysUntilInit : Prop :=
  ∀ (i : Instr) (s t : State), isInit i = false → s.eof = true → exec i s = .next t →
    t.eof = true ∧ t.spos = s.spos

/-- 10_state.md R42: no instruction writes the source, its cursor only moves forward, and it never passes the end. -/
def Obligations.SourceIsReadForward : Prop :=
  ∀ (i : Instr) (s t : State), exec i s = .next t →
    t.src = s.src ∧ s.spos ≤ t.spos ∧ (s.spos ≤ s.src.size → t.spos ≤ s.src.size)

/-- 10_state.md R41: no command reads a command-local register it has not written. Two states that differ only there
answer with states that differ only there. -/
def Obligations.CommandLocalsAreNeverRead : Prop :=
  ∀ (i : Instr) (s s' t : State), isCommand i = true → s.frag.wf 0 → s'.frag.wf 0 → OnlyLocals s s' →
    exec i s = .next t → ∃ t', exec i s' = .next t' ∧ OnlyLocals t t'

/-! ### Byte requests that must deliver, and method 2 in a command -/

/-- 44_sector_payload.md R200 (`Need`), 60_exceptions.md R263: a byte that must arrive and does not is StreamExhausted. -/
def Obligations.NeedRaisesStreamExhausted : Prop :=
  ∀ s t : State,
    (∀ b, byteIn s = .ok (some b) t → need s = .ok b t) ∧
    (byteIn s = .ok none t → need s = .raise .streamExhausted t) ∧
    (∀ e, byteIn s = .raise e t → need s = .raise e t) ∧
    (s.compressed = false → s.eof = true → need s = .raise .streamExhausted s) ∧
    (s.compressed = false → s.eof = false → s.src[s.spos]? = none →
      need s = .raise .streamExhausted { s with eof := true })

/-- 45_host_commands.md R236, 44_sector_payload.md R204, 60_exceptions.md R263: DECODE of method 2. Blocks that fill the
target give OUTLEN = n and no error. Where a block raises, ERR is its error, OUTLEN and SHORT_FILL are 0, and OUTBUF
reads 0 from the bytes the blocks had written up to the target, and as before past it. -/
def Obligations.DecodeBlockRle : Prop :=
  ∀ (s s0 t : State) (n : BitVec 16), Ready s → TreeGood s → s.outbuf.wf 0 → n.toNat ≤ MAX_TARGET →
    s0 = { s with
      shortFill := false
      outlen := 0
      outbuf := s.outbuf.clearBelow n.toNat
      w := 0
      tgt := BitVec.ofNat 14 n.toNat
      short := false
      remaining := BitVec.ofNat 14 n.toNat } →
    (BlocksTo s0 t → exec (.decodeLen 2 n) s = .next { t with
      shortFill := false, outlen := BitVec.ofNat 14 n.toNat, err := .success }) ∧
    ∀ e, BlocksRaise s0 e t → ∃ u, exec (.decodeLen 2 n) s = .next u ∧
      u = { t with err := e, faulted := u.faulted } ∧ (e ≠ .treeInvariantViolation → u.faulted = false) ∧
      u.outlen = 0 ∧ u.shortFill = false ∧ u.w.toNat ≤ n.toNat ∧
      (∀ a, u.w.toNat ≤ a → a < n.toNat → u.outRead a = 0) ∧ ∀ a, n.toNat ≤ a → u.outRead a = s.outRead a

end
end

