-- ==== Sys2Proof/Laws/State.lean ====
section
/-! SUPPORT. One lemma per field per named update of the state, each true by rfl. -/

namespace Sys2Proof.Laws

open Sys2Proof.Config Sys2Proof.Machine

/-! ### raiseErr -/

@[simp] theorem raiseErr_inited (e : Err) (s : State) : (raiseErr e s).inited = s.inited := rfl
@[simp] theorem raiseErr_faulted (e : Err) (s : State) : (raiseErr e s).faulted = (s.faulted || decide (e = .treeInvariantViolation)) := rfl
@[simp] theorem raiseErr_compressed (e : Err) (s : State) : (raiseErr e s).compressed = s.compressed := rfl
@[simp] theorem raiseErr_eof (e : Err) (s : State) : (raiseErr e s).eof = s.eof := rfl
@[simp] theorem raiseErr_shortFill (e : Err) (s : State) : (raiseErr e s).shortFill = s.shortFill := rfl
@[simp] theorem raiseErr_err (e : Err) (s : State) : (raiseErr e s).err = e := rfl
@[simp] theorem raiseErr_data (e : Err) (s : State) : (raiseErr e s).data = s.data := rfl
@[simp] theorem raiseErr_outlen (e : Err) (s : State) : (raiseErr e s).outlen = s.outlen := rfl
@[simp] theorem raiseErr_bitbuf (e : Err) (s : State) : (raiseErr e s).bitbuf = s.bitbuf := rfl
@[simp] theorem raiseErr_bitcnt (e : Err) (s : State) : (raiseErr e s).bitcnt = s.bitcnt := rfl
@[simp] theorem raiseErr_tree (e : Err) (s : State) : (raiseErr e s).tree = s.tree := rfl
@[simp] theorem raiseErr_win (e : Err) (s : State) : (raiseErr e s).win = s.win := rfl
@[simp] theorem raiseErr_r (e : Err) (s : State) : (raiseErr e s).r = s.r := rfl
@[simp] theorem raiseErr_mstate (e : Err) (s : State) : (raiseErr e s).mstate = s.mstate := rfl
@[simp] theorem raiseErr_msrc (e : Err) (s : State) : (raiseErr e s).msrc = s.msrc := rfl
@[simp] theorem raiseErr_mlen (e : Err) (s : State) : (raiseErr e s).mlen = s.mlen := rfl
@[simp] theorem raiseErr_copied (e : Err) (s : State) : (raiseErr e s).copied = s.copied := rfl
@[simp] theorem raiseErr_outbuf (e : Err) (s : State) : (raiseErr e s).outbuf = s.outbuf := rfl
@[simp] theorem raiseErr_remaining (e : Err) (s : State) : (raiseErr e s).remaining = s.remaining := rfl
@[simp] theorem raiseErr_w (e : Err) (s : State) : (raiseErr e s).w = s.w := rfl
@[simp] theorem raiseErr_fsize (e : Err) (s : State) : (raiseErr e s).fsize = s.fsize := rfl
@[simp] theorem raiseErr_cnt (e : Err) (s : State) : (raiseErr e s).cnt = s.cnt := rfl
@[simp] theorem raiseErr_frag (e : Err) (s : State) : (raiseErr e s).frag = s.frag := rfl
@[simp] theorem raiseErr_tgt (e : Err) (s : State) : (raiseErr e s).tgt = s.tgt := rfl
@[simp] theorem raiseErr_short (e : Err) (s : State) : (raiseErr e s).short = s.short := rfl
@[simp] theorem raiseErr_dist (e : Err) (s : State) : (raiseErr e s).dist = s.dist := rfl
@[simp] theorem raiseErr_outByte (e : Err) (s : State) : (raiseErr e s).outByte = s.outByte := rfl
@[simp] theorem raiseErr_padbits (e : Err) (s : State) : (raiseErr e s).padbits = s.padbits := rfl
@[simp] theorem raiseErr_src (e : Err) (s : State) : (raiseErr e s).src = s.src := rfl
@[simp] theorem raiseErr_spos (e : Err) (s : State) : (raiseErr e s).spos = s.spos := rfl
@[simp] theorem raiseErr_inputs (e : Err) (s : State) : (raiseErr e s).inputs = s.inputs := rfl
@[simp] theorem raiseErr_resp (e : Err) (s : State) : (raiseErr e s).resp = s.resp := rfl
@[simp] theorem raiseErr_draws (e : Err) (s : State) : (raiseErr e s).draws = s.draws := rfl

/-! ### illegal -/

@[simp] theorem illegal_inited (s : State) : (illegal s).inited = s.inited := rfl
@[simp] theorem illegal_faulted (s : State) : (illegal s).faulted = s.faulted := by
  show (s.faulted || false) = s.faulted; simp
@[simp] theorem illegal_compressed (s : State) : (illegal s).compressed = s.compressed := rfl
@[simp] theorem illegal_eof (s : State) : (illegal s).eof = s.eof := rfl
@[simp] theorem illegal_shortFill (s : State) : (illegal s).shortFill = s.shortFill := rfl
@[simp] theorem illegal_err (s : State) : (illegal s).err = .illegalCommand := rfl
@[simp] theorem illegal_data (s : State) : (illegal s).data = s.data := rfl
@[simp] theorem illegal_outlen (s : State) : (illegal s).outlen = s.outlen := rfl
@[simp] theorem illegal_bitbuf (s : State) : (illegal s).bitbuf = s.bitbuf := rfl
@[simp] theorem illegal_bitcnt (s : State) : (illegal s).bitcnt = s.bitcnt := rfl
@[simp] theorem illegal_tree (s : State) : (illegal s).tree = s.tree := rfl
@[simp] theorem illegal_win (s : State) : (illegal s).win = s.win := rfl
@[simp] theorem illegal_r (s : State) : (illegal s).r = s.r := rfl
@[simp] theorem illegal_mstate (s : State) : (illegal s).mstate = s.mstate := rfl
@[simp] theorem illegal_msrc (s : State) : (illegal s).msrc = s.msrc := rfl
@[simp] theorem illegal_mlen (s : State) : (illegal s).mlen = s.mlen := rfl
@[simp] theorem illegal_copied (s : State) : (illegal s).copied = s.copied := rfl
@[simp] theorem illegal_outbuf (s : State) : (illegal s).outbuf = s.outbuf := rfl
@[simp] theorem illegal_remaining (s : State) : (illegal s).remaining = s.remaining := rfl
@[simp] theorem illegal_w (s : State) : (illegal s).w = s.w := rfl
@[simp] theorem illegal_fsize (s : State) : (illegal s).fsize = s.fsize := rfl
@[simp] theorem illegal_cnt (s : State) : (illegal s).cnt = s.cnt := rfl
@[simp] theorem illegal_frag (s : State) : (illegal s).frag = s.frag := rfl
@[simp] theorem illegal_tgt (s : State) : (illegal s).tgt = s.tgt := rfl
@[simp] theorem illegal_short (s : State) : (illegal s).short = s.short := rfl
@[simp] theorem illegal_dist (s : State) : (illegal s).dist = s.dist := rfl
@[simp] theorem illegal_outByte (s : State) : (illegal s).outByte = s.outByte := rfl
@[simp] theorem illegal_padbits (s : State) : (illegal s).padbits = s.padbits := rfl
@[simp] theorem illegal_src (s : State) : (illegal s).src = s.src := rfl
@[simp] theorem illegal_spos (s : State) : (illegal s).spos = s.spos := rfl
@[simp] theorem illegal_inputs (s : State) : (illegal s).inputs = s.inputs := rfl
@[simp] theorem illegal_resp (s : State) : (illegal s).resp = s.resp := rfl
@[simp] theorem illegal_draws (s : State) : (illegal s).draws = s.draws := rfl

/-! ### emit -/

@[simp] theorem emit_inited (b : Byte) (s : State) : (emit b s).inited = s.inited := rfl
@[simp] theorem emit_faulted (b : Byte) (s : State) : (emit b s).faulted = s.faulted := rfl
@[simp] theorem emit_compressed (b : Byte) (s : State) : (emit b s).compressed = s.compressed := rfl
@[simp] theorem emit_eof (b : Byte) (s : State) : (emit b s).eof = s.eof := rfl
@[simp] theorem emit_shortFill (b : Byte) (s : State) : (emit b s).shortFill = s.shortFill := rfl
@[simp] theorem emit_err (b : Byte) (s : State) : (emit b s).err = s.err := rfl
@[simp] theorem emit_data (b : Byte) (s : State) : (emit b s).data = s.data := rfl
@[simp] theorem emit_outlen (b : Byte) (s : State) : (emit b s).outlen = s.outlen := rfl
@[simp] theorem emit_bitbuf (b : Byte) (s : State) : (emit b s).bitbuf = s.bitbuf := rfl
@[simp] theorem emit_bitcnt (b : Byte) (s : State) : (emit b s).bitcnt = s.bitcnt := rfl
@[simp] theorem emit_tree (b : Byte) (s : State) : (emit b s).tree = s.tree := rfl
@[simp] theorem emit_win (b : Byte) (s : State) : (emit b s).win = s.win := rfl
@[simp] theorem emit_r (b : Byte) (s : State) : (emit b s).r = s.r := rfl
@[simp] theorem emit_mstate (b : Byte) (s : State) : (emit b s).mstate = s.mstate := rfl
@[simp] theorem emit_msrc (b : Byte) (s : State) : (emit b s).msrc = s.msrc := rfl
@[simp] theorem emit_mlen (b : Byte) (s : State) : (emit b s).mlen = s.mlen := rfl
@[simp] theorem emit_copied (b : Byte) (s : State) : (emit b s).copied = s.copied := rfl
@[simp] theorem emit_outbuf (b : Byte) (s : State) : (emit b s).outbuf = if s.w.toNat < OUTBUF_SIZE then s.outbuf.write 0 s.w.toNat b else s.outbuf := rfl
@[simp] theorem emit_remaining (b : Byte) (s : State) : (emit b s).remaining = s.remaining := rfl
@[simp] theorem emit_w (b : Byte) (s : State) : (emit b s).w = s.w + 1 := rfl
@[simp] theorem emit_fsize (b : Byte) (s : State) : (emit b s).fsize = s.fsize := rfl
@[simp] theorem emit_cnt (b : Byte) (s : State) : (emit b s).cnt = s.cnt := rfl
@[simp] theorem emit_frag (b : Byte) (s : State) : (emit b s).frag = s.frag := rfl
@[simp] theorem emit_tgt (b : Byte) (s : State) : (emit b s).tgt = s.tgt := rfl
@[simp] theorem emit_short (b : Byte) (s : State) : (emit b s).short = s.short := rfl
@[simp] theorem emit_dist (b : Byte) (s : State) : (emit b s).dist = s.dist := rfl
@[simp] theorem emit_outByte (b : Byte) (s : State) : (emit b s).outByte = s.outByte := rfl
@[simp] theorem emit_padbits (b : Byte) (s : State) : (emit b s).padbits = s.padbits := rfl
@[simp] theorem emit_src (b : Byte) (s : State) : (emit b s).src = s.src := rfl
@[simp] theorem emit_spos (b : Byte) (s : State) : (emit b s).spos = s.spos := rfl
@[simp] theorem emit_inputs (b : Byte) (s : State) : (emit b s).inputs = s.inputs := rfl
@[simp] theorem emit_resp (b : Byte) (s : State) : (emit b s).resp = s.resp := rfl
@[simp] theorem emit_draws (b : Byte) (s : State) : (emit b s).draws = s.draws := rfl

/-! ### fragWrite -/

@[simp] theorem fragWrite_inited (s : State) (k : Nat) (b : Byte) : (s.fragWrite k b).inited = s.inited := rfl
@[simp] theorem fragWrite_faulted (s : State) (k : Nat) (b : Byte) : (s.fragWrite k b).faulted = s.faulted := rfl
@[simp] theorem fragWrite_compressed (s : State) (k : Nat) (b : Byte) : (s.fragWrite k b).compressed = s.compressed := rfl
@[simp] theorem fragWrite_eof (s : State) (k : Nat) (b : Byte) : (s.fragWrite k b).eof = s.eof := rfl
@[simp] theorem fragWrite_shortFill (s : State) (k : Nat) (b : Byte) : (s.fragWrite k b).shortFill = s.shortFill := rfl
@[simp] theorem fragWrite_err (s : State) (k : Nat) (b : Byte) : (s.fragWrite k b).err = s.err := rfl
@[simp] theorem fragWrite_data (s : State) (k : Nat) (b : Byte) : (s.fragWrite k b).data = s.data := rfl
@[simp] theorem fragWrite_outlen (s : State) (k : Nat) (b : Byte) : (s.fragWrite k b).outlen = s.outlen := rfl
@[simp] theorem fragWrite_bitbuf (s : State) (k : Nat) (b : Byte) : (s.fragWrite k b).bitbuf = s.bitbuf := rfl
@[simp] theorem fragWrite_bitcnt (s : State) (k : Nat) (b : Byte) : (s.fragWrite k b).bitcnt = s.bitcnt := rfl
@[simp] theorem fragWrite_tree (s : State) (k : Nat) (b : Byte) : (s.fragWrite k b).tree = s.tree := rfl
@[simp] theorem fragWrite_win (s : State) (k : Nat) (b : Byte) : (s.fragWrite k b).win = s.win := rfl
@[simp] theorem fragWrite_r (s : State) (k : Nat) (b : Byte) : (s.fragWrite k b).r = s.r := rfl
@[simp] theorem fragWrite_mstate (s : State) (k : Nat) (b : Byte) : (s.fragWrite k b).mstate = s.mstate := rfl
@[simp] theorem fragWrite_msrc (s : State) (k : Nat) (b : Byte) : (s.fragWrite k b).msrc = s.msrc := rfl
@[simp] theorem fragWrite_mlen (s : State) (k : Nat) (b : Byte) : (s.fragWrite k b).mlen = s.mlen := rfl
@[simp] theorem fragWrite_copied (s : State) (k : Nat) (b : Byte) : (s.fragWrite k b).copied = s.copied := rfl
@[simp] theorem fragWrite_outbuf (s : State) (k : Nat) (b : Byte) : (s.fragWrite k b).outbuf = s.outbuf := rfl
@[simp] theorem fragWrite_remaining (s : State) (k : Nat) (b : Byte) : (s.fragWrite k b).remaining = s.remaining := rfl
@[simp] theorem fragWrite_w (s : State) (k : Nat) (b : Byte) : (s.fragWrite k b).w = s.w := rfl
@[simp] theorem fragWrite_fsize (s : State) (k : Nat) (b : Byte) : (s.fragWrite k b).fsize = s.fsize := rfl
@[simp] theorem fragWrite_cnt (s : State) (k : Nat) (b : Byte) : (s.fragWrite k b).cnt = s.cnt := rfl
@[simp] theorem fragWrite_frag (s : State) (k : Nat) (b : Byte) : (s.fragWrite k b).frag = if k < FRAG_MAX then s.frag.write 0 k b else s.frag := rfl
@[simp] theorem fragWrite_tgt (s : State) (k : Nat) (b : Byte) : (s.fragWrite k b).tgt = s.tgt := rfl
@[simp] theorem fragWrite_short (s : State) (k : Nat) (b : Byte) : (s.fragWrite k b).short = s.short := rfl
@[simp] theorem fragWrite_dist (s : State) (k : Nat) (b : Byte) : (s.fragWrite k b).dist = s.dist := rfl
@[simp] theorem fragWrite_outByte (s : State) (k : Nat) (b : Byte) : (s.fragWrite k b).outByte = s.outByte := rfl
@[simp] theorem fragWrite_padbits (s : State) (k : Nat) (b : Byte) : (s.fragWrite k b).padbits = s.padbits := rfl
@[simp] theorem fragWrite_src (s : State) (k : Nat) (b : Byte) : (s.fragWrite k b).src = s.src := rfl
@[simp] theorem fragWrite_spos (s : State) (k : Nat) (b : Byte) : (s.fragWrite k b).spos = s.spos := rfl
@[simp] theorem fragWrite_inputs (s : State) (k : Nat) (b : Byte) : (s.fragWrite k b).inputs = s.inputs := rfl
@[simp] theorem fragWrite_resp (s : State) (k : Nat) (b : Byte) : (s.fragWrite k b).resp = s.resp := rfl
@[simp] theorem fragWrite_draws (s : State) (k : Nat) (b : Byte) : (s.fragWrite k b).draws = s.draws := rfl

/-! ### loadByte -/

@[simp] theorem loadByte_inited (b : Byte) (s : State) : (loadByte b s).inited = s.inited := rfl
@[simp] theorem loadByte_faulted (b : Byte) (s : State) : (loadByte b s).faulted = s.faulted := rfl
@[simp] theorem loadByte_compressed (b : Byte) (s : State) : (loadByte b s).compressed = s.compressed := rfl
@[simp] theorem loadByte_eof (b : Byte) (s : State) : (loadByte b s).eof = s.eof := rfl
@[simp] theorem loadByte_shortFill (b : Byte) (s : State) : (loadByte b s).shortFill = s.shortFill := rfl
@[simp] theorem loadByte_err (b : Byte) (s : State) : (loadByte b s).err = s.err := rfl
@[simp] theorem loadByte_data (b : Byte) (s : State) : (loadByte b s).data = s.data := rfl
@[simp] theorem loadByte_outlen (b : Byte) (s : State) : (loadByte b s).outlen = s.outlen := rfl
@[simp] theorem loadByte_bitbuf (b : Byte) (s : State) : (loadByte b s).bitbuf = s.bitbuf ||| (b.setWidth 16 <<< (8 - s.bitcnt.toNat)) := rfl
@[simp] theorem loadByte_bitcnt (b : Byte) (s : State) : (loadByte b s).bitcnt = s.bitcnt + 8 := rfl
@[simp] theorem loadByte_tree (b : Byte) (s : State) : (loadByte b s).tree = s.tree := rfl
@[simp] theorem loadByte_win (b : Byte) (s : State) : (loadByte b s).win = s.win := rfl
@[simp] theorem loadByte_r (b : Byte) (s : State) : (loadByte b s).r = s.r := rfl
@[simp] theorem loadByte_mstate (b : Byte) (s : State) : (loadByte b s).mstate = s.mstate := rfl
@[simp] theorem loadByte_msrc (b : Byte) (s : State) : (loadByte b s).msrc = s.msrc := rfl
@[simp] theorem loadByte_mlen (b : Byte) (s : State) : (loadByte b s).mlen = s.mlen := rfl
@[simp] theorem loadByte_copied (b : Byte) (s : State) : (loadByte b s).copied = s.copied := rfl
@[simp] theorem loadByte_outbuf (b : Byte) (s : State) : (loadByte b s).outbuf = s.outbuf := rfl
@[simp] theorem loadByte_remaining (b : Byte) (s : State) : (loadByte b s).remaining = s.remaining := rfl
@[simp] theorem loadByte_w (b : Byte) (s : State) : (loadByte b s).w = s.w := rfl
@[simp] theorem loadByte_fsize (b : Byte) (s : State) : (loadByte b s).fsize = s.fsize := rfl
@[simp] theorem loadByte_cnt (b : Byte) (s : State) : (loadByte b s).cnt = s.cnt := rfl
@[simp] theorem loadByte_frag (b : Byte) (s : State) : (loadByte b s).frag = s.frag := rfl
@[simp] theorem loadByte_tgt (b : Byte) (s : State) : (loadByte b s).tgt = s.tgt := rfl
@[simp] theorem loadByte_short (b : Byte) (s : State) : (loadByte b s).short = s.short := rfl
@[simp] theorem loadByte_dist (b : Byte) (s : State) : (loadByte b s).dist = s.dist := rfl
@[simp] theorem loadByte_outByte (b : Byte) (s : State) : (loadByte b s).outByte = s.outByte := rfl
@[simp] theorem loadByte_padbits (b : Byte) (s : State) : (loadByte b s).padbits = s.padbits := rfl
@[simp] theorem loadByte_src (b : Byte) (s : State) : (loadByte b s).src = s.src := rfl
@[simp] theorem loadByte_spos (b : Byte) (s : State) : (loadByte b s).spos = s.spos := rfl
@[simp] theorem loadByte_inputs (b : Byte) (s : State) : (loadByte b s).inputs = s.inputs := rfl
@[simp] theorem loadByte_resp (b : Byte) (s : State) : (loadByte b s).resp = s.resp := rfl
@[simp] theorem loadByte_draws (b : Byte) (s : State) : (loadByte b s).draws = s.draws := rfl

/-! ### pushLiteral -/

@[simp] theorem pushLiteral_inited (b : Byte) (s : State) : (pushLiteral b s).inited = s.inited := rfl
@[simp] theorem pushLiteral_faulted (b : Byte) (s : State) : (pushLiteral b s).faulted = s.faulted := rfl
@[simp] theorem pushLiteral_compressed (b : Byte) (s : State) : (pushLiteral b s).compressed = s.compressed := rfl
@[simp] theorem pushLiteral_eof (b : Byte) (s : State) : (pushLiteral b s).eof = s.eof := rfl
@[simp] theorem pushLiteral_shortFill (b : Byte) (s : State) : (pushLiteral b s).shortFill = s.shortFill := rfl
@[simp] theorem pushLiteral_err (b : Byte) (s : State) : (pushLiteral b s).err = s.err := rfl
@[simp] theorem pushLiteral_data (b : Byte) (s : State) : (pushLiteral b s).data = s.data := rfl
@[simp] theorem pushLiteral_outlen (b : Byte) (s : State) : (pushLiteral b s).outlen = s.outlen := rfl
@[simp] theorem pushLiteral_bitbuf (b : Byte) (s : State) : (pushLiteral b s).bitbuf = s.bitbuf := rfl
@[simp] theorem pushLiteral_bitcnt (b : Byte) (s : State) : (pushLiteral b s).bitcnt = s.bitcnt := rfl
@[simp] theorem pushLiteral_tree (b : Byte) (s : State) : (pushLiteral b s).tree = s.tree := rfl
@[simp] theorem pushLiteral_win (b : Byte) (s : State) : (pushLiteral b s).win = s.win.write FILL s.r.toNat b := rfl
@[simp] theorem pushLiteral_r (b : Byte) (s : State) : (pushLiteral b s).r = s.r + 1 := rfl
@[simp] theorem pushLiteral_mstate (b : Byte) (s : State) : (pushLiteral b s).mstate = s.mstate := rfl
@[simp] theorem pushLiteral_msrc (b : Byte) (s : State) : (pushLiteral b s).msrc = s.msrc := rfl
@[simp] theorem pushLiteral_mlen (b : Byte) (s : State) : (pushLiteral b s).mlen = s.mlen := rfl
@[simp] theorem pushLiteral_copied (b : Byte) (s : State) : (pushLiteral b s).copied = s.copied := rfl
@[simp] theorem pushLiteral_outbuf (b : Byte) (s : State) : (pushLiteral b s).outbuf = s.outbuf := rfl
@[simp] theorem pushLiteral_remaining (b : Byte) (s : State) : (pushLiteral b s).remaining = s.remaining := rfl
@[simp] theorem pushLiteral_w (b : Byte) (s : State) : (pushLiteral b s).w = s.w := rfl
@[simp] theorem pushLiteral_fsize (b : Byte) (s : State) : (pushLiteral b s).fsize = s.fsize := rfl
@[simp] theorem pushLiteral_cnt (b : Byte) (s : State) : (pushLiteral b s).cnt = s.cnt := rfl
@[simp] theorem pushLiteral_frag (b : Byte) (s : State) : (pushLiteral b s).frag = s.frag := rfl
@[simp] theorem pushLiteral_tgt (b : Byte) (s : State) : (pushLiteral b s).tgt = s.tgt := rfl
@[simp] theorem pushLiteral_short (b : Byte) (s : State) : (pushLiteral b s).short = s.short := rfl
@[simp] theorem pushLiteral_dist (b : Byte) (s : State) : (pushLiteral b s).dist = s.dist := rfl
@[simp] theorem pushLiteral_outByte (b : Byte) (s : State) : (pushLiteral b s).outByte = b := rfl
@[simp] theorem pushLiteral_padbits (b : Byte) (s : State) : (pushLiteral b s).padbits = s.padbits := rfl
@[simp] theorem pushLiteral_src (b : Byte) (s : State) : (pushLiteral b s).src = s.src := rfl
@[simp] theorem pushLiteral_spos (b : Byte) (s : State) : (pushLiteral b s).spos = s.spos := rfl
@[simp] theorem pushLiteral_inputs (b : Byte) (s : State) : (pushLiteral b s).inputs = s.inputs := rfl
@[simp] theorem pushLiteral_resp (b : Byte) (s : State) : (pushLiteral b s).resp = s.resp := rfl
@[simp] theorem pushLiteral_draws (b : Byte) (s : State) : (pushLiteral b s).draws = s.draws := rfl

/-! ### copyStep -/

@[simp] theorem copyStep_inited (s : State) : (copyStep s).inited = s.inited := rfl
@[simp] theorem copyStep_faulted (s : State) : (copyStep s).faulted = s.faulted := rfl
@[simp] theorem copyStep_compressed (s : State) : (copyStep s).compressed = s.compressed := rfl
@[simp] theorem copyStep_eof (s : State) : (copyStep s).eof = s.eof := rfl
@[simp] theorem copyStep_shortFill (s : State) : (copyStep s).shortFill = s.shortFill := rfl
@[simp] theorem copyStep_err (s : State) : (copyStep s).err = s.err := rfl
@[simp] theorem copyStep_data (s : State) : (copyStep s).data = s.data := rfl
@[simp] theorem copyStep_outlen (s : State) : (copyStep s).outlen = s.outlen := rfl
@[simp] theorem copyStep_bitbuf (s : State) : (copyStep s).bitbuf = s.bitbuf := rfl
@[simp] theorem copyStep_bitcnt (s : State) : (copyStep s).bitcnt = s.bitcnt := rfl
@[simp] theorem copyStep_tree (s : State) : (copyStep s).tree = s.tree := rfl
@[simp] theorem copyStep_win (s : State) : (copyStep s).win = s.win.write FILL s.r.toNat (s.winRead (copyIndex s).toNat) := rfl
@[simp] theorem copyStep_r (s : State) : (copyStep s).r = s.r + 1 := rfl
@[simp] theorem copyStep_mstate (s : State) : (copyStep s).mstate = s.mstate := rfl
@[simp] theorem copyStep_msrc (s : State) : (copyStep s).msrc = s.msrc := rfl
@[simp] theorem copyStep_mlen (s : State) : (copyStep s).mlen = s.mlen := rfl
@[simp] theorem copyStep_copied (s : State) : (copyStep s).copied = s.copied + 1 := rfl
@[simp] theorem copyStep_outbuf (s : State) : (copyStep s).outbuf = s.outbuf := rfl
@[simp] theorem copyStep_remaining (s : State) : (copyStep s).remaining = s.remaining := rfl
@[simp] theorem copyStep_w (s : State) : (copyStep s).w = s.w := rfl
@[simp] theorem copyStep_fsize (s : State) : (copyStep s).fsize = s.fsize := rfl
@[simp] theorem copyStep_cnt (s : State) : (copyStep s).cnt = s.cnt := rfl
@[simp] theorem copyStep_frag (s : State) : (copyStep s).frag = s.frag := rfl
@[simp] theorem copyStep_tgt (s : State) : (copyStep s).tgt = s.tgt := rfl
@[simp] theorem copyStep_short (s : State) : (copyStep s).short = s.short := rfl
@[simp] theorem copyStep_dist (s : State) : (copyStep s).dist = s.dist := rfl
@[simp] theorem copyStep_outByte (s : State) : (copyStep s).outByte = s.winRead (copyIndex s).toNat := rfl
@[simp] theorem copyStep_padbits (s : State) : (copyStep s).padbits = s.padbits := rfl
@[simp] theorem copyStep_src (s : State) : (copyStep s).src = s.src := rfl
@[simp] theorem copyStep_spos (s : State) : (copyStep s).spos = s.spos := rfl
@[simp] theorem copyStep_inputs (s : State) : (copyStep s).inputs = s.inputs := rfl
@[simp] theorem copyStep_resp (s : State) : (copyStep s).resp = s.resp := rfl
@[simp] theorem copyStep_draws (s : State) : (copyStep s).draws = s.draws := rfl

end Sys2Proof.Laws
end

