-- ==== Sys2Proof/Laws/Frames.lean ====
section
/-! SUPPORT. The frame relations are reflexive and transitive. -/

namespace Sys2Proof.Laws

open Sys2Proof.Machine Sys2Proof.Safety

theorem onlyBits_refl (s : State) : OnlyBits s s := rfl

theorem onlyBits_trans {s t u : State} (h : OnlyBits s t) (h' : OnlyBits t u) : OnlyBits s u := by
  unfold OnlyBits at *
  rw [h'] at *
  rw [h]

theorem onlyDatapath_refl (s : State) : OnlyDatapath s s := rfl

theorem onlyDatapath_trans {s t u : State} (h : OnlyDatapath s t) (h' : OnlyDatapath t u) : OnlyDatapath s u := by
  unfold OnlyDatapath at *
  rw [h'] at *
  rw [h]

theorem onlyDatapath_of_onlyBits {s t : State} (h : OnlyBits s t) : OnlyDatapath s t := by
  unfold OnlyBits at h
  unfold OnlyDatapath
  rw [h]

theorem sameDatapath_refl (s : State) : SameDatapath s s := ⟨rfl, rfl, rfl, rfl, rfl, rfl, rfl, rfl, rfl, rfl, rfl, rfl, rfl⟩

theorem sameDatapath_trans {s t u : State} (h : SameDatapath s t) (h' : SameDatapath t u) : SameDatapath s u := by
  unfold SameDatapath at *
  simp only [h', h, and_self]

theorem onlyPayload_refl (s : State) : OnlyPayload s s := rfl

theorem onlyPayload_trans {s t u : State} (h : OnlyPayload s t) (h' : OnlyPayload t u) : OnlyPayload s u := by
  unfold OnlyPayload at *
  rw [h'] at *
  rw [h]

theorem onlyPayload_of_onlyDatapath {s t : State} (h : OnlyDatapath s t) : OnlyPayload s t := by
  unfold OnlyDatapath at h
  unfold OnlyPayload
  rw [h]

end Sys2Proof.Laws
end

