-- ==== Sys2Proof/Laws/BitStream.lean ====
section
/-! SUPPORT. What the BitStream primitives can do. -/

namespace Sys2Proof.Laws

open Sys2Proof.Config Sys2Proof.Machine Sys2Proof.Safety

/-- Everything `RawByte` can do (R111). -/
theorem rawByte_cases (s : State) :
    (∃ b, s.eof = false ∧ s.src[s.spos]? = some b ∧ rawByte s = (some b, { s with spos := s.spos + 1 })) ∨
    (s.eof = true ∧ rawByte s = (none, s)) ∨
    (s.eof = false ∧ s.src[s.spos]? = none ∧ rawByte s = (none, { s with eof := true })) := by
  unfold rawByte srcRead
  cases he : s.eof
  · cases hs : s.src[s.spos]? with
    | none => exact .inr (.inr ⟨rfl, rfl, by simp⟩)
    | some b => exact .inl ⟨b, rfl, rfl, by simp⟩
  · exact .inr (.inl ⟨rfl, by simp⟩)

theorem rawByte_onlyBits (s : State) : OnlyBits s (rawByte s).2 := by
  rcases rawByte_cases s with ⟨b, -, -, h⟩ | ⟨-, h⟩ | ⟨-, -, h⟩ <;> rw [h] <;> rfl

theorem refillOnce_onlyBits (s : State) : OnlyBits s (refillOnce s) := by
  unfold refillOnce
  rcases rawByte_cases s with ⟨b, -, -, h⟩ | ⟨-, h⟩ | ⟨-, -, h⟩ <;> rw [h] <;> rfl

/-- Loading a byte adds 8 to the bit count, whether it is real or the sentinel. -/
theorem refillOnce_bitcnt (s : State) : (refillOnce s).bitcnt = s.bitcnt + 8 := by
  unfold refillOnce
  rcases rawByte_cases s with ⟨b, -, -, h⟩ | ⟨-, h⟩ | ⟨-, -, h⟩ <;> rw [h] <;> rfl

theorem refillLoop_onlyBits (n : Nat) (s : State) : OnlyBits s (refillLoop n s) := by
  induction n generalizing s with
  | zero => exact onlyBits_refl s
  | succ n ih =>
    unfold refillLoop
    split
    · exact onlyBits_trans (refillOnce_onlyBits s) (ih _)
    · exact onlyBits_refl s

theorem refill_onlyBits (s : State) : OnlyBits s (refill s) := refillLoop_onlyBits 2 s

theorem nextBit_onlyBits (s : State) : OnlyBits s (nextBit s).2 :=
  onlyBits_trans (refill_onlyBits s) rfl

theorem nextBits8_onlyBits (s : State) : OnlyBits s (nextBits8 s).2 :=
  onlyBits_trans (refill_onlyBits s) rfl

theorem foldBits_onlyBits (n v : Nat) (s : State) : OnlyBits s (foldBits n v s).2 := by
  induction n generalizing v s with
  | zero => exact onlyBits_refl s
  | succ n ih => exact onlyBits_trans (nextBit_onlyBits s) (ih _ _)

end Sys2Proof.Laws
end

