-- ==== Sys2Proof/Laws/Huffman.lean ====
section
/-! SUPPORT. The tree arrays, the tree HufInit builds, and what DecodeSymbol can do. -/

namespace Sys2Proof.Laws

open Sys2Proof.Config Sys2Proof.Machine Sys2Proof.Safety

/-! ### Reading back a write -/

theorem freqAt_setFreq (t : Tree) (i v j : Nat) :
    (t.setFreq i v).freqAt j = if i = j ∧ i < 628 then v % 65536 else t.freqAt j := by
  unfold Tree.freqAt Tree.setFreq
  simp only [Vector.getElem?_setIfInBounds]
  split_ifs <;> (simp_all; try omega)

theorem sonAt_setSon (t : Tree) (i v j : Nat) :
    (t.setSon i v).sonAt j = if i = j ∧ i < 627 then v % 1024 else t.sonAt j := by
  unfold Tree.sonAt Tree.setSon
  simp only [Vector.getElem?_setIfInBounds]
  split_ifs <;> (simp_all; try omega)

theorem parentAt_setParent (t : Tree) (i v j : Nat) :
    (t.setParent i v).parentAt j = if i = j ∧ i < 941 then v % 1024 else t.parentAt j := by
  unfold Tree.parentAt Tree.setParent
  simp only [Vector.getElem?_setIfInBounds]
  split_ifs <;> (simp_all; try omega)

@[simp] theorem sonAt_setFreq (t : Tree) (i v j : Nat) : (t.setFreq i v).sonAt j = t.sonAt j := rfl
@[simp] theorem parentAt_setFreq (t : Tree) (i v j : Nat) : (t.setFreq i v).parentAt j = t.parentAt j := rfl
@[simp] theorem freqAt_setSon (t : Tree) (i v j : Nat) : (t.setSon i v).freqAt j = t.freqAt j := rfl
@[simp] theorem parentAt_setSon (t : Tree) (i v j : Nat) : (t.setSon i v).parentAt j = t.parentAt j := rfl
@[simp] theorem freqAt_setParent (t : Tree) (i v j : Nat) : (t.setParent i v).freqAt j = t.freqAt j := rfl
@[simp] theorem sonAt_setParent (t : Tree) (i v j : Nat) : (t.setParent i v).sonAt j = t.sonAt j := rfl

@[simp] theorem freqAt_linkTo (t : Tree) (i p j : Nat) : (t.linkTo i p).freqAt j = t.freqAt j := by
  unfold Tree.linkTo; split <;> rfl

@[simp] theorem sonAt_linkTo (t : Tree) (i p j : Nat) : (t.linkTo i p).sonAt j = t.sonAt j := by
  unfold Tree.linkTo; split <;> rfl

/-! ### The tree HufInit builds -/

theorem arrayOf_get {α : Type} (n : Nat) (f : Nat → α) {i : Nat} (h : i < n) : (arrayOf n f)[i]? = some (f i) := by
  rw [Vector.getElem?_eq_getElem h]
  simp [arrayOf]

theorem hufInit_freqAt {j : Nat} (h : j < TSIZE) : hufInit.freqAt j = initFreq 10 j % 65536 := by
  have h' : j < 628 := by simp only [TSIZE] at h; omega
  unfold Tree.freqAt hufInit
  simp only [arrayOf_get _ _ h']
  simp [show j ≠ 627 by simp only [TSIZE] at h; omega]

theorem hufInit_sentinel : hufInit.freqAt TSIZE = FREQ_SENTINEL := by
  unfold Tree.freqAt hufInit
  simp only [arrayOf_get _ _ (show TSIZE < 628 by decide)]
  rfl

theorem hufInit_sonAt {j : Nat} (h : j < TSIZE) :
    hufInit.sonAt j = if j < N_CHAR then j + TSIZE else 2 * (j - N_CHAR) := by
  have h' : j < 627 := h
  unfold Tree.sonAt hufInit
  simp only [arrayOf_get _ _ h']
  simp only [Option.getD_some, BitVec.toNat_ofNat]
  split <;> simp only [N_CHAR, TSIZE] at * <;> omega

theorem hufInit_parentAt {x : Nat} (h : x < 941) :
    hufInit.parentAt x = if x < ROOT then N_CHAR + x / 2 else if x = ROOT then 0 else x - TSIZE := by
  unfold Tree.parentAt hufInit
  simp only [arrayOf_get _ _ h]
  simp only [Option.getD_some, BitVec.toNat_ofNat]
  split
  · simp only [N_CHAR, ROOT] at *; omega
  · split
    · rfl
    · simp only [TSIZE, ROOT] at *; omega

/-- The weights of the initial tree, slot by slot: sums below, sorted, positive. -/
theorem initFreq_facts :
    (∀ c, c < 626 → initFreq 10 c ≤ initFreq 10 (c + 1)) ∧
    (∀ c, c < 627 → 1 ≤ initFreq 10 c ∧ initFreq 10 c ≤ 314) ∧
    (∀ c, c < 627 → 314 ≤ c → initFreq 10 c = initFreq 10 (2 * (c - 314)) + initFreq 10 (2 * (c - 314) + 1)) ∧
    initFreq 10 626 = 314 := by
  refine ⟨?_, ?_, ?_, ?_⟩ <;> decide +kernel

/-- Symbol `sym` sits in slot `sym` (R131). -/
theorem hufInit_leafSlot {sym : Nat} (h : sym < N_CHAR) : hufInit.parentAt (TSIZE + sym) = sym := by
  have hs : sym < 314 := h
  rw [hufInit_parentAt (show 627 + sym < 941 by omega)]
  simp only [ROOT, N_CHAR, TSIZE]
  split_ifs <;> omega

theorem hufInit_leafFreq {sym : Nat} (h : sym < N_CHAR) : leafFreq hufInit sym = 1 := by
  have hs : sym < 314 := h
  have hp : hufInit.parentAt (TSIZE + sym) = sym := hufInit_leafSlot h
  have hf : initFreq 10 sym = 1 := by simp [initFreq, hs]
  unfold leafFreq
  rw [hp, hufInit_freqAt (show sym < 627 by omega), hf]

theorem hufInit_leafSum (n : Nat) (h : n ≤ N_CHAR) : leafSum hufInit n = n := by
  induction n with
  | zero => rfl
  | succ n ih => rw [leafSum, ih (by omega), hufInit_leafFreq (by omega)]

/-- The tree HufInit builds meets every invariant of R137. -/
theorem hufInit_treeInv : TreeInv hufInit where
  sentinel := hufInit_sentinel
  sorted c hc := by
    obtain ⟨hs, hb, -, -⟩ := initFreq_facts
    have h0 : c < 626 := hc
    rw [hufInit_freqAt (show c < 627 by omega), hufInit_freqAt (show c + 1 < 627 by omega)]
    have := hs c h0
    have := hb c (by omega)
    have := hb (c + 1) (by omega)
    omega
  node c hc hi := by
    obtain ⟨-, hb, hn, -⟩ := initFreq_facts
    have h0 : c < 627 := hc
    rw [hufInit_sonAt hc] at hi ⊢
    by_cases hl : c < 314
    · rw [if_pos hl] at hi; simp only [TSIZE] at hi; omega
    · rw [if_neg hl]
      simp only [N_CHAR, TSIZE]
      refine ⟨by omega, by omega, ?_⟩
      rw [hufInit_freqAt (show c < 627 by omega), hufInit_freqAt (show 2 * (c - 314) < 627 by omega),
        hufInit_freqAt (show 2 * (c - 314) + 1 < 627 by omega)]
      have := hn c h0 (by omega)
      have := hb c h0
      omega
  leaf_value c hc hl := by
    have h0 : c < 627 := hc
    rw [hufInit_sonAt hc] at hl ⊢
    simp only [N_CHAR, TSIZE] at hl ⊢
    split_ifs at hl ⊢ <;> omega
  leaf_slot sym hs := by
    have h0 : sym < 314 := hs
    rw [hufInit_leafSlot hs, hufInit_sonAt (show sym < 627 by omega), if_pos hs]
    simp only [TSIZE]
    omega
  leaf_unique c sym hc hs h := by
    have h0 : c < 627 := hc
    have h1 : sym < 314 := hs
    rw [hufInit_sonAt hc] at h
    rw [hufInit_leafSlot hs]
    simp only [N_CHAR, TSIZE] at h
    split at h <;> omega
  link x hx := by
    have h0 : x < 626 := hx
    rw [hufInit_parentAt (show x < 941 by omega), if_pos hx]
    refine ⟨by simp only [N_CHAR, TSIZE]; omega, ?_⟩
    rw [hufInit_sonAt (show N_CHAR + x / 2 < 627 by simp only [N_CHAR]; omega), if_neg (by omega)]
    simp only [N_CHAR]
    omega
  root_parent := by rw [hufInit_parentAt (show ROOT < 941 by decide)]; rfl
  positive c hc := by
    have := initFreq_facts.2.1 c hc
    rw [hufInit_freqAt hc]
    omega
  root_sum := by
    rw [hufInit_leafSum _ (le_refl _), hufInit_freqAt (show ROOT < 627 by decide), initFreq_facts.2.2.2]
  root_le := by rw [hufInit_freqAt (show ROOT < 627 by decide), initFreq_facts.2.2.2]; decide
  slot_zero := by rw [hufInit_sonAt (by decide)]; decide

/-! ### DecodeSymbol -/

/-- The walk only reads bits (R132): it answers a value, or is too long for a tree. -/
theorem walk_cases (n c : Nat) (s : State) :
    ∃ t, OnlyBits s t ∧ ((∃ v, walk n c s = .ok v t) ∨ walk n c s = .raise .treeInvariantViolation t) := by
  induction n generalizing c s with
  | zero =>
    unfold walk
    split
    · exact ⟨s, onlyBits_refl s, .inr rfl⟩
    · exact ⟨s, onlyBits_refl s, .inl ⟨c, rfl⟩⟩
  | succ n ih =>
    unfold walk
    split
    · obtain ⟨t, ht, h⟩ := ih ((nextBit s).2.tree.sonAt (c + (nextBit s).1.toNat)) (nextBit s).2
      exact ⟨t, onlyBits_trans (nextBit_onlyBits s) ht, h⟩
    · exact ⟨s, onlyBits_refl s, .inl ⟨c, rfl⟩⟩

/-- Everything `DecodeSymbol` can do (R132): it answers a symbol of 0..313 or raises TreeInvariantViolation, and changes
only the bit reader's registers and the tree. -/
theorem decodeSymbol_cases (s : State) :
    (∃ sym t, decodeSymbol s = .ok sym t ∧ sym < N_CHAR ∧ OnlyDatapath s t) ∨
    (∃ t, decodeSymbol s = .raise .treeInvariantViolation t ∧ OnlyDatapath s t) := by
  unfold decodeSymbol
  obtain ⟨t, ht, ⟨c, hw⟩ | hw⟩ := walk_cases TSIZE (s.tree.sonAt ROOT) s
  · rw [hw]
    simp only [Res.bind]
    split
    · rename_i hc
      unfold countSymbol
      cases update t.tree (c - TSIZE) with
      | ok u => exact .inl ⟨_, _, rfl, hc, onlyDatapath_trans (onlyDatapath_of_onlyBits ht) rfl⟩
      | breach u => exact .inr ⟨_, rfl, onlyDatapath_trans (onlyDatapath_of_onlyBits ht) rfl⟩
    · exact .inr ⟨t, rfl, onlyDatapath_of_onlyBits ht⟩
  · rw [hw]
    exact .inr ⟨t, rfl, onlyDatapath_of_onlyBits ht⟩

end Sys2Proof.Laws
end

