-- ==== Sys2Proof/Laws/Memory.lean ====
section
/-! SUPPORT. Byte memories: reading back, the canonical form, and that every memory operation keeps it. -/

namespace Sys2Proof.Laws

open Sys2Proof.Config Sys2Proof.Machine

variable {fill : Byte}

@[simp] theorem read_nil (a : Nat) : Memory.read fill [] a = fill := rfl

theorem wf_nil : Memory.wf fill [] := by simp [Memory.wf]

theorem below_nil (n : Nat) : Memory.below n [] := by simp [Memory.below]

theorem wf_cons {c : Host.Cell} {m : Memory} :
    Memory.wf fill (c :: m) ↔ (∀ d ∈ m, c.1 < d.1) ∧ c.2 ≠ fill ∧ Memory.wf fill m := by
  simp only [Memory.wf, List.pairwise_cons, List.forall_mem_cons]
  tauto

/-- An address below every listed one reads as unlisted. -/
theorem read_of_lt {m : Memory} {a : Nat} (h : ∀ d ∈ m, a < d.1) : Memory.read fill m a = fill := by
  induction m with
  | nil => rfl
  | cons c m ih =>
    obtain ⟨x, v⟩ := c
    have hx : a < x := h (x, v) (by simp)
    simp only [Memory.read, if_neg (show ¬ x = a by omega)]
    exact ih fun d hd => h d (by simp [hd])

/-- What a write can list: the entries it had, and the one written. -/
theorem mem_write {m : Memory} {a : Nat} {b : Byte} {c : Host.Cell} (h : c ∈ Memory.write fill m a b) :
    c = (a, b) ∨ c ∈ m := by
  induction m with
  | nil =>
    simp only [Memory.write] at h
    split at h <;> simp_all
  | cons d m ih =>
    obtain ⟨x, v⟩ := d
    simp only [Memory.write] at h
    split at h
    · split at h
      · exact .inr h
      · simpa using h
    · split at h
      · split at h
        · exact .inr (by simp [h])
        · rcases List.mem_cons.mp h with h | h
          · exact .inl h
          · exact .inr (by simp [h])
      · rcases List.mem_cons.mp h with h | h
        · exact .inr (by simp [h])
        · rcases ih h with h | h
          · exact .inl h
          · exact .inr (by simp [h])

/-- A write keeps the canonical form. -/
theorem write_wf {m : Memory} (a : Nat) (b : Byte) (h : Memory.wf fill m) :
    Memory.wf fill (Memory.write fill m a b) := by
  induction m with
  | nil =>
    simp only [Memory.write]
    split
    · exact wf_nil
    · rename_i hb; exact wf_cons.mpr ⟨by simp, hb, wf_nil⟩
  | cons d m ih =>
    obtain ⟨x, v⟩ := d
    obtain ⟨hlt, hv, hm⟩ := wf_cons.mp h
    simp only [Memory.write]
    split
    · rename_i hax
      split
      · exact h
      · rename_i hb
        refine wf_cons.mpr ⟨fun d hd => ?_, hb, h⟩
        rcases List.mem_cons.mp hd with rfl | hd
        · exact hax
        · exact lt_trans hax (hlt d hd)
    · split
      · rename_i hax
        subst hax
        split
        · exact hm
        · rename_i hb; exact wf_cons.mpr ⟨hlt, hb, hm⟩
      · rename_i h1 h2
        refine wf_cons.mpr ⟨fun d hd => ?_, hv, ih hm⟩
        rcases mem_write hd with rfl | hd
        · exact (show x < a by omega)
        · exact hlt d hd

/-- A write below `n` keeps every listed address below `n`. -/
theorem write_below {m : Memory} {n a : Nat} (b : Byte) (ha : a < n) (h : Memory.below n m) :
    Memory.below n (Memory.write fill m a b) := by
  intro c hc
  rcases mem_write hc with rfl | hc
  · exact ha
  · exact h c hc

/-- Reading after a write: the written byte at its address, every other address as before. -/
theorem read_write {m : Memory} (a : Nat) (b : Byte) (c : Nat) (h : Memory.wf fill m) :
    Memory.read fill (Memory.write fill m a b) c = if a = c then b else Memory.read fill m c := by
  induction m with
  | nil =>
    simp only [Memory.write]
    by_cases hb : b = fill <;> by_cases hc : a = c <;> simp [Memory.read, hb, hc]
  | cons d m ih =>
    obtain ⟨x, v⟩ := d
    obtain ⟨hlt, hv, hm⟩ := wf_cons.mp h
    simp only [Memory.write]
    split
    · rename_i hax
      have hall : ∀ e ∈ (x, v) :: m, a < e.1 := by
        intro e he
        rcases List.mem_cons.mp he with rfl | he
        · exact hax
        · exact lt_trans hax (hlt e he)
      by_cases hb : b = fill
      · rw [if_pos hb]
        by_cases hc : a = c
        · subst hc; rw [if_pos rfl, hb]; exact read_of_lt hall
        · rw [if_neg hc]
      · rw [if_neg hb, Memory.read]
    · split
      · rename_i hax
        subst hax
        by_cases hb : b = fill
        · rw [if_pos hb]
          by_cases hc : a = c
          · subst hc; rw [if_pos rfl, hb]; exact read_of_lt hlt
          · rw [if_neg hc, Memory.read, if_neg hc]
        · rw [if_neg hb, Memory.read, Memory.read]
          by_cases hc : a = c <;> simp [hc]
      · rename_i h1 h2
        rw [Memory.read, Memory.read, ih hm]
        by_cases hx : x = c
        · rw [if_pos hx, if_pos hx, if_neg (show ¬ a = c by omega)]
        · rw [if_neg hx, if_neg hx]

/-- Clearing keeps the canonical form. -/
theorem clearBelow_wf {m : Memory} (n : Nat) (h : Memory.wf fill m) : Memory.wf fill (m.clearBelow n) :=
  ⟨h.1.filter _, fun c hc => h.2 c (List.mem_filter.mp hc).1⟩

/-- Clearing lists no new address. -/
theorem clearBelow_below {m : Memory} {k : Nat} (n : Nat) (h : Memory.below k m) : Memory.below k (m.clearBelow n) :=
  fun c hc => h c (List.mem_filter.mp hc).1

/-- Reading after a clear: unlisted below `n`, as before from `n` on. -/
theorem read_clearBelow (m : Memory) (n a : Nat) :
    Memory.read fill (m.clearBelow n) a = if a < n then fill else Memory.read fill m a := by
  induction m with
  | nil => simp [Memory.clearBelow]
  | cons d m ih =>
    obtain ⟨x, v⟩ := d
    unfold Memory.clearBelow at ih ⊢
    by_cases hx : n ≤ x
    · rw [List.filter_cons_of_pos (by simpa using hx), Memory.read, Memory.read, ih]
      by_cases hxa : x = a
      · rw [if_pos hxa, if_neg (show ¬ a < n by omega), if_pos hxa]
      · rw [if_neg hxa, if_neg hxa]
    · rw [List.filter_cons_of_neg (by simpa using hx), ih, Memory.read]
      by_cases hxa : x = a
      · rw [if_pos (show a < n by omega), if_pos (show a < n by omega)]
      · rw [if_neg hxa]

/-- Two canonical memories that read alike are equal. -/
theorem eq_of_read_eq : ∀ {m m' : Memory}, Memory.wf fill m → Memory.wf fill m' →
    (∀ a, Memory.read fill m a = Memory.read fill m' a) → m = m'
  | [], [], _, _, _ => rfl
  | [], (x, v) :: m', _, h', hr => by
    have := hr x
    rw [read_nil, Memory.read, if_pos rfl] at this
    exact absurd this.symm (wf_cons.mp h').2.1
  | (x, v) :: m, [], h, _, hr => by
    have := hr x
    rw [read_nil, Memory.read, if_pos rfl] at this
    exact absurd this (wf_cons.mp h).2.1
  | (x, v) :: m, (y, u) :: m', h, h', hr => by
    obtain ⟨hlt, hv, hm⟩ := wf_cons.mp h
    obtain ⟨hlt', hu, hm'⟩ := wf_cons.mp h'
    have hxy : x = y := by
      rcases Nat.lt_trichotomy x y with hl | he | hl
      · have := hr x
        rw [Memory.read, if_pos rfl, read_of_lt (m := (y, u) :: m') (a := x)
          (by intro e he; rcases List.mem_cons.mp he with rfl | he
              · exact hl
              · exact lt_trans hl (hlt' e he))] at this
        exact absurd this hv
      · exact he
      · have := hr y
        rw [read_of_lt (m := (x, v) :: m) (a := y)
          (by intro e he; rcases List.mem_cons.mp he with rfl | he
              · exact hl
              · exact lt_trans hl (hlt e he)), Memory.read, if_pos rfl] at this
        exact absurd this.symm hu
    subst hxy
    have hvu : v = u := by simpa [Memory.read] using hr x
    subst hvu
    have hrest : ∀ a, Memory.read fill m a = Memory.read fill m' a := by
      intro a
      by_cases ha : x = a
      · subst ha; rw [read_of_lt hlt, read_of_lt hlt']
      · simpa [Memory.read, ha] using hr a
    rw [eq_of_read_eq hm hm' hrest]

/-- Writing the byte an address already reads as changes nothing. -/
theorem write_read_self {m : Memory} (a : Nat) (h : Memory.wf fill m) :
    Memory.write fill m a (Memory.read fill m a) = m := by
  refine eq_of_read_eq (write_wf a _ h) h fun c => ?_
  rw [read_write _ _ _ h]
  by_cases hc : a = c <;> simp [hc]

/-- Power-on reset lists nothing in any memory. -/
theorem reset_memories_wf :
    State.reset.win.wf FILL ∧ State.reset.outbuf.wf 0 ∧ State.reset.frag.wf 0 :=
  ⟨wf_nil, wf_nil, wf_nil⟩

end Sys2Proof.Laws
end

