-- ==== Sys2Proof/Laws/Decompressor.lean ====
section
/-! SUPPORT. What the window and Decompressor primitives can do. -/

namespace Sys2Proof.Laws

open Sys2Proof.Config Sys2Proof.Machine Sys2Proof.Safety

/-! ### Window -/

theorem pushLiteral_onlyDatapath (b : Byte) (s : State) : OnlyDatapath s (pushLiteral b s) := rfl

theorem pushed_nil {s t : State} (hw : t.win = s.win) (hr : t.r = s.r) : Pushed [] s t where
  cursor := by rw [hr]; exact (Nat.mod_eq_of_lt s.r.isLt).symm
  stored j h := absurd h (Nat.not_lt_zero j)
  kept a _ := by unfold State.winRead; rw [hw]

theorem pushed_pushLiteral (b : Byte) {s : State} (h : s.win.wf FILL) : Pushed [b] s (pushLiteral b s) where
  cursor := by simp [pushLiteral, SBSIZE, BitVec.toNat_add]
  stored j hj _ := by
    obtain rfl : j = 0 := by simpa using hj
    have : s.r.toNat % SBSIZE = s.r.toNat := Nat.mod_eq_of_lt s.r.isLt
    simp [pushLiteral, State.winRead, read_write _ _ _ h, this]
  kept a ha := by
    have h0 : s.r.toNat ≠ a := by
      have := ha 0 (by simp)
      rwa [Nat.add_zero, Nat.mod_eq_of_lt s.r.isLt] at this
    simp [pushLiteral, State.winRead, read_write _ _ _ h, h0]

theorem copyStep_onlyDatapath (s : State) : OnlyDatapath s (copyStep s) := rfl

theorem positionFrom_onlyDatapath (i : BitVec 8) (s : State) : OnlyDatapath s (positionFrom i s) :=
  onlyDatapath_trans (onlyDatapath_of_onlyBits (foldBits_onlyBits (extra i) i.toNat s)) rfl

theorem decodePosition_onlyDatapath (s : State) : OnlyDatapath s (decodePosition s) :=
  onlyDatapath_trans (onlyDatapath_of_onlyBits (nextBits8_onlyBits s)) (positionFrom_onlyDatapath _ _)

/-- A distance has 12 bits and reading it leaves the window, the cursor and the match registers alone (R162). -/
theorem decodePosition_frame (s : State) :
    (decodePosition s).win = s.win ∧ (decodePosition s).r = s.r ∧ (decodePosition s).mlen = s.mlen ∧
    (decodePosition s).tree = s.tree := by
  have h8 := nextBits8_onlyBits s
  have hf := foldBits_onlyBits (extra (nextBits8 s).1) (nextBits8 s).1.toNat (nextBits8 s).2
  unfold OnlyBits at h8 hf
  unfold decodePosition positionFrom
  simp only
  rw [hf, h8]
  exact ⟨rfl, rfl, rfl, rfl⟩

theorem matchEntry_onlyDatapath (k : BitVec 8) (s : State) : OnlyDatapath s (matchEntry k s) := by
  have h := decodePosition_onlyDatapath { s with mlen := BitVec.ofNat 6 (matchLength k) }
  exact onlyDatapath_trans (onlyDatapath_trans (t := { s with mlen := BitVec.ofNat 6 (matchLength k) }) rfl h) rfl

theorem deliverSymbol_onlyDatapath (sym : Nat) (s : State) : OnlyDatapath s (deliverSymbol sym s) := by
  unfold deliverSymbol
  split
  · exact pushLiteral_onlyDatapath _ s
  · exact matchEntry_onlyDatapath _ s

/-! ### Byte requests -/

/-- Everything `DecNextByte` can do (R181): Eof with nothing changed, the next byte of the pending match, or a decoded
symbol delivered; or the tree is broken. -/
theorem decNextByte_cases (s : State) :
    (s.eofStops = true ∧ decNextByte s = .ok none s) ∨
    (s.eofStops = false ∧ s.copyPending = true ∧ decNextByte s = .ok (some (copyStep s).outByte) (copyStep s)) ∨
    (s.eofStops = false ∧ s.copyPending = false ∧ ∃ sym t, decodeSymbol { s with mstate := .idle } = .ok sym t ∧
      sym < N_CHAR ∧ decNextByte s = .ok (some (deliverSymbol sym t).outByte) (deliverSymbol sym t)) ∨
    (s.eofStops = false ∧ s.copyPending = false ∧ ∃ t, OnlyDatapath s t ∧
      decNextByte s = .raise .treeInvariantViolation t) := by
  unfold decNextByte
  cases he : s.eofStops with
  | true => exact .inl ⟨rfl, if_pos rfl⟩
  | false =>
    cases hc : s.copyPending with
    | true => exact .inr (.inl ⟨rfl, rfl, by simp⟩)
    | false =>
      rcases decodeSymbol_cases { s with mstate := .idle } with ⟨sym, t, h, hs, -⟩ | ⟨t, h, ht⟩
      · exact .inr (.inr (.inl ⟨rfl, rfl, sym, t, h, hs, by simp [h, Res.bind]⟩))
      · exact .inr (.inr (.inr ⟨rfl, rfl, t, onlyDatapath_trans (t := { s with mstate := .idle }) rfl ht,
          by simp [h, Res.bind]⟩))

theorem decNextByte_frame (s : State) :
    ∃ t, OnlyDatapath s t ∧ ((∃ b, decNextByte s = .ok b t) ∨ decNextByte s = .raise .treeInvariantViolation t) := by
  rcases decNextByte_cases s with ⟨-, h⟩ | ⟨-, -, h⟩ | ⟨-, -, sym, t, hd, -, h⟩ | ⟨-, -, t, ht, h⟩
  · exact ⟨s, onlyDatapath_refl s, .inl ⟨_, h⟩⟩
  · exact ⟨_, copyStep_onlyDatapath s, .inl ⟨_, h⟩⟩
  · refine ⟨_, ?_, .inl ⟨_, h⟩⟩
    rcases decodeSymbol_cases { s with mstate := .idle } with ⟨sym', t', h', -, ht⟩ | ⟨t', h', -⟩
    · rw [h'] at hd
      cases hd
      exact onlyDatapath_trans (onlyDatapath_trans (t := { s with mstate := .idle }) rfl ht)
        (deliverSymbol_onlyDatapath _ _)
    · rw [h'] at hd; cases hd
  · exact ⟨t, ht, .inr h⟩

/-- In raw mode a byte request is one `RawByte` (R180, R186). -/
theorem byteIn_raw {s : State} (h : s.compressed = false) : byteIn s = .ok (rawByte s).1 (rawByte s).2 := by
  simp [byteIn, h]

theorem byteIn_compressed {s : State} (h : s.compressed = true) : byteIn s = decNextByte s := by
  simp [byteIn, h]

/-- Everything `ByteIn` can change (R180). -/
theorem byteIn_frame (s : State) :
    ∃ t, OnlyDatapath s t ∧ ((∃ b, byteIn s = .ok b t) ∨ byteIn s = .raise .treeInvariantViolation t) := by
  cases h : s.compressed with
  | false => exact ⟨_, onlyDatapath_of_onlyBits (rawByte_onlyBits s), .inl ⟨_, byteIn_raw h⟩⟩
  | true => rw [byteIn_compressed h]; exact decNextByte_frame s

/-- Everything `Need` can do (R200). -/
theorem need_frame (s : State) :
    ∃ t, OnlyDatapath s t ∧ ((∃ b, need s = .ok b t) ∨ need s = .raise .streamExhausted t ∨
      need s = .raise .treeInvariantViolation t) := by
  obtain ⟨t, ht, ⟨b, h⟩ | h⟩ := byteIn_frame s
  · refine ⟨t, ht, ?_⟩
    unfold need
    rw [h]
    cases b with
    | none => exact .inr (.inl rfl)
    | some b => exact .inl ⟨b, rfl⟩
  · exact ⟨t, ht, .inr (.inr (by unfold need; rw [h]; rfl))⟩

/-- Everything `WordIn` can change (R187). -/
theorem wordIn_frame (s : State) :
    ∃ t, OnlyDatapath s t ∧ ((∃ v, wordIn s = .ok v t) ∨ wordIn s = .raise .treeInvariantViolation t) := by
  unfold wordIn
  obtain ⟨t, ht, ⟨lo, h⟩ | h⟩ := byteIn_frame s
  · rw [h]
    cases lo with
    | none => exact ⟨t, ht, .inl ⟨none, rfl⟩⟩
    | some lo =>
      simp only [Res.bind]
      obtain ⟨u, hu, ⟨hi, h'⟩ | h'⟩ := byteIn_frame t
      · rw [h']
        refine ⟨u, onlyDatapath_trans ht hu, .inl ?_⟩
        cases hi with
        | none => exact ⟨none, rfl⟩
        | some hi => exact ⟨_, rfl⟩
      · rw [h']; exact ⟨u, onlyDatapath_trans ht hu, .inr rfl⟩
  · rw [h]; exact ⟨t, ht, .inr rfl⟩

/-! ### Runs of byte requests -/

theorem requests_some {s s1 : State} {b : Byte} (n : Nat) (h : byteIn s = .ok (some b) s1) :
    requests (n + 1) s = (b :: (requests n s1).1, (requests n s1).2) := by
  simp [requests, h]

theorem requests_none {s s1 : State} (n : Nat) (h : byteIn s = .ok none s1) : requests (n + 1) s = ([], s1) := by
  simp [requests, h]

theorem requests_raise {s s1 : State} {e : Err} (n : Nat) (h : byteIn s = .raise e s1) :
    requests (n + 1) s = ([], s1) := by
  simp [requests, h]

end Sys2Proof.Laws
end

