-- ==== Sys2Proof/Laws/Payload.lean ====
section
/-! SUPPORT. What the payload methods can change. -/

namespace Sys2Proof.Laws

open Sys2Proof.Config Sys2Proof.Machine Sys2Proof.Safety

/-- A payload primitive from `s` ends in a state that differs only where a payload may, with a value or one of the two
errors a payload can raise while it runs (R263, R265). -/
def PayloadEnds {α : Type} (s : State) (x : Res α) : Prop :=
  ∃ t, OnlyPayload s t ∧ ((∃ a, x = .ok a t) ∨ x = .raise .streamExhausted t ∨ x = .raise .treeInvariantViolation t)

theorem payloadEnds_ok {α : Type} {s t : State} (a : α) (h : OnlyPayload s t) : PayloadEnds s (.ok a t) :=
  ⟨t, h, .inl ⟨a, rfl⟩⟩

/-- Steps may be taken before a payload primitive. -/
theorem payloadEnds_after {α : Type} {s t : State} {x : Res α} (h : OnlyPayload s t) (hx : PayloadEnds t x) :
    PayloadEnds s x := by
  obtain ⟨u, hu, hx⟩ := hx
  exact ⟨u, onlyPayload_trans h hu, hx⟩

theorem need_payloadEnds (s : State) : PayloadEnds s (need s) := by
  obtain ⟨t, ht, h⟩ := need_frame s
  exact ⟨t, onlyPayload_of_onlyDatapath ht, h⟩

/-- Primitives run one after the other. -/
theorem payloadEnds_bind {α β : Type} {s : State} {x : Res α} {f : α → State → Res β} (hx : PayloadEnds s x)
    (hf : ∀ a t, PayloadEnds t (f a t)) : PayloadEnds s (x.bind f) := by
  obtain ⟨t, ht, ⟨a, rfl⟩ | rfl | rfl⟩ := hx
  · exact payloadEnds_after ht (hf a t)
  · exact ⟨t, ht, .inr (.inl rfl)⟩
  · exact ⟨t, ht, .inr (.inr rfl)⟩

theorem copyThrough_payloadEnds (n : Nat) (s : State) : PayloadEnds s (copyThrough n s) := by
  induction n generalizing s with
  | zero => exact payloadEnds_ok () (onlyPayload_refl s)
  | succ n ih =>
    unfold copyThrough
    obtain ⟨t, ht, ⟨b, h⟩ | h | h⟩ := need_payloadEnds s <;> rw [h]
    · exact payloadEnds_after (onlyPayload_trans ht (u := emit b t) rfl) (ih _)
    · exact ⟨t, ht, .inr (.inl rfl)⟩
    · exact ⟨t, ht, .inr (.inr rfl)⟩

theorem readFragment_payloadEnds (n k : Nat) (s : State) : PayloadEnds s (readFragment n k s) := by
  induction n generalizing k s with
  | zero => exact payloadEnds_ok () (onlyPayload_refl s)
  | succ n ih =>
    unfold readFragment
    obtain ⟨t, ht, ⟨b, h⟩ | h | h⟩ := need_payloadEnds s <;> rw [h]
    · exact payloadEnds_after (onlyPayload_trans ht (u := t.fragWrite k b) rfl) (ih _ _)
    · exact ⟨t, ht, .inr (.inl rfl)⟩
    · exact ⟨t, ht, .inr (.inr rfl)⟩

theorem repeatPair_onlyPayload (b1 b2 : Byte) (n : Nat) (s : State) : OnlyPayload s (repeatPair b1 b2 n s) := by
  induction n generalizing s with
  | zero => exact onlyPayload_refl s
  | succ n ih =>
    have h1 : ∀ (b : Byte) (s : State), OnlyPayload s (if s.w.toNat < s.tgt.toNat then emit b s else s) := by
      intro b s; split <;> rfl
    have h2 := onlyPayload_trans (h1 b1 s) (h1 b2 (if s.w.toNat < s.tgt.toNat then emit b1 s else s))
    unfold repeatPair
    generalize (if s.w.toNat < s.tgt.toNat then emit b1 s else s) = s1 at h2 ⊢
    simp only
    generalize (if s1.w.toNat < s1.tgt.toNat then emit b2 s1 else s1) = s2 at h2 ⊢
    split
    · exact h2
    · exact onlyPayload_trans h2 (ih s2)

theorem emitFragment_onlyPayload (n k : Nat) (s : State) : OnlyPayload s (emitFragment n k s) := by
  induction n generalizing k s with
  | zero => exact onlyPayload_refl s
  | succ n ih => exact onlyPayload_trans (t := emit (s.fragRead k) s) rfl (ih _ _)

theorem repeatFragment_onlyPayload (n : Nat) (s : State) : OnlyPayload s (repeatFragment n s) := by
  induction n generalizing s with
  | zero => exact onlyPayload_refl s
  | succ n ih =>
    unfold repeatFragment
    split
    · exact onlyPayload_refl s
    · have h := emitFragment_onlyPayload s.fsize 0 s
      generalize emitFragment s.fsize 0 s = s1 at h ⊢
      exact onlyPayload_trans
        (onlyPayload_trans h (u := { s1 with remaining := s1.remaining - BitVec.ofNat 14 s1.fsize }) rfl) (ih _)

theorem method0_payloadEnds (s : State) : PayloadEnds s (method0 s) := copyThrough_payloadEnds _ s

theorem method1_payloadEnds (s : State) : PayloadEnds s (method1 s) :=
  payloadEnds_bind (need_payloadEnds s) fun lo s1 =>
    payloadEnds_bind (need_payloadEnds s1) fun hi s2 =>
      payloadEnds_bind (payloadEnds_after (t := { s2 with cnt := wordLe lo hi }) rfl (need_payloadEnds _)) fun b1 s3 =>
        payloadEnds_bind (need_payloadEnds s3) fun b2 s4 =>
          payloadEnds_ok () (onlyPayload_trans (repeatPair_onlyPayload b1 b2 s4.cnt.toNat s4) rfl)

theorem blkLiteral_payloadEnds (s : State) : PayloadEnds s (blkLiteral s) :=
  payloadEnds_bind (need_payloadEnds s) fun c s1 =>
    payloadEnds_bind
      (payloadEnds_after (t := { s1 with cnt := BitVec.ofNat 16 (min c.toNat s1.remaining.toNat) }) rfl
        (copyThrough_payloadEnds _ _))
      fun _ _ => payloadEnds_ok () rfl

theorem blkFragment_payloadEnds (bt : BitVec 8) (s : State) : PayloadEnds s (blkFragment bt s) :=
  payloadEnds_bind (payloadEnds_after (t := { s with fsize := 1 <<< bt.toNat }) rfl (need_payloadEnds _)) fun c s1 =>
    payloadEnds_bind (payloadEnds_after (t := { s1 with cnt := c.setWidth 16 }) rfl (readFragment_payloadEnds _ _ _))
      fun _ s2 => payloadEnds_ok () (repeatFragment_onlyPayload _ s2)

theorem blocks_payloadEnds (n : Nat) (s : State) : PayloadEnds s (blocks n s) := by
  induction n generalizing s with
  | zero =>
    unfold blocks
    split
    · exact payloadEnds_ok () (onlyPayload_refl s)
    · exact ⟨s, onlyPayload_refl s, .inr (.inr rfl)⟩
  | succ n ih =>
    unfold blocks
    split
    · exact payloadEnds_ok () (onlyPayload_refl s)
    · obtain ⟨t, ht, ⟨bt, h⟩ | h | h⟩ := need_payloadEnds s <;> rw [h]
      · have hb : PayloadEnds t (if bt = 0 then blkLiteral t else blkFragment bt t) := by
          split
          · exact blkLiteral_payloadEnds t
          · exact blkFragment_payloadEnds bt t
        obtain ⟨u, hu, ⟨a, h'⟩ | h' | h'⟩ := hb <;> simp only [h']
        · exact payloadEnds_after (onlyPayload_trans ht hu) (ih u)
        · exact ⟨u, onlyPayload_trans ht hu, .inr (.inl rfl)⟩
        · exact ⟨u, onlyPayload_trans ht hu, .inr (.inr rfl)⟩
      · exact ⟨t, ht, .inr (.inl rfl)⟩
      · exact ⟨t, ht, .inr (.inr rfl)⟩

theorem method2_payloadEnds (s : State) : PayloadEnds s (method2 s) :=
  payloadEnds_after (t := { s with remaining := s.tgt }) rfl (blocks_payloadEnds _ _)

/-- Everything `DecodePayload` can do (R200): an unknown method changes nothing (R207); a known one changes only what a
payload may. -/
theorem decodePayload_cases (m : BitVec 8) (target : Nat) (s : State) :
    (2 < m.toNat ∧ decodePayload m target s = .raise .unknownCompressionMethod s) ∨
    (m.toNat ≤ 2 ∧ PayloadEnds s (decodePayload m target s)) := by
  unfold decodePayload
  split
  · exact .inl ⟨by assumption, rfl⟩
  · refine .inr ⟨by omega, ?_⟩
    have h : OnlyPayload s
        { s with outbuf := s.outbuf.clearBelow target, w := 0, tgt := BitVec.ofNat 14 target, short := false } := rfl
    split
    · exact payloadEnds_after h (method0_payloadEnds _)
    · split
      · exact payloadEnds_after h (method1_payloadEnds _)
      · exact payloadEnds_after h (method2_payloadEnds _)

end Sys2Proof.Laws
end

