-- ==== Sys2Proof/Laws/PerInstr.lean ====
section
/-! SUPPORT. Statements for all instructions, made constructor by constructor: every encoding holds the fixed fields
that spec/opcode_table.json gives its row. -/

namespace Sys2Proof.Laws

/-- The bits of a code word as a number. -/
def bitsOf : CodeWord → Nat
  | .cmd32 word => word.toNat
  | .sym9 symbol => symbol.toNat
  | .pos8x lead => lead.toNat
  | .method8 tag => tag.toNat
  | .blk8 blockType => blockType.toNat

/-- The command word's fields as a number (R80). -/
theorem cmdWord_toNat (b : BitVec 16) (a : BitVec 8) (op : BitVec 4) :
    (cmdWord b a op).toNat = b.toNat * 65536 + a.toNat * 256 + op.toNat := by
  have h1 := b.isLt
  have h2 := a.isLt
  have h3 := op.isLt
  have e : ∀ (x y n : Nat), y < 2 ^ n → x <<< n ||| y = x * 2 ^ n + y := by
    intro x y n h
    rw [Nat.shiftLeft_eq, Nat.mul_comm, Nat.two_pow_add_eq_or_of_lt h]
  have z : (0#4).toNat = 0 := rfl
  unfold cmdWord
  rw [BitVec.toNat_append, e _ _ _ op.isLt, BitVec.toNat_append, e _ _ _ (by decide), BitVec.toNat_append,
    e _ _ _ a.isLt, z]
  omega

/-- Two fields side by side as a number. -/
theorem append_toNat {m n : Nat} (x : BitVec m) (y : BitVec n) : (x ++ y).toNat = x.toNat * 2 ^ n + y.toNat := by
  rw [BitVec.toNat_append, Nat.shiftLeft_eq, Nat.mul_comm, Nat.two_pow_add_eq_or_of_lt y.isLt]

/-- The `fixed` fields of the instruction's row in spec/opcode_table.json: high bit, low bit, value. BLK_FRAGMENT has
none. -/
def fixedFields : Instr → List (Nat × Nat × Nat)
  | .init _ => [(7, 0, 1), (31, 9, 0)]
  | .readByte => [(31, 0, 2)]
  | .readWordLe => [(31, 0, 3)]
  | .decodeSector _ _ => [(7, 0, 4), (31, 24, 0)]
  | .decodeLen _ _ => [(7, 0, 5)]
  | .lit _ => [(8, 8, 0)]
  | .lzMatch _ => [(8, 8, 1)]
  | .posE1 _ => [(7, 5, 0)]
  | .posE2Lo _ => [(7, 5, 1)]
  | .posE2Hi _ => [(7, 4, 4)]
  | .posE3Lo _ => [(7, 4, 5)]
  | .posE3Mid _ => [(7, 5, 3)]
  | .posE3Hi _ => [(7, 4, 8)]
  | .posE4Lo _ => [(7, 4, 9)]
  | .posE4Hi _ => [(7, 5, 5)]
  | .posE5Lo _ => [(7, 5, 6)]
  | .posE5Hi _ => [(7, 4, 14)]
  | .posE6 _ => [(7, 4, 15)]
  | .raw => [(7, 0, 0)]
  | .repeat2 => [(7, 0, 1)]
  | .blockRle => [(7, 0, 2)]
  | .blkLiteral => [(7, 0, 0)]
  | .blkFragment _ => []

/-- Every fixed field of the row reads its value in the encoding. -/
def FixedBits.Statement (i : Instr) : Prop :=
  WellFormed i = true → ∀ f ∈ fixedFields i, bitsOf (encode i) / 2 ^ f.2.1 % 2 ^ (f.1 - f.2.1 + 1) = f.2.2

theorem FixedBits.init (c : Bool) : FixedBits.Statement (.init c) := by
  cases c <;> (intro _; decide)
theorem FixedBits.readByte : FixedBits.Statement .readByte := by intro _; decide
theorem FixedBits.readWordLe : FixedBits.Statement .readWordLe := by intro _; decide
theorem FixedBits.decodeSector (m sc : BitVec 8) : FixedBits.Statement (.decodeSector m sc) := by
  intro _
  have h1 := sc.isLt
  have h2 := m.isLt
  simp [fixedFields, bitsOf, encode, cmdWord_toNat]
  omega
theorem FixedBits.decodeLen (m : BitVec 8) (n : BitVec 16) : FixedBits.Statement (.decodeLen m n) := by
  intro _
  simp [fixedFields, bitsOf, encode, cmdWord_toNat]
  omega
theorem FixedBits.lit (b : BitVec 8) : FixedBits.Statement (.lit b) := by
  intro _
  have := b.isLt
  have := append_toNat 0#1 b
  simp only [BitVec.toNat_ofNat] at this
  simp only [fixedFields, bitsOf, encode, List.mem_singleton, forall_eq]
  omega
theorem FixedBits.lzMatch (k : BitVec 8) : FixedBits.Statement (.lzMatch k) := by
  intro _
  have := k.isLt
  have := append_toNat 1#1 k
  simp only [BitVec.toNat_ofNat] at this
  simp only [fixedFields, bitsOf, encode, List.mem_singleton, forall_eq]
  omega
theorem FixedBits.posE1 (x : BitVec 5) : FixedBits.Statement (.posE1 x) := by
  intro _
  have := x.isLt
  have := append_toNat 0b000#3 x
  simp only [BitVec.toNat_ofNat] at this
  simp only [fixedFields, bitsOf, encode, List.mem_singleton, forall_eq]
  omega
theorem FixedBits.posE2Lo (x : BitVec 5) : FixedBits.Statement (.posE2Lo x) := by
  intro _
  have := x.isLt
  have := append_toNat 0b001#3 x
  simp only [BitVec.toNat_ofNat] at this
  simp only [fixedFields, bitsOf, encode, List.mem_singleton, forall_eq]
  omega
theorem FixedBits.posE2Hi (x : BitVec 4) : FixedBits.Statement (.posE2Hi x) := by
  intro _
  have := x.isLt
  have := append_toNat 0b0100#4 x
  simp only [BitVec.toNat_ofNat] at this
  simp only [fixedFields, bitsOf, encode, List.mem_singleton, forall_eq]
  omega
theorem FixedBits.posE3Lo (x : BitVec 4) : FixedBits.Statement (.posE3Lo x) := by
  intro _
  have := x.isLt
  have := append_toNat 0b0101#4 x
  simp only [BitVec.toNat_ofNat] at this
  simp only [fixedFields, bitsOf, encode, List.mem_singleton, forall_eq]
  omega
theorem FixedBits.posE3Mid (x : BitVec 5) : FixedBits.Statement (.posE3Mid x) := by
  intro _
  have := x.isLt
  have := append_toNat 0b011#3 x
  simp only [BitVec.toNat_ofNat] at this
  simp only [fixedFields, bitsOf, encode, List.mem_singleton, forall_eq]
  omega
theorem FixedBits.posE3Hi (x : BitVec 4) : FixedBits.Statement (.posE3Hi x) := by
  intro _
  have := x.isLt
  have := append_toNat 0b1000#4 x
  simp only [BitVec.toNat_ofNat] at this
  simp only [fixedFields, bitsOf, encode, List.mem_singleton, forall_eq]
  omega
theorem FixedBits.posE4Lo (x : BitVec 4) : FixedBits.Statement (.posE4Lo x) := by
  intro _
  have := x.isLt
  have := append_toNat 0b1001#4 x
  simp only [BitVec.toNat_ofNat] at this
  simp only [fixedFields, bitsOf, encode, List.mem_singleton, forall_eq]
  omega
theorem FixedBits.posE4Hi (x : BitVec 5) : FixedBits.Statement (.posE4Hi x) := by
  intro _
  have := x.isLt
  have := append_toNat 0b101#3 x
  simp only [BitVec.toNat_ofNat] at this
  simp only [fixedFields, bitsOf, encode, List.mem_singleton, forall_eq]
  omega
theorem FixedBits.posE5Lo (x : BitVec 5) : FixedBits.Statement (.posE5Lo x) := by
  intro _
  have := x.isLt
  have := append_toNat 0b110#3 x
  simp only [BitVec.toNat_ofNat] at this
  simp only [fixedFields, bitsOf, encode, List.mem_singleton, forall_eq]
  omega
theorem FixedBits.posE5Hi (x : BitVec 4) : FixedBits.Statement (.posE5Hi x) := by
  intro _
  have := x.isLt
  have := append_toNat 0b1110#4 x
  simp only [BitVec.toNat_ofNat] at this
  simp only [fixedFields, bitsOf, encode, List.mem_singleton, forall_eq]
  omega
theorem FixedBits.posE6 (x : BitVec 4) : FixedBits.Statement (.posE6 x) := by
  intro _
  have := x.isLt
  have := append_toNat 0b1111#4 x
  simp only [BitVec.toNat_ofNat] at this
  simp only [fixedFields, bitsOf, encode, List.mem_singleton, forall_eq]
  omega
theorem FixedBits.raw : FixedBits.Statement .raw := by intro _; decide
theorem FixedBits.repeat2 : FixedBits.Statement .repeat2 := by intro _; decide
theorem FixedBits.blockRle : FixedBits.Statement .blockRle := by intro _; decide
theorem FixedBits.blkLiteral : FixedBits.Statement .blkLiteral := by intro _; decide
theorem FixedBits.blkFragment (bt : BitVec 8) : FixedBits.Statement (.blkFragment bt) := by
  intro _ f hf
  cases hf

end Sys2Proof.Laws
end

