-- ==== Sys2Proof/Laws/Step.lean ====
section
/-! SUPPORT. One step, one lemma per kind of input. -/

namespace Sys2Proof.Laws

open Sys2Proof.Config Sys2Proof.Machine Sys2Proof.Safety

/-- Everything the acceptance of a command can do (R230). -/
theorem accept_cases (body : State → State) (s : State) :
    (s.inited = false ∧ accept body s = illegal s) ∨
    (s.inited = true ∧ s.faulted = true ∧ accept body s = { s with err := .treeInvariantViolation }) ∨
    (s.inited = true ∧ s.faulted = false ∧ accept body s = body s) := by
  unfold accept
  cases hi : s.inited <;> cases hf : s.faulted <;> simp

theorem accept_ready {s : State} (body : State → State) (h : Ready s) : accept body s = body s := by
  simp [accept, h.1, h.2]

/-- A payload token run alone either ends in a state or has no room left in OUTBUF. -/
theorem runPayload_cases (room : Nat) (f : State → Res Unit) (s : State) :
    (s.w.toNat + room ≤ OUTBUF_SIZE ∧ runPayload room f s = .next (f s).settle) ∨
    (OUTBUF_SIZE < s.w.toNat + room ∧ runPayload room f s = .fault .outbufOverrun) := by
  unfold runPayload
  split
  · exact .inl ⟨by assumption, rfl⟩
  · exact .inr ⟨by omega, rfl⟩

theorem step_of_inputs {s : State} {x : Input} {rest : List Input} (h : s.inputs = x :: rest) :
    step s = stepInput x { s with inputs := rest } := by
  simp [step, h]

theorem stepInput_cmd (word : BitVec 32) (s : State) : stepInput (.write32 0 word) s = runCodeWord (.cmd32 word) s := by
  simp [stepInput]

theorem stepInput_token (c : CodeWord) (s : State) : stepInput (.token c) s = runCodeWord c s := rfl

/-- The input made for a code word carries it. -/
theorem codeWord_inputOf (c : CodeWord) : (inputOf c).codeWord = some c := by
  cases c <;> rfl

/-- A table word is what the next step takes. -/
theorem step_withFetchWord {s : State} {nbits w : Nat} {c : CodeWord} (h : tableWord nbits w = some c) :
    step (s.withFetchWord nbits w) = stepInput (inputOf c) s := by
  simp [State.withFetchWord, h, step]

end Sys2Proof.Laws
end

