-- ==== Sys2Proof/Tests/Slice0.lean ====
section
/-! SUPPORT. Small tests, their expected values from the spec's encodings and test vectors, and one witness for the
hypotheses of every statement. -/

namespace Sys2Proof.Tests

open Sys2Proof.Config Sys2Proof.Machine Sys2Proof.Safety Sys2Proof.Laws

/-! ### Helpers -/

/-- A core in raw mode on a source. -/
def raw (src : Array (BitVec 8)) : State := { State.reset with inited := true, src := src }

/-- A core right after INIT 1 on a source. -/
def comp (src : Array (BitVec 8)) : State := initStream true { State.reset with src := src }

/-- The state a step or an instruction answers, if it does. -/
def after (o : Host.Outcome State Fault Refusal) : Option State :=
  match o with
  | .next s => some s
  | .fault _ => none
  | .refused _ => none

/-- The first `n` bytes of OUTBUF. -/
def out (n : Nat) (s : State) : List (BitVec 8) := (List.range n).map s.outRead

/-- What the spec's payload vectors list: ERR, OUTLEN, SHORT_FILL, spos and STATUS. -/
def summary (s : State) : Err × Nat × Bool × Nat × BitVec 32 :=
  (s.err, s.outlen.toNat, s.shortFill, s.spos, s.status)

/-! ### WellFormed refuses what has no encoding -/

/-- R88, R89: symbol 256 + 58 is not produced. -/
theorem test_wellFormed_refuses_long_match : WellFormed (.lzMatch 58) = false := by decide
/-- R98: a fragment block's type is not 0. -/
theorem test_wellFormed_refuses_fragment_0 : WellFormed (.blkFragment 0) = false := by decide
theorem test_wellFormed_accepts_edges :
    WellFormed (.lzMatch 57) = true ∧ WellFormed (.blkFragment 255) = true ∧ WellFormed (.decodeSector 255 255) = true := by
  decide

/-! ### Decoding of words written out from the spec -/

/-- R80, R81, R84: B, A, RSV0, OP. -/
theorem test_decode_commands :
    decode (.cmd32 0b00000000000000000000000000000001#32) = .ok (.init false) ∧
    decode (.cmd32 0b00000000000000000000000100000001#32) = .ok (.init true) ∧
    decode (.cmd32 0b00000000000000000000000000000010#32) = .ok .readByte ∧
    decode (.cmd32 0b00000000000000000000000000000011#32) = .ok .readWordLe ∧
    decode (.cmd32 0b00000000000001010000001000000100#32) = .ok (.decodeSector 2 5) ∧
    decode (.cmd32 0b00000000000001100000000100000101#32) = .ok (.decodeLen 1 6) := by decide

/-- R82: reserved opcodes and reserved fields. -/
theorem test_decode_refuses_illegal_words :
    decode (.cmd32 0x00000000#32) = .error .reservedOpcode ∧ decode (.cmd32 0x00000006#32) = .error .reservedOpcode ∧
    decode (.cmd32 0x00000011#32) = .error .reservedField ∧ decode (.cmd32 0x00000201#32) = .error .reservedField ∧
    decode (.cmd32 0x00010002#32) = .error .reservedField ∧ decode (.cmd32 0x00000103#32) = .error .reservedField ∧
    decode (.cmd32 0x01000004#32) = .error .reservedField := by decide

/-- R87, R88, R89. -/
theorem test_decode_symbols :
    decode (.sym9 0b000000000#9) = .ok (.lit 0) ∧ decode (.sym9 0b011111111#9) = .ok (.lit 0xFF) ∧
    decode (.sym9 0b100000000#9) = .ok (.lzMatch 0) ∧ decode (.sym9 0b100111001#9) = .ok (.lzMatch 57) ∧
    decode (.sym9 0b100111010#9) = .error .noSuchSymbol := by decide

/-- R92: one lead byte of each row. -/
theorem test_decode_positions :
    decode (.pos8x 0b00010101#8) = .ok (.posE1 0b10101) ∧ decode (.pos8x 0b00110101#8) = .ok (.posE2Lo 0b10101) ∧
    decode (.pos8x 0b01000101#8) = .ok (.posE2Hi 0b0101) ∧ decode (.pos8x 0b01010101#8) = .ok (.posE3Lo 0b0101) ∧
    decode (.pos8x 0b01110101#8) = .ok (.posE3Mid 0b10101) ∧ decode (.pos8x 0b10000101#8) = .ok (.posE3Hi 0b0101) ∧
    decode (.pos8x 0b10010101#8) = .ok (.posE4Lo 0b0101) ∧ decode (.pos8x 0b10110101#8) = .ok (.posE4Hi 0b10101) ∧
    decode (.pos8x 0b11010101#8) = .ok (.posE5Lo 0b10101) ∧ decode (.pos8x 0b11100101#8) = .ok (.posE5Hi 0b0101) ∧
    decode (.pos8x 0b11110101#8) = .ok (.posE6 0b0101) := by decide

/-- R95, R97, R98, R99. -/
theorem test_decode_payload_tokens :
    decode (.method8 0#8) = .ok .raw ∧ decode (.method8 1#8) = .ok .repeat2 ∧ decode (.method8 2#8) = .ok .blockRle ∧
    decode (.method8 3#8) = .error .unknownMethod ∧ decode (.blk8 0#8) = .ok .blkLiteral ∧
    decode (.blk8 1#8) = .ok (.blkFragment 1) ∧ decode (.blk8 255#8) = .ok (.blkFragment 255) := by decide

/-- Mask and match of the eleven position rows of spec/opcode_table.json, and the constructor of each. -/
def posRows : List (Nat × Nat × (Instr → Bool)) :=
  [(0xE0, 0x00, fun i => match i with | .posE1 _ => true | _ => false),
   (0xE0, 0x20, fun i => match i with | .posE2Lo _ => true | _ => false),
   (0xF0, 0x40, fun i => match i with | .posE2Hi _ => true | _ => false),
   (0xF0, 0x50, fun i => match i with | .posE3Lo _ => true | _ => false),
   (0xE0, 0x60, fun i => match i with | .posE3Mid _ => true | _ => false),
   (0xF0, 0x80, fun i => match i with | .posE3Hi _ => true | _ => false),
   (0xF0, 0x90, fun i => match i with | .posE4Lo _ => true | _ => false),
   (0xE0, 0xA0, fun i => match i with | .posE4Hi _ => true | _ => false),
   (0xE0, 0xC0, fun i => match i with | .posE5Lo _ => true | _ => false),
   (0xF0, 0xE0, fun i => match i with | .posE5Hi _ => true | _ => false),
   (0xF0, 0xF0, fun i => match i with | .posE6 _ => true | _ => false)]

/-- Every lead byte decodes to the one row of the table it matches. -/
theorem test_position_rows_match_the_table :
    ∀ b, b < 256 → ∀ row ∈ posRows, row.2.2 (decodePos (BitVec.ofNat 8 b)) = decide (b &&& row.1 = row.2.1) := by
  decide +kernel

/-- The table's words run as the first instruction after reset (log 1, log 3). -/
theorem test_table_words :
    decodeTableWord 32 0x00000101 = some (.init true) ∧ decodeTableWord 16 0x100 = some (.lzMatch 0) ∧
    decodeTableWord 8 0xF0 = some (.posE6 0) ∧ decodeTableWord 8 1 = some .repeat2 ∧
    (after (step (State.reset.withFetchWord 32 0x00000001))).map (fun t => (t.inited, t.r)) = some (true, 4036) := by
  decide +kernel

/-! ### One step each -/

/-- R231, R29: INIT 1 gives STATUS 0x25. -/
theorem test_init_status : (after (exec (.init true) State.reset)).map State.status = some 0x25#32 := by decide +kernel
/-- 95_test_vectors.md: READ_BYTE before INIT gives ERR = 5. -/
theorem test_readByte_before_init : (after (exec .readByte State.reset)).map State.err = some .illegalCommand := by
  decide
/-- V-HUF-2, V-HUF-3: the first symbol 'A' of a compressed stream, and the exchange its update makes. -/
theorem test_readByte_compressed :
    (after (exec .readByte (comp #[0xE6, 0xE2, 0xE1, 0x00]))).map
      (fun t => (t.data, t.bitbuf, t.r,
        [t.spos, t.bitcnt.toNat, t.tree.sonAt 313, t.tree.sonAt 65, t.tree.freqAt 470, t.tree.freqAt 626])) =
      some (0x41#16, 0xC5C2#16, 4037#12, [3, 15, 0x41 + 627, 313 + 627, 3, 315]) := by
  decide +kernel
/-- V-DEC-1's READ_BYTE 5: a pending match delivers the next byte of the window, and no bit is read. -/
theorem test_readByte_pending_match :
    (after (exec .readByte { comp #[0x00] with
      mstate := .copyingMatch, mlen := 3, copied := 1, msrc := 4036, r := 4040, win := [(4037, 0x42)] })).map
      (fun t => (t.data, t.spos, t.copied, t.r, t.winRead 4040)) = some (0x42#16, 0, 2#6, 4041#12, 0x42#8) := by
  decide +kernel
/-- V-HUF-1: the nine bits `111001101` walk the initial tree to symbol 0x41. -/
theorem test_walk_initial_code :
    (match walk TSIZE (hufInit.sonAt ROOT) (comp #[0xE6, 0xE2, 0xE1, 0x00]) with
      | .ok c t => some (c, t.spos, t.bitcnt)
      | .raise _ _ => none) = some (TSIZE + 0x41, 3, 15#5) := by
  decide +kernel
/-- V-DEC-5: the low byte comes first. -/
theorem test_readWordLe_low_byte_first :
    (after (exec .readWordLe (raw #[0x34, 0x12, 0x56]))).map (fun t => (t.data, t.spos)) = some (0x1234#16, 2) := by
  decide
/-- V-DEC-5: a missing second byte leaves the first consumed. -/
theorem test_readWordLe_half_missing :
    (after (exec .readWordLe (raw #[0x56]))).map (fun t => (t.data, t.spos, t.err)) =
      some (0#16, 1, .streamExhausted) := by
  decide
/-- V-M2-6: the second copy of a fragment does not fit. -/
theorem test_decodeLen_method2 :
    (after (exec (.decodeLen 2 3) (raw #[0x01, 0x02, 0xFF, 0xEE, 0x00, 0x01, 0x77]))).map
      (fun t => (summary t, out 4 t)) = some ((.success, 3, false, 7, 0x21#32), [0xFF, 0xEE, 0x77, 0]) := by
  decide +kernel
/-- V-M1-3: a short fill. -/
theorem test_decodeLen_short_fill :
    (after (exec (.decodeLen 1 4) (raw #[0x01, 0x00, 0xAA, 0x55]))).map (fun t => (summary t, out 4 t)) =
      some ((.success, 4, true, 4, 0x31#32), [0xAA, 0x55, 0, 0]) := by
  decide +kernel
/-- R203 by hand: 128 bytes from one pair and a size code. -/
theorem test_decodeSector_size_code :
    (after (exec (.decodeSector 1 0) (raw #[0x40, 0x00, 0xAA, 0x55]))).map (fun t => (summary t, out 2 t, t.outRead 127)) =
      some ((.success, 128, false, 4, 0x21#32), [0xAA, 0x55], 0x55) := by
  decide +kernel
/-- R234: the size is checked before the method. -/
theorem test_decodeSector_size_first :
    (after (exec (.decodeSector 9 7) (raw #[1]))).map (fun t => (t.err, t.spos)) = some (.invalidSizeCode, 0) := by
  decide
/-- V-LZ-7. -/
theorem test_lit_at_the_top :
    (after (exec (.lit 0x3A) { raw #[] with r := 4095 })).map (fun t => (t.winRead 4095, t.r, t.outByte)) =
      some (0x3A#8, 0#12, 0x3A#8) := by
  decide
/-- V-LZ-4: MATCH 60, 4095 at stream start, its position code `11111111 111111`. -/
theorem test_match_full_length :
    (after (exec (.lzMatch 57) { raw #[0xFF, 0xFC, 0x00] with r := 4036 })).map
      (fun t => (t.mlen, t.dist, t.msrc, t.copied, t.outByte, t.r)) =
      some (60#6, 4095#12, 4036#12, 1#6, 0x20#8, 4037#12) := by
  decide
/-- V-LZ-6, the lead byte already read: the last distance of each class. -/
theorem test_positions :
    (after (exec (.posE1 31) (raw #[0x80]))).map State.dist = some 63#12 ∧
    (after (exec (.posE2Lo 0) (raw #[0x00]))).map State.dist = some 64#12 ∧
    (after (exec (.posE2Hi 15) (raw #[0xC0]))).map State.dist = some 255#12 ∧
    (after (exec (.posE3Lo 0) (raw #[0x00]))).map State.dist = some 256#12 ∧
    (after (exec (.posE3Mid 0) (raw #[0x00]))).map State.dist = some 384#12 ∧
    (after (exec (.posE3Hi 15) (raw #[0xE0]))).map State.dist = some 767#12 ∧
    (after (exec (.posE4Lo 0) (raw #[0x00]))).map State.dist = some 768#12 ∧
    (after (exec (.posE4Hi 31) (raw #[0xF0]))).map State.dist = some 1535#12 ∧
    (after (exec (.posE5Lo 0) (raw #[0x00]))).map State.dist = some 1536#12 ∧
    (after (exec (.posE5Hi 15) (raw #[0xF8]))).map State.dist = some 3071#12 ∧
    (after (exec (.posE6 15) (raw #[0xFC]))).map State.dist = some 4095#12 := by
  decide +kernel
/-- V-M0-1's bytes, from the token alone. -/
theorem test_raw_token :
    (after (exec .raw { raw #[0xDE, 0xAD, 0xBE, 0xEF, 0x99] with tgt := 4 })).map (fun t => (out 4 t, t.spos)) =
      some ([0xDE, 0xAD, 0xBE, 0xEF], 4) := by
  decide +kernel
/-- V-M1-2's bytes: an odd size ends with the first byte of the pair. -/
theorem test_repeat2_token :
    (after (exec .repeat2 { raw #[0x03, 0x00, 0xAA, 0x55] with tgt := 5 })).map (fun t => (out 6 t, t.short)) =
      some ([0xAA, 0x55, 0xAA, 0x55, 0xAA, 0], false) := by
  decide +kernel
/-- V-M2-3's bytes: an empty literal block does not end the payload. -/
theorem test_blockRle_token :
    (after (exec .blockRle { raw #[0x00, 0x00, 0x00, 0x02, 0x10, 0x20] with tgt := 2 })).map
      (fun t => (out 2 t, t.spos, t.err)) = some ([0x10, 0x20], 6, .success) := by
  decide +kernel
/-- V-M2-4's bytes, the type already read: the clamp leaves the rest of the run unread. -/
theorem test_blkLiteral_token :
    (after (exec .blkLiteral { raw #[0x05, 0x99, 0x98, 0x97, 0x96, 0x95] with remaining := 1 })).map
      (fun t => (out 2 t, t.spos, t.remaining)) = some ([0x99, 0], 2, 0) := by
  decide +kernel
/-- V-M2-7's bytes, the type already read: the fragment is read and never copied. -/
theorem test_blkFragment_token :
    (after (exec (.blkFragment 3) { raw #[1, 1, 2, 3, 4, 5, 6, 7, 8, 0] with remaining := 4 })).map
      (fun t => (out 1 t, t.spos, t.remaining, t.fragRead 7)) = some ([0], 9, 4, 8) := by
  decide +kernel

/-! ### A tree at the rebuild threshold -/

/-- Leaf weights of 104 and 105 that add up to MAX_FREQ, in the shape of the initial tree. -/
def loadFreq : Nat → Nat → Nat
  | 0, _ => 105
  | n + 1, j =>
    if j < 314 then if j < 202 then 104 else 105 else loadFreq n (2 * (j - 314)) + loadFreq n (2 * (j - 314) + 1)

/-- The initial tree with those weights: its root is MAX_FREQ, so the next update rebuilds. -/
def loaded : Tree := { hufInit with
  freq := arrayOf 628 fun j => BitVec.ofNat 16 (if j = 627 then 0xFFFF else loadFreq 10 j) }

theorem loaded_sonAt (j : Nat) : loaded.sonAt j = hufInit.sonAt j := by simp only [Tree.sonAt, loaded]

theorem loaded_parentAt (j : Nat) : loaded.parentAt j = hufInit.parentAt j := by simp only [Tree.parentAt, loaded]

theorem loaded_freqAt {j : Nat} (h : j < 627) : loaded.freqAt j = loadFreq 10 j % 65536 := by
  unfold Tree.freqAt loaded
  simp only [arrayOf_get _ _ (show j < 628 by omega)]
  simp [show j ≠ 627 by omega]

theorem loadFreq_facts :
    (∀ c, c < 626 → loadFreq 10 c ≤ loadFreq 10 (c + 1)) ∧
    (∀ c, c < 627 → 1 ≤ loadFreq 10 c ∧ loadFreq 10 c ≤ 32768) ∧
    (∀ c, c < 627 → 314 ≤ c → loadFreq 10 c = loadFreq 10 (2 * (c - 314)) + loadFreq 10 (2 * (c - 314) + 1)) ∧
    loadFreq 10 626 = 32768 := by
  refine ⟨?_, ?_, ?_, ?_⟩ <;> decide +kernel

theorem loaded_leafSum (n : Nat) (h : n ≤ 314) : leafSum loaded n = 104 * n + (n - 202) := by
  induction n with
  | zero => rfl
  | succ n ih =>
    have hp : loaded.parentAt (TSIZE + n) = n := by rw [loaded_parentAt, hufInit_leafSlot (show n < 314 by omega)]
    have hf : loadFreq 10 n = if n < 202 then 104 else 105 := by simp [loadFreq, show n < 314 by omega]
    rw [leafSum, ih (by omega), leafFreq, hp, loaded_freqAt (by omega), hf]
    split <;> omega

theorem loaded_treeInv : TreeInv loaded where
  sentinel := by
    unfold Tree.freqAt loaded
    simp only [arrayOf_get _ _ (show TSIZE < 628 by decide)]
    rfl
  sorted c hc := by
    obtain ⟨hs, hb, -, -⟩ := loadFreq_facts
    have h0 : c < 626 := hc
    rw [loaded_freqAt (show c < 627 by omega), loaded_freqAt (show c + 1 < 627 by omega)]
    have := hs c h0
    have := hb c (by omega)
    have := hb (c + 1) (by omega)
    omega
  node c hc hi := by
    obtain ⟨-, hb, hn, -⟩ := loadFreq_facts
    have h0 : c < 627 := hc
    rw [loaded_sonAt] at hi ⊢
    obtain ⟨h1, h2, -⟩ := hufInit_treeInv.node c hc hi
    refine ⟨h1, h2, ?_⟩
    have hs := hufInit_sonAt hc
    have hi' : hufInit.sonAt c < 627 := hi
    have h3 : 314 ≤ c := by
      by_contra hl
      rw [hs, if_pos (show c < N_CHAR by simp only [N_CHAR]; omega)] at hi'
      simp only [TSIZE] at hi'
      omega
    rw [hs, if_neg (show ¬ c < N_CHAR by simp only [N_CHAR]; omega)]
    simp only [N_CHAR]
    rw [loaded_freqAt h0, loaded_freqAt (by omega), loaded_freqAt (by omega)]
    have := hn c h0 h3
    have := hb c h0
    omega
  leaf_value := by simpa only [loaded_sonAt, loaded_parentAt] using hufInit_treeInv.leaf_value
  leaf_slot := by simpa only [loaded_sonAt, loaded_parentAt] using hufInit_treeInv.leaf_slot
  leaf_unique := by simpa only [loaded_sonAt, loaded_parentAt] using hufInit_treeInv.leaf_unique
  link := by simpa only [loaded_sonAt, loaded_parentAt] using hufInit_treeInv.link
  root_parent := by simpa only [loaded_sonAt, loaded_parentAt] using hufInit_treeInv.root_parent
  positive c hc := by
    have := loadFreq_facts.2.1 c hc
    rw [loaded_freqAt hc]
    omega
  root_sum := by
    rw [loaded_leafSum _ (le_refl _), loaded_freqAt (show ROOT < 627 by decide), loadFreq_facts.2.2.2]
  root_le := by rw [loaded_freqAt (show ROOT < 627 by decide), loadFreq_facts.2.2.2]
  slot_zero := by simpa only [loaded_sonAt, loaded_parentAt] using hufInit_treeInv.slot_zero

/-! ### Witnesses: for every statement with hypotheses, concrete values that meet them all -/

theorem bitsOk_empty {s : State} (h : s.bitcnt = 0) (h' : s.bitbuf = 0) : BitsOk s :=
  ⟨by simp [h], by simp [h']⟩

theorem treeGood_raw {s : State} (h : s.compressed = false) : TreeGood s := fun h' => by simp [h] at h'

theorem inv_comp (src : Array (BitVec 8)) (inputs : List Input) : Inv { comp src with inputs := inputs } where
  win_wf := wf_nil
  win_below := below_nil _
  outbuf_wf := wf_nil
  outbuf_below := below_nil _
  frag_wf := wf_nil
  frag_below := below_nil _
  bits := bitsOk_empty rfl rfl
  outlen_le := show (0#14).toNat ≤ 8192 by decide
  match_length h := by cases h
  match_copied h := by cases h
  sentinel _ := hufInit_sentinel
  parents x := by
    show hufInit.parentAt x ≤ 626
    by_cases h : x < 941
    · rw [hufInit_parentAt h]
      simp only [ROOT, N_CHAR, TSIZE]
      split_ifs <;> omega
    · simp [Tree.parentAt, Vector.getElem?_eq_none (show 941 ≤ x by omega)]

/-- InvKeptByEveryStep. -/
theorem test_witness_InvKeptByEveryStep :
    ∃ t, Inv { comp #[1] with inputs := [.write32 0 2#32] } ∧
      step { comp #[1] with inputs := [.write32 0 2#32] } = .next t :=
  ⟨_, inv_comp _ _, rfl⟩

/-- StepRunsTheDecodedInstruction: a word that decodes, one that does not, and no input. -/
theorem test_witness_StepRunsTheDecodedInstruction :
    ({ raw #[1] with inputs := [.write32 0 2#32] } : State).inputs = inputOf (.cmd32 2#32) :: [] ∧
    decode (.cmd32 2#32) = .ok .readByte ∧ decode (.cmd32 6#32) = .error .reservedOpcode ∧ (raw #[1]).inputs = [] := by
  decide

/-- CommandAcceptanceOrder: an illegal word, INIT, a command before INIT, and a command while FAULTED. -/
theorem test_witness_CommandAcceptanceOrder :
    illegalWord 0x00000006#32 = true ∧ illegalWord 0x00000101#32 = false ∧ illegalWord 0xFFFFFF05#32 = false ∧
    State.reset.inited = false ∧ ({ raw #[] with faulted := true } : State).inited = true ∧
    ({ raw #[] with faulted := true } : State).faulted = true := by
  decide

/-- StatusView: a core with each error, INITED and not; RegisterWindow at the window's edges. -/
theorem test_witness_RegisterWindow :
    (∀ e : Err, ({ raw #[] with err := e } : State).err = e) ∧ (raw #[]).inited = true ∧ State.reset.inited = false ∧
    (16#14).toNat % 4 = 0 ∧ (0x1FFC#14).toNat % 4 = 0 ∧ (0x1FFC#14).toNat < 0x2000 ∧
    0x2000 ≤ (0x2000#14).toNat ∧ 0x2000 ≤ (0x3FFF#14).toNat ∧ (4#14 : BitVec 14) ≠ 0 :=
  ⟨fun _ => rfl, by decide⟩

/-- R261, R29 by hand: ERR = 2 and ERR = 5 in STATUS[11:8], INITED = 1. -/
theorem test_status_error_codes :
    ({ raw #[] with err := .unknownCompressionMethod } : State).status = 0x221#32 ∧
    ({ raw #[] with err := .illegalCommand } : State).status = 0x521#32 := by
  decide

/-- DecodeOfEncodeIsTheInstruction and DecodedWordIsItsEncoding, at the last match symbol. -/
theorem test_witness_DecodeOfEncode :
    WellFormed (.lzMatch 57) = true ∧ decode (.sym9 313#9) = .ok (.lzMatch 57) := by
  decide

/-- RejectedTokens. -/
theorem test_witness_RejectedTokens : 314 ≤ (314#9).toNat ∧ 3 ≤ (3#8).toNat := by decide

/-- PositionCodeTable: the edges of every class. -/
theorem test_witness_PositionCodeTable :
    ∀ p ∈ [(0x00#8, 0), (0x1F#8, 1), (0x20#8, 0), (0x4F#8, 3), (0x50#8, 0), (0x8F#8, 7), (0x90#8, 0), (0xBF#8, 15),
      (0xC0#8, 0), (0xEF#8, 31), (0xF0#8, 0), (0xFF#8, 63)], p.2 < 2 ^ extra p.1 := by
  decide

/-- RawByteIsSticky: EOF set, a byte left, the end reached. -/
theorem test_witness_RawByteIsSticky :
    ({ raw #[1] with eof := true } : State).eof = true ∧ (raw #[1]).eof = false ∧ (raw #[1]).src[(raw #[1]).spos]? = some 1#8 ∧
    (raw #[]).src[(raw #[]).spos]? = none := by
  decide

/-- RefillTopsUpTheBuffer: an empty buffer and one that still holds eight bits. -/
theorem test_witness_RefillTopsUpTheBuffer :
    BitsOk (raw #[1]) ∧ BitsOk { raw #[1] with bitcnt := 8, bitbuf := 0xFF00 } :=
  ⟨bitsOk_empty rfl rfl, ⟨by decide, by decide⟩⟩

/-- ReadsDeliverTheSourceBits and LookAheadAndEndFlag. -/
theorem test_witness_LookAheadAndEndFlag :
    (raw #[0xA5, 0x3C]).spos ≤ (raw #[0xA5, 0x3C]).src.size ∧
    ∃ bs t, readRun ([true, false] ++ [true]) (initStream true (raw #[0xA5, 0x3C])) = (bs, t) :=
  ⟨by decide, _, _, rfl⟩

/-- Symbol 313's first code is `11000101`. -/
theorem hufInit_path_313 : ancestor hufInit 8 313 = ROOT ∧
    ∀ m, m < 8 → ancestor hufInit m 313 ≠ ROOT ∧
      decide (ancestor hufInit m 313 % 2 = 1) = (0b11000101#8).getLsbD m := by decide +kernel

/-- The update of symbol 313 moves no slot of the initial tree. -/
theorem update_313 :
    (match update hufInit 313 with
      | .ok _ => true
      | .breach _ => false) = true := by
  decide +kernel

/-- WalkReadsTheCodeOfItsSymbol: symbol 313 in the initial tree. -/
theorem test_witness_WalkReadsTheCodeOfItsSymbol :
    (TreeInv (comp #[0b11000101, 0]).tree ∧ BitsOk (comp #[0b11000101, 0]) ∧ 313 < N_CHAR ∧
      313 = (comp #[0b11000101, 0]).tree.parentAt (TSIZE + 313) ∧
      ancestor (comp #[0b11000101, 0]).tree 8 313 = ROOT ∧
      ∀ m, m < 8 → ancestor (comp #[0b11000101, 0]).tree m 313 ≠ ROOT ∧
        bitsAhead (comp #[0b11000101, 0]) (8 - 1 - m) =
          decide (ancestor (comp #[0b11000101, 0]).tree m 313 % 2 = 1)) ∧
    ∃ tree, update (comp #[0b11000101, 0]).tree 313 = .ok tree := by
  have hb : ∀ m, m < 8 → bitsAhead (comp #[0b11000101, 0]) (8 - 1 - m) = (0b11000101#8).getLsbD m := by decide
  refine ⟨⟨hufInit_treeInv, bitsOk_empty rfl rfl, by decide, ?_, hufInit_path_313.1, fun m hm => ?_⟩, ?_⟩
  · exact (hufInit_leafSlot (sym := 313) (by decide)).symm
  · obtain ⟨h1, h2⟩ := hufInit_path_313.2 m hm
    exact ⟨h1, by rw [hb m hm]; exact h2.symm⟩
  · have h := update_313
    show ∃ tree, update hufInit 313 = .ok tree
    cases hu : update hufInit 313 with
    | ok tree => exact ⟨tree, rfl⟩
    | breach tree => rw [hu] at h; cases h

/-- UpdateKeepsTheTree and RebuildKeepsTheTree: the initial tree, and a tree whose root is MAX_FREQ. -/
theorem test_witness_UpdateKeepsTheTree :
    TreeInv hufInit ∧ hufInit.freqAt ROOT ≠ MAX_FREQ ∧ TreeInv loaded ∧ loaded.freqAt ROOT = MAX_FREQ ∧ 313 < N_CHAR := by
  refine ⟨hufInit_treeInv, ?_, loaded_treeInv, ?_, by decide⟩
  · rw [hufInit_freqAt (by decide), initFreq_facts.2.2.2]; decide
  · rw [loaded_freqAt (by decide), loadFreq_facts.2.2.2]

/-- CommandsNeverBreakTheTree: a raw core and a compressed one. -/
theorem test_witness_CommandsNeverBreakTheTree :
    isCommand .readByte = true ∧ (raw #[1]).faulted = false ∧ TreeGood (raw #[1]) ∧ (comp #[1]).faulted = false ∧
    TreeGood (comp #[1]) :=
  ⟨rfl, rfl, treeGood_raw rfl, rfl, fun _ => hufInit_treeInv⟩

/-- LitPushesItsByte, at the top of the window. -/
theorem test_witness_LitPushesItsByte : ({ raw #[] with r := 4095 } : State).win.wf FILL := wf_nil

/-- PositionRowsReadTheirCode. -/
theorem test_witness_PositionRowsReadTheirCode :
    decode (.pos8x 0xFF#8) = .ok (.posE6 15) ∧ decode (.pos8x 0x00#8) = .ok (.posE1 0) ∧ BitsOk (raw #[0xFC]) :=
  ⟨by decide, by decide, bitsOk_empty rfl rfl⟩

/-- MatchDeliversItsFirstByte, at the shortest and the longest match. -/
theorem test_witness_MatchDeliversItsFirstByte :
    256 ≤ (256#9).toNat ∧ (256#9).toNat ≤ 313 ∧ 256 ≤ (313#9).toNat ∧ (313#9).toNat ≤ 313 ∧
    BitsOk (raw #[0xFF, 0xFF]) ∧ (raw #[0xFF, 0xFF]).win.wf FILL :=
  ⟨by decide, by decide, by decide, by decide, bitsOk_empty rfl rfl, wf_nil⟩

/-- MatchCopyIsPeriodic at distance 0, and OldestBytesCopyKeepsTheWindow. -/
theorem test_witness_MatchCopyIsPeriodic :
    ∃ bs t bs' t', ({ raw #[] with r := 1, msrc := 0, win := [(0, 7)] } : State).win.wf FILL ∧ (60 : Nat) ≤ 60 ∧
      (0#12 : BitVec 12) = 1#12 - 0#12 - 1 ∧ (1#12 : BitVec 12) = 1#12 - 4095#12 - 1 ∧
      copyRun 60 { raw #[] with r := 1, msrc := 0, win := [(0, 7)] } = (bs, t) ∧
      copyRun 60 { raw #[] with r := 1, msrc := 1, win := [(0, 7)] } = (bs', t') :=
  ⟨_, _, _, _, by decide, le_refl _, by decide, by decide, rfl, rfl⟩

/-- WindowChangesOnlyByPushes: a literal, a match byte, a position code, a raw command, and a match pending in
compressed mode. -/
theorem test_witness_WindowChangesOnlyByPushes :
    ∃ t1 t2 t3 t4 t5, (raw #[1]).win.wf FILL ∧ isInit (.lit 7) = false ∧ exec (.lit 7) (raw #[1]) = .next t1 ∧
      exec (.lzMatch 57) (raw #[1]) = .next t2 ∧ exec (.posE1 0) (raw #[1]) = .next t3 ∧
      exec .readByte (raw #[1]) = .next t4 ∧ (comp #[]).win.wf FILL ∧
      exec .readByte { comp #[] with mstate := .copyingMatch, mlen := 3, copied := 2 } = .next t5 :=
  ⟨_, _, _, _, _, wf_nil, rfl, rfl, rfl, rfl, rfl, wf_nil, rfl⟩

/-- OnlyInitChangesTheMode and SourceIsReadForward. -/
theorem test_witness_OnlyInitChangesTheMode :
    isInit .readByte = false ∧ ∃ t, exec .readByte { raw #[1] with faulted := true } = .next t :=
  ⟨rfl, _, rfl⟩

/-- ReadByteDeliversThePendingMatch, at the last byte of a match. -/
theorem test_witness_ReadByteDeliversThePendingMatch :
    Ready { comp #[] with mstate := .copyingMatch, mlen := 3, copied := 2 } ∧ (comp #[]).compressed = true ∧
    (comp #[]).eof = false ∧ (2#6).toNat < (3#6).toNat ∧ (comp #[]).win.wf FILL :=
  ⟨⟨rfl, rfl⟩, rfl, rfl, by decide, wf_nil⟩

/-- EndOfStreamAtEntry. -/
theorem test_witness_EndOfStreamAtEntry :
    Ready { comp #[] with eof := true } ∧ ({ comp #[] with eof := true } : State).compressed = true ∧
    ({ comp #[] with eof := true } : State).eof = true :=
  ⟨⟨rfl, rfl⟩, rfl, rfl⟩

/-- RawModeIsolation. -/
theorem test_witness_RawModeIsolation :
    isCommand (.decodeLen 2 1) = true ∧ isInit (.decodeLen 2 1) = false ∧ (raw #[0]).compressed = false ∧
    ∃ t, exec (.decodeLen 2 1) (raw #[0]) = .next t :=
  ⟨rfl, rfl, rfl, _, rfl⟩

/-- RawTokenCopiesItsBytes: the last two bytes of OUTBUF, and a source that ends after the first. -/
theorem test_witness_RawTokenCopiesItsBytes :
    ∃ t s1 t', ({ raw #[1, 2] with w := 8190, tgt := 2 } : State).outbuf.wf 0 ∧
      (8190#14).toNat + (2#14).toNat ≤ OUTBUF_SIZE ∧
      reads 2 { raw #[1, 2] with w := 8190, tgt := 2 } = .ok [1, 2] t ∧ 1 < (2#14).toNat ∧
      reads 1 { raw #[1] with w := 8190, tgt := 2 } = .ok [1] s1 ∧ need s1 = .raise .streamExhausted t' :=
  ⟨_, _, _, wf_nil, by decide, rfl, by decide, rfl, rfl⟩

/-- Repeat2TokenRepeatsItsPair: a full record, and one that ends early. -/
theorem test_witness_Repeat2TokenRepeatsItsPair :
    ∃ t t', ({ raw #[1, 0, 3, 4] with tgt := 8192 } : State).outbuf.wf 0 ∧ (0#14).toNat + (8192#14).toNat ≤ OUTBUF_SIZE ∧
      reads 4 { raw #[1, 0, 3, 4] with tgt := 8192 } = .ok [1, 0, 3, 4] t ∧
      reads 4 { raw #[1, 0, 3] with tgt := 8192 } = .raise .streamExhausted t' :=
  ⟨_, _, wf_nil, by decide, rfl, rfl⟩

/-- BlkLiteralTokenCopiesItsRun: no count, a count past what remains, and a run that ends before its first byte. -/
theorem test_witness_BlkLiteralTokenCopiesItsRun :
    ∃ t0 s1 t s1' t', ({ raw #[5, 9] with w := 8191, remaining := 1 } : State).outbuf.wf 0 ∧
      (8191#14).toNat + (1#14).toNat ≤ OUTBUF_SIZE ∧
      need { raw #[] with w := 8191, remaining := 1 } = .raise .streamExhausted t0 ∧
      need { raw #[5, 9] with w := 8191, remaining := 1 } = .ok 5 s1 ∧ reads (min 5 1) s1 = .ok [9] t ∧
      need { raw #[5] with w := 8191, remaining := 1 } = .ok 5 s1' ∧ 0 < min 5 1 ∧ reads 0 s1' = .ok [] s1' ∧
      need s1' = .raise .streamExhausted t' :=
  ⟨_, _, _, _, _, wf_nil, by decide, rfl, rfl, rfl, rfl, by decide, rfl, rfl⟩

/-- BlkFragmentTokenCopiesItsFragment: no count, a fragment of two bytes, and one that ends early. -/
theorem test_witness_BlkFragmentTokenCopiesItsFragment :
    ∃ t0 s1 t s1' t', ({ raw #[2, 7, 8] with remaining := 8192 } : State).outbuf.wf 0 ∧
      ({ raw #[2, 7, 8] with remaining := 8192 } : State).frag.wf 0 ∧ (0#14).toNat + (8192#14).toNat ≤ OUTBUF_SIZE ∧
      need { raw #[] with remaining := 8192 } = .raise .streamExhausted t0 ∧
      need { raw #[2, 7, 8] with remaining := 8192 } = .ok 2 s1 ∧ reads 2 s1 = .ok [7, 8] t ∧
      need { raw #[2, 7] with remaining := 8192 } = .ok 2 s1' ∧ reads 2 s1' = .raise .streamExhausted t' :=
  ⟨_, _, _, _, _, wf_nil, wf_nil, by decide, rfl, rfl, rfl, rfl, rfl⟩

/-- BlockRleRunsItsBlocks: one literal block that fills the target, and an empty target. -/
theorem test_witness_BlockRleRunsItsBlocks :
    ∃ t, TreeGood { raw #[0, 1, 0x77] with tgt := 1 } ∧ (0#14).toNat + (1#14).toNat ≤ OUTBUF_SIZE ∧
      BlocksTo { raw #[0, 1, 0x77] with tgt := 1, remaining := 1 } t ∧ (raw #[]).tgt = 0 :=
  ⟨_, treeGood_raw rfl, by decide,
    BlocksTo.block _ _ _ _ 0 (by decide) rfl rfl (BlocksTo.done _ (by decide)), rfl⟩

/-- BlockRleRunsItsBlocks where a block raises: at its type byte, inside it, and after a block that ran. -/
theorem test_witness_BlockRleRaises :
    ∃ t1 t2 t3, (raw #[]).outbuf.wf 0 ∧
      BlocksRaise { raw #[] with tgt := 1, remaining := 1 } .streamExhausted t1 ∧
      BlocksRaise { raw #[0, 1] with tgt := 1, remaining := 1 } .streamExhausted t2 ∧
      BlocksRaise { raw #[0, 1, 0x77] with tgt := 2, remaining := 2 } .streamExhausted t3 :=
  ⟨_, _, _, wf_nil, .type _ _ _ (by decide) rfl, .inside _ _ _ 0 _ (by decide) rfl rfl,
    .later _ _ _ _ 0 _ (by decide) rfl rfl (.type _ _ _ (by decide) rfl)⟩

/-- PayloadTokensAnswer, where the output just fits. -/
theorem test_witness_PayloadTokensAnswer :
    (raw #[]).outbuf.wf 0 ∧ (8191#14).toNat + (1#14).toNat ≤ OUTBUF_SIZE ∧ Instr.raw ∈ [Instr.raw, Instr.repeat2, Instr.blockRle] ∧
    Instr.blkFragment 13 ∈ [Instr.blkLiteral, Instr.blkFragment 13] := by
  decide

/-- The first code of symbol 313, which its update moves nowhere. -/
theorem decodeSymbol_313 :
    (match decodeSymbol (comp #[0b11000101, 0]) with
      | .ok sym _ => some sym
      | .raise _ _ => none) = some 313 := by
  decide +kernel

/-- TokensRunInsideTheirCommands: a symbol, a position code and a method. -/
theorem test_witness_TokensRunInsideTheirCommands :
    (∃ t, decodeSymbol { comp #[0b11000101, 0] with mstate := .idle } = .ok 313 t) ∧
    ∃ t u, (comp #[0b11000101, 0]).eofStops = false ∧ (comp #[0b11000101, 0]).copyPending = false ∧ nextBits8 (raw #[5]) = (5, t) ∧
      decode (.method8 1) = .ok .repeat2 ∧ decodePayload 1 2 (raw #[1, 0, 3, 4]) = .ok () u := by
  refine ⟨?_, _, _, rfl, rfl, rfl, rfl, rfl⟩
  have h := decodeSymbol_313
  show ∃ t, decodeSymbol (comp #[0b11000101, 0]) = .ok 313 t
  cases hd : decodeSymbol (comp #[0b11000101, 0]) with
  | ok sym t =>
    rw [hd] at h
    exact ⟨t, by rw [Option.some.inj h]⟩
  | raise e t => rw [hd] at h; cases h

/-- TokensRunInsideTheirCommands, a payload: a method that is none, one that runs, one whose record is missing; a block
type that is missing, and a block of each kind. -/
theorem test_witness_PayloadRunsInsideItsCommand :
    ∃ u v t0 t1 t2, Ready (raw #[1, 0, 3, 4]) ∧ (2#16).toNat ≤ MAX_TARGET ∧ decode (.method8 3) = .error .unknownMethod ∧
      decode (.method8 1) = .ok .repeat2 ∧
      decodePayload 1 2 { raw #[1, 0, 3, 4] with shortFill := false, outlen := 0 } = .ok () u ∧
      decodePayload 1 2 { raw #[1] with shortFill := false, outlen := 0 } = .raise .streamExhausted v ∧
      (1#14).toNat ≠ 0 ∧ (8191#14).toNat + (1#14).toNat ≤ OUTBUF_SIZE ∧
      need { raw #[] with w := 8191, remaining := 1 } = .raise .streamExhausted t0 ∧
      need { raw #[0, 1, 9] with w := 8191, remaining := 1 } = .ok 0 t1 ∧ decode (.blk8 0) = .ok .blkLiteral ∧
      need { raw #[3] with w := 8191, remaining := 1 } = .ok 3 t2 ∧ decode (.blk8 3) = .ok (.blkFragment 3) :=
  ⟨_, _, _, _, _, ⟨rfl, rfl⟩, by decide, rfl, rfl, rfl, rfl, by decide, by decide, rfl, rfl, rfl, rfl, rfl⟩

/-- A compressed core whose root is a leaf of no symbol. -/
def broken : State := { raw #[] with
  compressed := true, tree := { Tree.zero with son := Vector.replicate 627 1000 } }

theorem broken_raises :
    (match decodeSymbol broken with
      | .ok _ _ => none
      | .raise e _ => some e) = some .treeInvariantViolation := by
  decide +kernel

/-- TokensRunInsideTheirCommands: a symbol that raises. -/
theorem test_witness_SymbolRaises : ∃ t, broken.eofStops = false ∧ broken.copyPending = false ∧
    decodeSymbol { broken with mstate := .idle } = .raise .treeInvariantViolation t := by
  have h := broken_raises
  show ∃ t, _ ∧ _ ∧ decodeSymbol broken = _
  cases hb : decodeSymbol broken with
  | ok b t => rw [hb] at h; cases h
  | raise e t =>
    rw [hb] at h
    exact ⟨t, rfl, rfl, by rw [Option.some.inj h]⟩

/-- NeedRaisesStreamExhausted: a byte, none with EOF set, none at the end, and a broken tree. -/
theorem test_witness_NeedRaisesStreamExhausted :
    (∃ t u v, byteIn (raw #[1]) = .ok (some 1) t ∧ byteIn (raw #[]) = .ok none u ∧
      byteIn { raw #[1] with eof := true } = .ok none v ∧ ({ raw #[1] with eof := true } : State).eof = true ∧
      (raw #[]).compressed = false ∧ (raw #[]).eof = false ∧ (raw #[]).src[(raw #[]).spos]? = none) ∧
    ∃ t, byteIn broken = .raise .treeInvariantViolation t := by
  refine ⟨⟨_, _, _, rfl, rfl, rfl, rfl, rfl, rfl, rfl⟩, ?_⟩
  obtain ⟨t, he, hc, hd⟩ := test_witness_SymbolRaises
  exact ⟨t, by simp only [byteIn_compressed (show broken.compressed = true from rfl), decNextByte, he, hc, hd]; rfl⟩

/-- ReadByteResult, ReadWordResult and RawModeReads: two bytes, one byte, none. -/
theorem test_witness_ReadWordResult :
    ∃ t u t' u' v, Ready (raw #[1, 2]) ∧ byteIn (raw #[1, 2]) = .ok (some 1) t ∧ byteIn t = .ok (some 2) u ∧
      byteIn (raw #[1]) = .ok (some 1) t' ∧ byteIn t' = .ok none u' ∧ byteIn (raw #[]) = .ok none v ∧
      (raw #[1, 2]).compressed = false ∧ (raw #[1, 2]).src[0]? = some 1#8 ∧ (raw #[1, 2]).src[0 + 1]? = some 2#8 ∧
      (raw #[1]).src[0 + 1]? = none :=
  ⟨_, _, _, _, _, ⟨rfl, rfl⟩, rfl, rfl, rfl, rfl, rfl, rfl, rfl, rfl, rfl⟩

/-- ReadFrame. -/
theorem test_witness_ReadFrame :
    ∃ t u, (raw #[1]).win.wf FILL ∧ exec .readByte (raw #[1]) = .next t ∧ exec .readWordLe (raw #[1]) = .next u :=
  ⟨_, _, wf_nil, rfl, rfl⟩

/-- SizeThenMethodChecks and SizeCodeIsATargetSize, at the edges of the two ranges. -/
theorem test_witness_SizeThenMethodChecks :
    Ready (raw #[]) ∧ 6 < (7#8).toNat ∧ (6#8).toNat ≤ 6 ∧ 8192 < (8193#16).toNat ∧ (8192#16).toNat ≤ 8192 ∧
    2 < (3#8).toNat :=
  ⟨⟨rfl, rfl⟩, by decide, by decide, by decide, by decide, by decide⟩

/-- DecodeRaw, ExhaustedRawDecode and DecodeRepeat2. -/
theorem test_witness_DecodeRaw :
    ∃ t u, Ready (raw #[1, 0, 3, 4]) ∧ (raw #[1, 0, 3, 4]).outbuf.wf 0 ∧ (4#16).toNat ≤ MAX_TARGET ∧
      reads 4 (raw #[1, 0, 3, 4]) = .ok [1, 0, 3, 4] t ∧ reads 0 (raw #[]) = .ok [] u ∧
      (raw #[1, 0, 3, 4]).compressed = false ∧ (raw #[1, 0, 3, 4]).eof = false ∧
      (raw #[1, 0, 3, 4]).spos ≤ (raw #[1, 0, 3, 4]).src.size ∧
      (raw #[1, 0, 3, 4]).src.size - (raw #[1, 0, 3, 4]).spos < (5#16).toNat :=
  ⟨_, _, ⟨rfl, rfl⟩, wf_nil, by decide, rfl, rfl, rfl, rfl, by decide, by decide⟩

/-- DecodeBlockRle: blocks that fill the target, and a block that is cut off. -/
theorem test_witness_DecodeBlockRle :
    ∃ t u, Ready (raw #[0, 1, 5]) ∧ TreeGood (raw #[0, 1, 5]) ∧ (raw #[0, 1, 5]).outbuf.wf 0 ∧ (1#16).toNat ≤ MAX_TARGET ∧
      BlocksTo { raw #[0, 1, 5] with tgt := 1, remaining := 1 } t ∧
      BlocksRaise { raw #[0, 1] with tgt := 1, remaining := 1 } .streamExhausted u :=
  ⟨_, _, ⟨rfl, rfl⟩, treeGood_raw rfl, wf_nil, by decide,
    .block _ _ _ _ 0 (by decide) rfl rfl (.done _ (by decide)), .inside _ _ _ 0 _ (by decide) rfl rfl⟩

/-- DecodeOutcome and DecodeFrame. -/
theorem test_witness_DecodeFrame :
    ∃ t u, Ready (raw #[1]) ∧ (raw #[1]).outbuf.wf 0 ∧ exec (.decodeLen 0 2) (raw #[1]) = .next t ∧
      exec (.decodeSector 0 0) (raw #[1]) = .next u :=
  ⟨_, _, ⟨rfl, rfl⟩, wf_nil, rfl, rfl⟩

/-- EofStaysUntilInit. -/
theorem test_witness_EofStaysUntilInit :
    ∃ t, isInit .readByte = false ∧ ({ comp #[1] with eof := true } : State).eof = true ∧
      exec .readByte { comp #[1] with eof := true } = .next t :=
  ⟨_, rfl, rfl, rfl⟩

/-- CommandLocalsAreNeverRead: two states that differ in every command-local register. -/
theorem test_witness_CommandLocalsAreNeverRead :
    ∃ t, isCommand (.decodeLen 2 1) = true ∧ (raw #[0, 1, 5]).frag.wf 0 ∧
      ({ raw #[0, 1, 5] with
        remaining := 9, w := 8, fsize := 7, cnt := 6, frag := [(3, 1)], tgt := 4, short := true } : State).frag.wf 0 ∧
      OnlyLocals (raw #[0, 1, 5]) { raw #[0, 1, 5] with
        remaining := 9, w := 8, fsize := 7, cnt := 6, frag := [(3, 1)], tgt := 4, short := true } ∧
      exec (.decodeLen 2 1) (raw #[0, 1, 5]) = .next t :=
  ⟨_, rfl, wf_nil, by decide, rfl, rfl⟩

end Sys2Proof.Tests
end

section
/-! SUPPORT. A literal symbol: its decoding (30_encoding.md R87) and its push into the window (42_lzss.md R161). -/

namespace Sys2Proof.Proofs

open Sys2Proof.Config Sys2Proof.Machine Sys2Proof.Laws

/-- A symbol below 256 has bit 8 clear, so R87 gives the literal of its low eight bits. -/
theorem decode_sym9_setWidth (b : BitVec 8) : decode (.sym9 (b.setWidth 9)) = .ok (.lit b) := by
  have hlow : (b.setWidth 9).extractLsb' 0 8 = b := by
    apply BitVec.eq_of_toNat_eq
    have := b.isLt
    simp
    omega
  simp [decode, decodeSym, hlow]

theorem exec_lit (b : BitVec 8) (s : State) : exec (.lit b) s = .next (pushLiteral b s) := rfl

/-- The window cursor wraps at SBSIZE. -/
theorem pushLiteral_r_toNat (b : Byte) (s : State) : (pushLiteral b s).r.toNat = (s.r.toNat + 1) % 4096 := by
  simp [BitVec.toNat_add]

theorem winRead_pushLiteral (b : Byte) {s : State} (h : s.win.wf FILL) (a : Nat) :
    (pushLiteral b s).winRead a = if a = s.r.toNat then b else s.winRead a := by
  simp only [State.winRead, pushLiteral_win, read_write _ _ _ h, eq_comm]

theorem pushLiteral_frame (b : Byte) (s : State) :
    pushLiteral b s =
      { s with win := (pushLiteral b s).win, r := (pushLiteral b s).r, outByte := (pushLiteral b s).outByte } := rfl

/-- Settles O24: executing LIT is exactly one `pushLiteral`, whose window, cursor and frame the lemmas above give. -/
theorem litPushesItsByte : Obligations.LitPushesItsByte := by
  intro b s hwin
  exact ⟨decode_sym9_setWidth b, pushLiteral b s, exec_lit b s, pushLiteral_outByte b s, pushLiteral_r_toNat b s,
    winRead_pushLiteral b hwin, pushLiteral_frame b s⟩

end Sys2Proof.Proofs
end

section
/-! SUPPORT. The byte source of the bit reader (40_bitstream.md R111). -/

namespace Sys2Proof.Proofs

open Sys2Proof.Laws

/-- Settles O15: the three outcomes of `rawByte_cases` carry exclusive conditions, so each condition fixes its outcome. -/
theorem rawByteIsSticky : Obligations.RawByteIsSticky := by
  intro s
  obtain ⟨b, heof, hbyte, hraw⟩ | ⟨heof, hraw⟩ | ⟨heof, hend, hraw⟩ := rawByte_cases s
  · simp [heof, hbyte, hraw]
  · simp [heof, hraw]
  · simp [heof, hend, hraw]

end Sys2Proof.Proofs
end

section
/-! SUPPORT. A byte request neither reads nor writes the output side of the core: it commutes with every update outside
the datapath (43_decompressor.md R180, 10_state.md R41). -/

namespace Sys2Proof.Proofs

open Sys2Proof.Config Sys2Proof.Machine Sys2Proof.Safety Sys2Proof.Laws

/-- The state `p` with the mode, the source and everything `OnlyDatapath` names taken from `s`: all that a byte request
reads or writes. -/
def onto (p s : State) : State :=
  { p with
    compressed := s.compressed
    eof := s.eof
    bitbuf := s.bitbuf
    bitcnt := s.bitcnt
    padbits := s.padbits
    tree := s.tree
    win := s.win
    r := s.r
    mstate := s.mstate
    msrc := s.msrc
    mlen := s.mlen
    copied := s.copied
    dist := s.dist
    outByte := s.outByte
    src := s.src
    spos := s.spos }

/-- Changes the state a primitive ends in. -/
def mapState {α : Type} (f : State → State) : Res α → Res α
  | .ok a s => .ok a (f s)
  | .raise e s => .raise e (f s)

@[simp] theorem mapState_ok {α : Type} (f : State → State) (a : α) (s : State) :
    mapState f (.ok a s) = .ok a (f s) := rfl

@[simp] theorem mapState_raise {α : Type} (f : State → State) (e : Err) (s : State) :
    mapState f (.raise e s : Res α) = .raise e (f s) := rfl

/-- Two primitives in a row commute with `f` where the second one does. -/
theorem bind_mapState {α β : Type} {f : State → State} {g : α → State → Res β}
    (hg : ∀ a t, g a (f t) = mapState f (g a t)) (x : Res α) : (mapState f x).bind g = mapState f (x.bind g) := by
  cases x with
  | ok a s => exact hg a s
  | raise e s => rfl

/-! ### The bit reader -/

theorem rawByte_onto (p s : State) : rawByte (onto p s) = ((rawByte s).1, onto p (rawByte s).2) := by
  obtain ⟨b, heof, hb, h⟩ | ⟨heof, h⟩ | ⟨heof, hb, h⟩ := rawByte_cases s
  · rw [h]; simp [rawByte, srcRead, onto, heof, hb]
  · rw [h]; simp [rawByte, onto, heof]
  · rw [h]; simp [rawByte, srcRead, onto, heof, hb]

theorem refillOnce_onto (p s : State) : refillOnce (onto p s) = onto p (refillOnce s) := by
  unfold refillOnce
  rw [rawByte_onto]
  obtain ⟨_ | b, t⟩ := rawByte s <;> rfl

theorem refillLoop_onto (p : State) (n : Nat) (s : State) : refillLoop n (onto p s) = onto p (refillLoop n s) := by
  induction n generalizing s with
  | zero => rfl
  | succ n ih =>
    have hcnt : (onto p s).bitcnt = s.bitcnt := rfl
    unfold refillLoop
    rw [hcnt, refillOnce_onto, ih]
    split <;> rfl

theorem refill_onto (p s : State) : refill (onto p s) = onto p (refill s) := refillLoop_onto p 2 s

theorem nextBit_onto (p s : State) : nextBit (onto p s) = ((nextBit s).1, onto p (nextBit s).2) := by
  unfold nextBit
  rw [refill_onto]
  rfl

theorem nextBits8_onto (p s : State) : nextBits8 (onto p s) = ((nextBits8 s).1, onto p (nextBits8 s).2) := by
  unfold nextBits8
  rw [refill_onto]
  rfl

theorem foldBits_onto (p : State) (n v : Nat) (s : State) :
    foldBits n v (onto p s) = ((foldBits n v s).1, onto p (foldBits n v s).2) := by
  induction n generalizing v s with
  | zero => rfl
  | succ n ih =>
    unfold foldBits
    rw [nextBit_onto]
    exact ih _ _

/-! ### Symbols, matches and byte requests -/

theorem walk_onto (p : State) (n c : Nat) (s : State) : walk n c (onto p s) = mapState (onto p) (walk n c s) := by
  induction n generalizing c s with
  | zero => unfold walk; split <;> rfl
  | succ n ih =>
    unfold walk
    rw [nextBit_onto]
    split
    · exact ih _ _
    · rfl

theorem countSymbol_onto (p : State) (sym : Nat) (s : State) :
    countSymbol sym (onto p s) = mapState (onto p) (countSymbol sym s) := by
  have htree : (onto p s).tree = s.tree := rfl
  unfold countSymbol
  rw [htree]
  cases update s.tree sym <;> rfl

theorem decodeSymbol_onto (p s : State) : decodeSymbol (onto p s) = mapState (onto p) (decodeSymbol s) := by
  unfold decodeSymbol
  rw [walk_onto]
  refine bind_mapState (fun c t => ?_) _
  split
  · exact countSymbol_onto p _ t
  · rfl

theorem positionFrom_onto (p : State) (i : BitVec 8) (s : State) :
    positionFrom i (onto p s) = onto p (positionFrom i s) := by
  unfold positionFrom
  rw [foldBits_onto]
  rfl

theorem decodePosition_onto (p s : State) : decodePosition (onto p s) = onto p (decodePosition s) := by
  unfold decodePosition
  rw [nextBits8_onto]
  exact positionFrom_onto p _ _

theorem matchEntry_onto (p : State) (k : BitVec 8) (s : State) : matchEntry k (onto p s) = onto p (matchEntry k s) := by
  have h := decodePosition_onto p { s with mlen := BitVec.ofNat 6 (matchLength k) }
  have hlen : { onto p s with mlen := BitVec.ofNat 6 (matchLength k) } =
      onto p { s with mlen := BitVec.ofNat 6 (matchLength k) } := rfl
  unfold matchEntry
  rw [hlen, h]
  rfl

theorem deliverSymbol_onto (p : State) (sym : Nat) (s : State) :
    deliverSymbol sym (onto p s) = onto p (deliverSymbol sym s) := by
  unfold deliverSymbol
  split
  · rfl
  · exact matchEntry_onto p _ s

theorem decNextByte_onto (p s : State) : decNextByte (onto p s) = mapState (onto p) (decNextByte s) := by
  have hstop : (onto p s).eofStops = s.eofStops := rfl
  have hcopy : (onto p s).copyPending = s.copyPending := rfl
  have hidle : { onto p s with mstate := .idle } = onto p { s with mstate := .idle } := rfl
  unfold decNextByte
  rw [hstop, hcopy, hidle, decodeSymbol_onto]
  split
  · rfl
  · split
    · rfl
    · refine bind_mapState (fun sym t => ?_) _
      rw [deliverSymbol_onto]
      rfl

theorem byteIn_onto (p s : State) : byteIn (onto p s) = mapState (onto p) (byteIn s) := by
  have hmode : (onto p s).compressed = s.compressed := rfl
  cases h : s.compressed with
  | false => rw [byteIn_raw h, byteIn_raw (hmode.trans h), rawByte_onto]; rfl
  | true => rw [byteIn_compressed h, byteIn_compressed (hmode.trans h), decNextByte_onto]

theorem need_onto (p s : State) : need (onto p s) = mapState (onto p) (need s) := by
  unfold need
  rw [byteIn_onto]
  refine bind_mapState (fun b t => ?_) _
  cases b <;> rfl

/-! ### Updates off the datapath -/

/-- `f` neither reads nor writes what a byte request changes: from states that differ only in the datapath it leads to
states that differ only there. -/
def OffDatapath (f : State → State) : Prop := ∀ s t : State, OnlyDatapath s t → f t = onto (f s) t

/-- A byte request commutes with an update off the datapath. -/
theorem need_commutes {f : State → State} (hf : OffDatapath f) (s : State) : need (f s) = mapState f (need s) := by
  have hfs : f s = onto (f s) s := hf s s (onlyDatapath_refl s)
  obtain ⟨t, ht, ⟨b, h⟩ | h | h⟩ := need_frame s <;> rw [hfs, need_onto, h] <;> simp only [mapState, hf s t ht]

/-- So does a run of byte requests. -/
theorem reads_commutes {f : State → State} (hf : OffDatapath f) (n : Nat) (s : State) :
    reads n (f s) = mapState f (reads n s) := by
  induction n generalizing s with
  | zero => rfl
  | succ n ih =>
    unfold reads
    rw [need_commutes hf]
    refine bind_mapState (fun b t => ?_) _
    rw [ih]
    exact bind_mapState (fun _ _ => rfl) _

theorem emit_offDatapath (b : Byte) : OffDatapath (emit b) := by
  intro s t h
  rw [h]
  rfl

theorem need_ok_commutes {f : State → State} (hf : OffDatapath f) {s t : State} {b : Byte} (h : need s = .ok b t) :
    need (f s) = .ok b (f t) := by
  rw [need_commutes hf, h, mapState_ok]

theorem need_raise_commutes {f : State → State} (hf : OffDatapath f) {s t : State} {e : Err}
    (h : need s = .raise e t) : need (f s) = .raise e (f t) := by
  rw [need_commutes hf, h, mapState_raise]

theorem reads_ok_commutes {f : State → State} (hf : OffDatapath f) {n : Nat} {s t : State} {bs : List (BitVec 8)}
    (h : reads n s = .ok bs t) : reads n (f s) = .ok bs (f t) := by
  rw [reads_commutes hf, h, mapState_ok]

/-- Stores a run count. -/
def setCnt (v : BitVec 16) (s : State) : State := { s with cnt := v }

theorem setCnt_offDatapath (v : BitVec 16) : OffDatapath (setCnt v) := by
  intro s t h
  rw [h]
  rfl

/-! ### Runs of byte requests taken apart -/

/-- A run that starts delivered its first byte, and the rest is a run. -/
theorem reads_succ_ok {n : Nat} {s t : State} {bs : List (BitVec 8)} (h : reads (n + 1) s = .ok bs t) :
    ∃ b bs' s1, bs = b :: bs' ∧ need s = .ok b s1 ∧ reads n s1 = .ok bs' t := by
  unfold reads at h
  cases hn : need s with
  | raise e s1 => rw [hn] at h; cases h
  | ok b s1 =>
    rw [hn] at h
    simp only [Res.bind] at h
    cases hr : reads n s1 with
    | raise e s2 => rw [hr] at h; cases h
    | ok bs' s2 => rw [hr] at h; cases h; exact ⟨b, bs', s1, rfl, rfl, hr⟩

theorem length_of_reads_ok {n : Nat} {s t : State} {bs : List (BitVec 8)} (h : reads n s = .ok bs t) :
    bs.length = n := by
  induction n generalizing s bs with
  | zero => cases h; rfl
  | succ n ih =>
    obtain ⟨b, bs', s1, rfl, -, hr⟩ := reads_succ_ok h
    simp [ih hr]

theorem onlyDatapath_of_need_ok {s t : State} {b : Byte} (h : need s = .ok b t) : OnlyDatapath s t := by
  obtain ⟨t', ht', ⟨b', h'⟩ | h' | h'⟩ := need_frame s <;> rw [h'] at h <;> cases h
  exact ht'

theorem onlyDatapath_of_need_raise {s t : State} {e : Err} (h : need s = .raise e t) : OnlyDatapath s t := by
  obtain ⟨t', ht', ⟨b', h'⟩ | h' | h'⟩ := need_frame s <;> rw [h'] at h <;> cases h <;> exact ht'

theorem onlyDatapath_of_reads_ok {n : Nat} {s t : State} {bs : List (BitVec 8)} (h : reads n s = .ok bs t) :
    OnlyDatapath s t := by
  induction n generalizing s bs with
  | zero => cases h; exact onlyDatapath_refl _
  | succ n ih =>
    obtain ⟨b, bs', s1, -, hn, hr⟩ := reads_succ_ok h
    exact onlyDatapath_trans (onlyDatapath_of_need_ok hn) (ih hr)

end Sys2Proof.Proofs
end

section
/-! SUPPORT. Runs of output bytes: what the emit loops of the payload methods leave in OUTBUF (44_sector_payload.md
R200-R202, R205). -/

namespace Sys2Proof.Proofs

open Sys2Proof.Config Sys2Proof.Machine Sys2Proof.Safety Sys2Proof.Laws

/-- Emits several bytes, first byte first. -/
def emitAll : List Byte → State → State
  | [], s => s
  | b :: bs, s => emitAll bs (emit b s)

theorem emitAll_offDatapath (bs : List Byte) : OffDatapath (emitAll bs) := by
  induction bs with
  | nil => intro s t h; rw [h]; rfl
  | cons b bs ih =>
    intro s t h
    have hb : OnlyDatapath (emit b s) (emit b t) := by unfold OnlyDatapath; rw [h]; rfl
    exact ih _ _ hb

/-- Emitting changes OUTBUF and its index only. -/
theorem emitAll_frame (bs : List Byte) (s : State) :
    emitAll bs s = { s with outbuf := (emitAll bs s).outbuf, w := (emitAll bs s).w } := by
  induction bs generalizing s with
  | nil => rfl
  | cons b bs ih => exact ih (emit b s)

theorem emit_w_toNat (b : Byte) {s : State} (h : s.w.toNat < OUTBUF_SIZE) : (emit b s).w.toNat = s.w.toNat + 1 := by
  have hone : (1 : BitVec 14).toNat = 1 := rfl
  rw [emit_w, BitVec.toNat_add, hone, Nat.mod_eq_of_lt (by simp only [OUTBUF_SIZE] at h; omega)]

theorem emit_outbuf_wf (b : Byte) {s : State} (h : s.outbuf.wf 0) : (emit b s).outbuf.wf 0 := by
  rw [emit_outbuf]
  split
  · exact write_wf _ _ h
  · exact h

theorem outRead_emit (b : Byte) {s : State} (hwf : s.outbuf.wf 0) (h : s.w.toNat < OUTBUF_SIZE) (a : Nat) :
    (emit b s).outRead a = if s.w.toNat = a then b else s.outRead a := by
  simp only [State.outRead, emit_outbuf, if_pos h, read_write _ _ _ hwf]

theorem emitAll_w_toNat {bs : List Byte} {s : State} (h : s.w.toNat + bs.length ≤ OUTBUF_SIZE) :
    (emitAll bs s).w.toNat = s.w.toNat + bs.length := by
  induction bs generalizing s with
  | nil => rfl
  | cons b bs ih =>
    rw [List.length_cons] at h ⊢
    have hw := emit_w_toNat b (s := s) (by omega)
    rw [emitAll, ih (by omega), hw]
    omega

/-- The bytes emitted stand from `w` on, and every other byte of OUTBUF is as it was. -/
theorem outRead_emitAll {bs : List Byte} {s : State} (hwf : s.outbuf.wf 0) (h : s.w.toNat + bs.length ≤ OUTBUF_SIZE)
    (a : Nat) :
    (emitAll bs s).outRead a =
      if s.w.toNat ≤ a ∧ a < s.w.toNat + bs.length then bs.getD (a - s.w.toNat) 0 else s.outRead a := by
  induction bs generalizing s with
  | nil => rw [emitAll, if_neg (by simp only [List.length_nil]; omega)]
  | cons b bs ih =>
    rw [List.length_cons] at h ⊢
    have hlt : s.w.toNat < OUTBUF_SIZE := by omega
    have hw := emit_w_toNat b hlt
    rw [emitAll, ih (emit_outbuf_wf b hwf) (by omega), hw, outRead_emit b hwf hlt]
    by_cases ha : s.w.toNat = a
    · subst ha
      rw [if_neg (by omega), if_pos rfl, if_pos (by omega), Nat.sub_self, List.getD_cons_zero]
    · by_cases hin : s.w.toNat + 1 ≤ a ∧ a < s.w.toNat + 1 + bs.length
      · rw [if_pos hin, if_pos (by omega), show a - s.w.toNat = a - (s.w.toNat + 1) + 1 by omega, List.getD_cons_succ]
      · rw [if_neg hin, if_neg ha, if_neg (by omega)]

/-- Where `k` bytes arrive, a copy of `k + m` bytes emits them and goes on with `m` more. -/
theorem copyThrough_add_of_reads {k : Nat} (m : Nat) {s t : State} {bs : List (BitVec 8)} (h : reads k s = .ok bs t) :
    copyThrough (k + m) s = copyThrough m (emitAll bs t) := by
  induction k generalizing s bs t with
  | zero => cases h; rw [Nat.zero_add]; rfl
  | succ k ih =>
    obtain ⟨b, bs', s1, rfl, hn, hr⟩ := reads_succ_ok h
    calc copyThrough (k + 1 + m) s = copyThrough (k + m) (emit b s1) := by rw [Nat.succ_add, copyThrough, hn]
      _ = copyThrough m (emitAll bs' (emit b t)) := ih (reads_ok_commutes (emit_offDatapath b) hr)

/-- A copy whose bytes all arrive emits them (R201, R205). -/
theorem copyThrough_of_reads {n : Nat} {s t : State} {bs : List (BitVec 8)} (h : reads n s = .ok bs t) :
    copyThrough n s = .ok () (emitAll bs t) := copyThrough_add_of_reads 0 h

/-- A copy that misses the byte after the first `k` emits those `k` and ends in the error of the miss. -/
theorem copyThrough_raises {k n : Nat} {s s1 t : State} {bs : List (BitVec 8)} {e : Err} (hk : k < n)
    (h : reads k s = .ok bs s1) (hmiss : need s1 = .raise e t) : copyThrough n s = .raise e (emitAll bs t) := by
  obtain ⟨m, rfl⟩ : ∃ m, n = k + (m + 1) := ⟨n - k - 1, by omega⟩
  rw [copyThrough_add_of_reads _ h, copyThrough, need_raise_commutes (emitAll_offDatapath bs) hmiss]

/-- What stands in OUTBUF when byte requests have led from `s` to `t`, a run count has been stored, and `k` bytes have
been emitted. -/
theorem emitAll_setCnt_effect {s t u : State} {bs : List Byte} {k : Nat} {v : BitVec 16} (hst : OnlyDatapath s t)
    (hwf : s.outbuf.wf 0) (hlen : bs.length = k) (hroom : s.w.toNat + k ≤ OUTBUF_SIZE)
    (hu : u = emitAll bs (setCnt v t)) :
    u = { t with outbuf := u.outbuf, w := u.w, cnt := v } ∧ u.w.toNat = s.w.toNat + k ∧
    ∀ a, u.outRead a = if s.w.toNat ≤ a ∧ a < s.w.toNat + k then bs.getD (a - s.w.toNat) 0 else s.outRead a := by
  have hw : (setCnt v t).w = s.w := by rw [hst]; rfl
  have hout : (setCnt v t).outbuf = s.outbuf := by rw [hst]; rfl
  have hread : (setCnt v t).outRead = s.outRead := by unfold State.outRead; rw [hout]
  rw [← hw, ← hread]
  rw [← hw] at hroom
  rw [← hout] at hwf
  subst hu hlen
  exact ⟨emitAll_frame bs _, emitAll_w_toNat hroom, outRead_emitAll hwf hroom⟩

end Sys2Proof.Proofs
end

section
/-! SUPPORT. A literal block (44_sector_payload.md R205). -/

namespace Sys2Proof.Proofs

open Sys2Proof.Config Sys2Proof.Machine Sys2Proof.Safety Sys2Proof.Laws

theorem exec_blkLiteral {s : State} (h : s.w.toNat + s.remaining.toNat ≤ OUTBUF_SIZE) :
    exec .blkLiteral s = .next (blkLiteral s).settle := if_pos h

theorem blkLiteral_of_need_raise {s t : State} {e : Err} (h : need s = .raise e t) : blkLiteral s = .raise e t := by
  rw [blkLiteral, h]
  rfl

/-- Once the count has arrived, a literal block is a copy of the clamped count. -/
theorem blkLiteral_of_need_ok {s s1 : State} {c : Byte} {n : Nat} (h : need s = .ok c s1)
    (hn : n = min c.toNat s.remaining.toNat) :
    blkLiteral s = (copyThrough n (setCnt (BitVec.ofNat 16 n) s1)).bind fun _ s2 =>
      .ok () { s2 with remaining := s2.remaining - BitVec.ofNat 14 n } := by
  have hrem : s1.remaining = s.remaining := by rw [onlyDatapath_of_need_ok h]
  rw [blkLiteral, h, hn, ← hrem]
  rfl

/-- A literal block whose bytes all arrive emits them and takes them off what remains. -/
theorem blkLiteral_of_reads {s s1 t u : State} {c : Byte} {n : Nat} {bs : List (BitVec 8)} (hc : need s = .ok c s1)
    (hn : n = min c.toNat s.remaining.toNat) (hbs : reads n s1 = .ok bs t)
    (hu : u = emitAll bs (setCnt (BitVec.ofNat 16 n) t)) :
    blkLiteral s = .ok () { u with remaining := u.remaining - BitVec.ofNat 14 n } := by
  rw [blkLiteral_of_need_ok hc hn, copyThrough_of_reads (reads_ok_commutes (setCnt_offDatapath _) hbs), hu]
  rfl

/-- A literal block that misses the byte after the first `k` emits those `k` and raises (R205, R263). -/
theorem blkLiteral_of_miss {s s1 s2 t : State} {c : Byte} {n k : Nat} {bs : List (BitVec 8)} {e : Err}
    (hc : need s = .ok c s1) (hn : n = min c.toNat s.remaining.toNat) (hk : k < n) (hbs : reads k s1 = .ok bs s2)
    (hmiss : need s2 = .raise e t) : blkLiteral s = .raise e (emitAll bs (setCnt (BitVec.ofNat 16 n) t)) := by
  have hcnt := setCnt_offDatapath (BitVec.ofNat 16 n)
  rw [blkLiteral_of_need_ok hc hn,
    copyThrough_raises hk (reads_ok_commutes hcnt hbs) (need_raise_commutes hcnt hmiss)]
  rfl

/-- Settles O36: once the count has arrived, the requests of the clamped run decide which prefix of it is emitted, since
storing the count and emitting bytes commute with byte requests. -/
theorem blkLiteralTokenCopiesItsRun : Obligations.BlkLiteralTokenCopiesItsRun := by
  intro s t hwf hroom
  rw [exec_blkLiteral hroom]
  refine ⟨fun e h => ⟨_, rfl, by rw [blkLiteral_of_need_raise h]; rfl⟩,
    fun s1 c bs n hc hn => ⟨fun hbs => ?_, fun k s2 e hk hbs hmiss => ?_⟩⟩
  · have hst := onlyDatapath_trans (onlyDatapath_of_need_ok hc) (onlyDatapath_of_reads_ok hbs)
    have hrem : t.remaining = s.remaining := by rw [hst]
    have hn8 : n < 2 ^ 8 := (hn.trans_le (Nat.min_le_left _ _)).trans_lt c.isLt
    have hn16 : (BitVec.ofNat 16 n).toNat = n := Nat.mod_eq_of_lt (by omega)
    have hn14 : (BitVec.ofNat 14 n).toNat = n := Nat.mod_eq_of_lt (by omega)
    have hle : BitVec.ofNat 14 n ≤ t.remaining := by rw [BitVec.le_def, hn14, hrem]; omega
    have hblk := blkLiteral_of_reads hc hn hbs rfl
    obtain ⟨hframe, hw, hread⟩ := emitAll_setCnt_effect (v := BitVec.ofNat 16 n) hst hwf (length_of_reads_ok hbs)
      (by omega) rfl
    generalize emitAll bs (setCnt (BitVec.ofNat 16 n) t) = u at *
    rw [hblk]
    refine ⟨_, rfl, by rw [hframe]; rfl, by rw [hframe]; exact hn16, hw, ?_, hread⟩
    calc (u.remaining - BitVec.ofNat 14 n).toNat = (t.remaining - BitVec.ofNat 14 n).toNat := by rw [hframe]
      _ = s.remaining.toNat - n := by rw [BitVec.toNat_sub_of_le hle, hn14, hrem]
  · have hst := onlyDatapath_trans (onlyDatapath_of_need_ok hc)
      (onlyDatapath_trans (onlyDatapath_of_reads_ok hbs) (onlyDatapath_of_need_raise hmiss))
    have hblk := blkLiteral_of_miss hc hn hk hbs hmiss
    obtain ⟨hframe, hw, hread⟩ := emitAll_setCnt_effect (v := BitVec.ofNat 16 n) hst hwf (length_of_reads_ok hbs)
      (by omega) rfl
    generalize emitAll bs (setCnt (BitVec.ofNat 16 n) t) = u at *
    rw [hblk]
    exact ⟨_, rfl, by rw [hframe]; rfl, hw, hread⟩

end Sys2Proof.Proofs
end

section
/-! SUPPORT. The DECODE commands: the checks before the payload (44_sector_payload.md R207, 60_exceptions.md R264, R267)
and method 1 in a command (R202, R203). -/

namespace Sys2Proof.Proofs

open Sys2Proof.Config Sys2Proof.Machine Sys2Proof.Safety Sys2Proof.Laws

/-! ### The checks -/

/-- Only TreeInvariantViolation sets FAULTED (R265). -/
theorem raiseErr_of_ne {e : Err} (h : e ≠ .treeInvariantViolation) (s : State) :
    raiseErr e s = { s with err := e } := by
  simp [raiseErr, h]

theorem exec_decodeLen {s : State} (h : Ready s) (m : BitVec 8) (n : BitVec 16) :
    exec (.decodeLen m n) s = .next (decodeLen m n s) := congrArg _ (accept_ready _ h)

theorem exec_decodeSector {s : State} (h : Ready s) (m sc : BitVec 8) :
    exec (.decodeSector m sc) s = .next (decodeSector m sc s) := congrArg _ (accept_ready _ h)

theorem decodeLen_of_lt {n : BitVec 16} (h : MAX_TARGET < n.toNat) (m : BitVec 8) (s : State) :
    decodeLen m n s = raiseErr .invalidSizeCode { s with shortFill := false, outlen := 0 } := if_pos h

theorem decodeLen_of_le {n : BitVec 16} (h : n.toNat ≤ MAX_TARGET) (m : BitVec 8) (s : State) :
    decodeLen m n s = decodeCommand m n.toNat { s with shortFill := false, outlen := 0 } := if_neg (Nat.not_lt.mpr h)

theorem decodeSector_of_lt {sc : BitVec 8} (h : 6 < sc.toNat) (m : BitVec 8) (s : State) :
    decodeSector m sc s = raiseErr .invalidSizeCode { s with shortFill := false, outlen := 0 } := if_pos h

theorem decodeSector_of_le {sc : BitVec 8} (h : sc.toNat ≤ 6) (m : BitVec 8) (s : State) :
    decodeSector m sc s = decodeCommand m (targetOfSizeCode sc) { s with shortFill := false, outlen := 0 } :=
  if_neg (Nat.not_lt.mpr h)

/-- An unknown method raises before anything else happens (R207). -/
theorem decodeCommand_unknown {m : BitVec 8} (h : 2 < m.toNat) (target : Nat) (s : State) :
    decodeCommand m target s = raiseErr .unknownCompressionMethod s := by
  obtain ⟨-, hp⟩ | ⟨hm, -⟩ := decodePayload_cases m target s
  · rw [decodeCommand, hp]
  · omega

/-- Settles O47: the size check comes first in both commands, and each refusal is one `raiseErr` of the cleared
state. -/
theorem sizeThenMethodChecks : Obligations.SizeThenMethodChecks := by
  intro s hs
  have hsize := raiseErr_of_ne (e := .invalidSizeCode) (by decide)
  have hmethod := raiseErr_of_ne (e := .unknownCompressionMethod) (by decide)
  refine ⟨fun m sc hsc => ?_, fun m n hn => ?_, fun m sc hsc hm => ?_, fun m n hn hm => ?_⟩
  · rw [exec_decodeSector hs, decodeSector_of_lt hsc, hsize]
  · rw [exec_decodeLen hs, decodeLen_of_lt hn, hsize]
  · rw [exec_decodeSector hs, decodeSector_of_le hsc, decodeCommand_unknown hm, hmethod]
  · rw [exec_decodeLen hs, decodeLen_of_le hn, decodeCommand_unknown hm, hmethod]

/-! ### Method 1 -/

/-- `m` bytes, `b1` and `b2` in turn. -/
def alternating (b1 b2 : Byte) : Nat → List Byte
  | 0 => []
  | m + 1 => b1 :: alternating b2 b1 m

@[simp] theorem length_alternating (b1 b2 : Byte) (m : Nat) : (alternating b1 b2 m).length = m := by
  induction m generalizing b1 b2 with
  | zero => rfl
  | succ m ih => simp [alternating, ih]

theorem getD_alternating (b1 b2 : Byte) {m k : Nat} (h : k < m) :
    (alternating b1 b2 m).getD k 0 = if k % 2 = 0 then b1 else b2 := by
  induction m generalizing b1 b2 k with
  | zero => omega
  | succ m ih =>
    cases k with
    | zero => rfl
    | succ k =>
      rw [alternating, List.getD_cons_succ, ih b2 b1 (by omega)]
      obtain hk | hk := Nat.mod_two_eq_zero_or_one k
      · rw [if_pos hk, if_neg (by omega)]
      · rw [if_neg (by omega), if_pos (by omega)]

theorem repeatPair_of_full (b1 b2 : Byte) (n : Nat) {s : State} (h : s.tgt.toNat ≤ s.w.toNat) :
    repeatPair b1 b2 n s = s := by
  cases n with
  | zero => rfl
  | succ n => simp only [repeatPair, if_neg (Nat.not_lt.mpr h), if_pos h]

theorem repeatPair_of_one_left (b1 b2 : Byte) (n : Nat) {s : State} (h : s.tgt.toNat ≤ OUTBUF_SIZE)
    (hw : s.w.toNat + 1 = s.tgt.toNat) : repeatPair b1 b2 (n + 1) s = emit b1 s := by
  have h1 : s.w.toNat < s.tgt.toNat := by omega
  have hfull : (emit b1 s).tgt.toNat ≤ (emit b1 s).w.toNat := by
    rw [emit_w_toNat b1 (by omega), emit_tgt, hw]
  simp only [repeatPair, if_pos h1, if_neg (Nat.not_lt.mpr hfull), if_pos hfull]

theorem repeatPair_of_two_left (b1 b2 : Byte) (n : Nat) {s : State} (h : s.tgt.toNat ≤ OUTBUF_SIZE)
    (hw : s.w.toNat + 2 ≤ s.tgt.toNat) : repeatPair b1 b2 (n + 1) s = repeatPair b1 b2 n (emit b2 (emit b1 s)) := by
  have h1 : s.w.toNat < s.tgt.toNat := by omega
  have h2 : (emit b1 s).w.toNat < (emit b1 s).tgt.toNat := by
    rw [emit_w_toNat b1 (by omega), emit_tgt]; omega
  simp only [repeatPair, if_pos h1, if_pos h2]
  split
  case isTrue hfull => exact (repeatPair_of_full b1 b2 n hfull).symm
  case isFalse => rfl

/-- The loop of method 1 emits the pair in turn until the count or the target is used up (R202). -/
theorem repeatPair_eq_emitAll (b1 b2 : Byte) (n : Nat) {s : State} (h : s.tgt.toNat ≤ OUTBUF_SIZE) :
    repeatPair b1 b2 n s = emitAll (alternating b1 b2 (min (2 * n) (s.tgt.toNat - s.w.toNat))) s := by
  induction n generalizing s with
  | zero => rw [Nat.mul_zero, Nat.zero_min]; rfl
  | succ n ih =>
    obtain hfull | hone | htwo :
        s.tgt.toNat ≤ s.w.toNat ∨ s.w.toNat + 1 = s.tgt.toNat ∨ s.w.toNat + 2 ≤ s.tgt.toNat := by omega
    · rw [repeatPair_of_full b1 b2 _ hfull, show min (2 * (n + 1)) (s.tgt.toNat - s.w.toNat) = 0 by omega]
      rfl
    · rw [repeatPair_of_one_left b1 b2 n h hone, show min (2 * (n + 1)) (s.tgt.toNat - s.w.toNat) = 1 by omega]
      rfl
    · have hw1 := emit_w_toNat b1 (s := s) (by omega)
      have hw2 := emit_w_toNat b2 (s := emit b1 s) (by omega)
      have hroom : min (2 * (n + 1)) (s.tgt.toNat - s.w.toNat) =
          min (2 * n) ((emit b2 (emit b1 s)).tgt.toNat - (emit b2 (emit b1 s)).w.toNat) + 2 := by
        rw [hw2, hw1, emit_tgt, emit_tgt]; omega
      rw [repeatPair_of_two_left b1 b2 n h htwo, ih (s := emit b2 (emit b1 s)) h, hroom]
      rfl

/-- What the loop of method 1 leaves in OUTBUF. -/
theorem repeatPair_effect {b1 b2 : Byte} {n m : Nat} {s u : State} (hwf : s.outbuf.wf 0)
    (hw : s.w.toNat ≤ OUTBUF_SIZE) (htgt : s.tgt.toNat ≤ OUTBUF_SIZE)
    (hm : m = min (2 * n) (s.tgt.toNat - s.w.toNat)) (hu : u = repeatPair b1 b2 n s) :
    u = { s with outbuf := u.outbuf, w := u.w } ∧ u.w.toNat = s.w.toNat + m ∧
    ∀ a, u.outRead a =
      if s.w.toNat ≤ a ∧ a < s.w.toNat + m then (if (a - s.w.toNat) % 2 = 0 then b1 else b2) else s.outRead a := by
  have hlen : s.w.toNat + (alternating b1 b2 m).length ≤ OUTBUF_SIZE := by rw [length_alternating]; omega
  rw [repeatPair_eq_emitAll b1 b2 n htgt, ← hm] at hu
  subst hu
  refine ⟨emitAll_frame _ s, by rw [emitAll_w_toNat hlen, length_alternating], fun a => ?_⟩
  rw [outRead_emitAll hwf hlen, length_alternating]
  split
  case isTrue ha => exact getD_alternating b1 b2 (by omega)
  case isFalse => rfl

theorem wordLe_toNat (lo hi : Byte) : (wordLe lo hi).toNat = hi.toNat * 256 + lo.toNat := append_toNat hi lo

/-- Method 1 once its record has arrived: the count is kept, the pair repeated, and the result says whether the target
was missed (R202, R203). -/
theorem method1_of_reads {s t u : State} {lo hi b1 b2 : Byte} (h : reads 4 s = .ok [lo, hi, b1, b2] t)
    (hu : u = repeatPair b1 b2 (wordLe lo hi).toNat (setCnt (wordLe lo hi) t)) :
    method1 s = .ok () { u with short := u.shortOf } := by
  have hcnt := setCnt_offDatapath (wordLe lo hi)
  obtain ⟨_, _, s1, e1, h1, h⟩ := reads_succ_ok h
  obtain ⟨_, _, s2, e2, h2, h⟩ := reads_succ_ok h
  obtain ⟨_, _, s3, e3, h3, h⟩ := reads_succ_ok h
  obtain ⟨_, _, s4, e4, h4, h⟩ := reads_succ_ok h
  cases e1; cases e2; cases e3; cases e4; cases h
  have h3' : need { s2 with cnt := wordLe lo hi } = .ok b1 (setCnt (wordLe lo hi) s3) := need_ok_commutes hcnt h3
  simp only [method1, h1, h2, h3', need_ok_commutes hcnt h4, Res.bind, hu]
  rfl

/-- The state in which a DECODE command with target size `n` starts its method: the results and `OUTBUF[0..n-1]` cleared
(R200, R234, R235). -/
def decodeStart (n : Nat) (s : State) : State :=
  { s with
    shortFill := false
    outlen := 0
    outbuf := s.outbuf.clearBelow n
    w := 0
    tgt := BitVec.ofNat 14 n
    short := false }

theorem decodeStart_offDatapath (n : Nat) : OffDatapath (decodeStart n) := by
  intro s t h
  rw [h]
  rfl

theorem outRead_decodeStart (n : Nat) (s : State) (a : Nat) :
    (decodeStart n s).outRead a = if a < n then 0 else s.outRead a := read_clearBelow s.outbuf n a

theorem decodeStart_outbuf_wf (n : Nat) {s : State} (h : s.outbuf.wf 0) : (decodeStart n s).outbuf.wf 0 :=
  clearBelow_wf n h

/-- A DECODE of method 1 ends in success where its method does (R236). -/
theorem exec_decodeLen_repeat2 {s u : State} {n : BitVec 16} (hs : Ready s) (hn : n.toNat ≤ MAX_TARGET)
    (h : method1 (decodeStart n.toNat s) = .ok () u) :
    exec (.decodeLen 1 n) s =
      .next { u with shortFill := u.short, outlen := BitVec.ofNat 14 n.toNat, err := .success } := by
  have hp : decodePayload 1 n.toNat { s with shortFill := false, outlen := 0 } = .ok () u := h
  rw [exec_decodeLen hs, decodeLen_of_le hn, decodeCommand, hp]

/-- What the loop of method 1 leaves in a DECODE command with target size `n` and count `v`: the pair in turn up to the
count or the target, and 0x00 where it does not reach (R202, R203). -/
theorem repeatPair_decodeStart_effect {b1 b2 : Byte} {n : Nat} {v : BitVec 16} {t u : State} (hwf : t.outbuf.wf 0)
    (hn : n ≤ MAX_TARGET) (hu : u = repeatPair b1 b2 v.toNat (setCnt v (decodeStart n t))) :
    u = { decodeStart n t with outbuf := u.outbuf, w := u.w, cnt := v } ∧ u.shortOf = decide (2 * v.toNat < n) ∧
    ∀ a, u.outRead a =
      if a < n then (if a < 2 * v.toNat then (if a % 2 = 0 then b1 else b2) else 0) else t.outRead a := by
  have htgt : (setCnt v (decodeStart n t)).tgt.toNat = n :=
    Nat.mod_eq_of_lt (by simp only [MAX_TARGET] at hn; omega)
  have hw0 : (setCnt v (decodeStart n t)).w.toNat = 0 := rfl
  obtain ⟨hframe, hw, hread⟩ := repeatPair_effect (m := min (2 * v.toNat) n)
    (s := setCnt v (decodeStart n t)) (decodeStart_outbuf_wf n hwf) (Nat.zero_le _) (htgt.trans_le hn)
    (by rw [htgt, hw0, Nat.sub_zero]) hu
  rw [hw0, Nat.zero_add] at hw
  refine ⟨hframe, decide_eq_decide.mpr ?_, fun a => ?_⟩
  · have hutgt : u.tgt.toNat = n := by rw [hframe]; exact htgt
    rw [hw, hutgt]
    omega
  · have hclear : (setCnt v (decodeStart n t)).outRead a = if a < n then 0 else t.outRead a :=
      outRead_decodeStart n t a
    rw [hread, hclear, hw0, Nat.zero_add, Nat.sub_zero]
    by_cases hin : a < min (2 * v.toNat) n
    · obtain ⟨hcount, htarget⟩ := lt_min_iff.mp hin
      rw [if_pos ⟨Nat.zero_le a, hin⟩, if_pos htarget, if_pos hcount]
    · rw [if_neg fun h => hin h.2]
      split
      case isTrue htarget => rw [if_neg (by omega)]
      case isFalse => rfl

/-- Settles O51: the record commutes with the clears of the command, and the loop of method 1 runs on the cleared
target. -/
theorem decodeRepeat2 : Obligations.DecodeRepeat2 := by
  intro s t n lo hi b1 b2 count hs hwf hn hrec hcount
  have hst := onlyDatapath_of_reads_ok hrec
  have htwf : t.outbuf.wf 0 := by rw [hst]; exact hwf
  have htread : t.outRead = s.outRead := by rw [hst]; rfl
  have hv : (wordLe lo hi).toNat = count := (wordLe_toNat lo hi).trans hcount.symm
  have hmethod := method1_of_reads (reads_ok_commutes (decodeStart_offDatapath n.toNat) hrec) rfl
  have heffect := repeatPair_decodeStart_effect (b1 := b1) (b2 := b2) (v := wordLe lo hi) htwf hn rfl
  generalize repeatPair b1 b2 (wordLe lo hi).toNat (setCnt (wordLe lo hi) (decodeStart n.toNat t)) = u at *
  rw [hv, htread] at heffect
  obtain ⟨hframe, hshort, hread⟩ := heffect
  have houtlen : (BitVec.ofNat 14 n.toNat).toNat = n.toNat :=
    Nat.mod_eq_of_lt (by simp only [MAX_TARGET] at hn; omega)
  exact ⟨_, exec_decodeLen_repeat2 hs hn hmethod, rfl, houtlen, hshort, by rw [hframe]; rfl, by rw [hframe]; rfl,
    hread⟩

end Sys2Proof.Proofs
end

section
/-! SUPPORT. The READ commands: how a byte request's answer becomes the command's (45_host_commands.md R232, R233). -/

namespace Sys2Proof.Proofs

open Sys2Proof.Config Sys2Proof.Machine Sys2Proof.Safety Sys2Proof.Laws

theorem onlyDatapath_of_byteIn_ok {s t : State} {b : Option Byte} (h : byteIn s = .ok b t) : OnlyDatapath s t := by
  obtain ⟨t', ht', ⟨b', h'⟩ | h'⟩ := byteIn_frame s <;> rw [h'] at h <;> cases h
  exact ht'

theorem exec_readByte {s : State} (h : Ready s) : exec .readByte s = .next (readByte s) :=
  congrArg _ (accept_ready _ h)

theorem exec_readWordLe {s : State} (h : Ready s) : exec .readWordLe s = .next (readWordLe s) :=
  congrArg _ (accept_ready _ h)

/-- A READ the source cannot serve leaves 0 in DATA (R27). -/
theorem finishRead_none (s : State) : finishRead (.ok none s) = { s with data := 0, err := .streamExhausted } :=
  raiseErr_of_ne (by decide) _

theorem readByte_of_byteIn {s t : State} {b : Option Byte} (h : byteIn s = .ok b t) :
    readByte s = finishRead (.ok (b.map (BitVec.setWidth 16)) t) := by
  rw [readByte, h]; rfl

theorem wordIn_of_bytes {s t u : State} {lo hi : Byte} (hlo : byteIn s = .ok (some lo) t)
    (hhi : byteIn t = .ok (some hi) u) : wordIn s = .ok (some (wordLe lo hi)) u := by
  simp only [wordIn, hlo, hhi, Res.bind]

/-- The first byte stays consumed: the word request ends where the second byte's did (R187). -/
theorem wordIn_of_second_missing {s t u : State} {lo : Byte} (hlo : byteIn s = .ok (some lo) t)
    (hhi : byteIn t = .ok none u) : wordIn s = .ok none u := by
  simp only [wordIn, hlo, hhi, Res.bind]

theorem wordIn_of_first_missing {s t : State} (hlo : byteIn s = .ok none t) : wordIn s = .ok none t := by
  simp only [wordIn, hlo, Res.bind]

theorem wordLe_eq_ofNat (lo hi : Byte) : wordLe lo hi = BitVec.ofNat 16 (hi.toNat * 256 + lo.toNat) := by
  rw [← wordLe_toNat, BitVec.ofNat_toNat, BitVec.setWidth_eq]

/-- Settles O43: the command is `finishRead` of what the byte request answers. -/
theorem readByteResult : Obligations.ReadByteResult := by
  intro s t hs
  refine ⟨fun b => onlyDatapath_of_byteIn_ok, fun b hb => ?_, fun hend => ?_⟩
  · rw [exec_readByte hs, readByte_of_byteIn hb]; rfl
  · rw [exec_readByte hs, readByte_of_byteIn hend]; exact congrArg _ (finishRead_none t)

/-- Settles O44: the command is `finishRead` of the word request, which `wordIn_of_*` give for each place a byte can be
missing. -/
theorem readWordResult : Obligations.ReadWordResult := by
  intro s t u hs
  refine ⟨fun b => onlyDatapath_of_byteIn_ok, fun lo hi hlo hhi => ?_, fun lo hlo hhi => ?_, fun hlo => ?_⟩
  · rw [exec_readWordLe hs, readWordLe, wordIn_of_bytes hlo hhi, wordLe_eq_ofNat]; rfl
  · rw [exec_readWordLe hs, readWordLe, wordIn_of_second_missing hlo hhi, finishRead_none]
  · rw [exec_readWordLe hs, readWordLe, wordIn_of_first_missing hlo, finishRead_none]

end Sys2Proof.Proofs
end

section
/-! SUPPORT. Command acceptance: what the decoder makes of a word written to CMD (30_encoding.md R80-R82), and the checks
before the command's own work (45_host_commands.md R230, R237). -/

namespace Sys2Proof.Proofs

open Sys2Proof.Config Sys2Proof.Machine Sys2Proof.Safety Sys2Proof.Laws

/-! ### The decoder against R82 -/

theorem toNat_extractLsb'_eq {n : Nat} (x : BitVec n) (start len : Nat) :
    (x.extractLsb' start len).toNat = x.toNat / 2 ^ start % 2 ^ len := by
  rw [BitVec.extractLsb'_toNat, Nat.shiftRight_eq_div_pow]

theorem extractLsb'_eq_zero_iff {n : Nat} (x : BitVec n) (start len : Nat) :
    x.extractLsb' start len = 0 ↔ x.toNat / 2 ^ start % 2 ^ len = 0 := by
  rw [← toNat_extractLsb'_eq]
  exact (BitVec.toNat_inj (y := 0)).symm

/-- A word is legal when its opcode is one of the five and every field that must be 0 for that opcode is 0 (R81, R82). -/
theorem illegalWord_eq_false_iff (word : BitVec 32) :
    illegalWord word = false ↔
      1 ≤ word.toNat % 16 ∧ word.toNat % 16 ≤ 5 ∧ word.toNat / 16 % 16 = 0 ∧
      (word.toNat % 16 = 1 → word.toNat / 256 % 256 < 2 ∧ word.toNat / 65536 = 0) ∧
      (word.toNat % 16 = 2 → word.toNat / 256 % 256 = 0 ∧ word.toNat / 65536 = 0) ∧
      (word.toNat % 16 = 3 → word.toNat / 256 % 256 = 0 ∧ word.toNat / 65536 = 0) ∧
      (word.toNat % 16 = 4 → word.toNat / 65536 < 256) := by
  simp only [illegalWord, decide_eq_false_iff_not]
  omega

/-- What R82 asks of an answer `r` to a command word: an illegal word is refused for its opcode or a field, and a legal
one is a command, INIT where its opcode is 1. -/
def AnswersCommand (word : BitVec 32) (r : Except Reject Instr) : Prop :=
  (illegalWord word = true → ∃ e, r = .error e ∧ (e = .reservedOpcode ∨ e = .reservedField)) ∧
  (illegalWord word = false → ∃ i, r = .ok i ∧ isCommand i = true ∧ (isInit i = true ↔ word.toNat % 16 = 1))

/-- One arm of the decoder: the check of the fields that must be 0 for its opcode, then the command. -/
theorem answersCommand_checked {word : BitVec 32} {fields : Prop} [Decidable fields] {i : Instr}
    (hfields : illegalWord word = false ↔ fields) (hi : isCommand i = true)
    (hop : isInit i = true ↔ word.toNat % 16 = 1) :
    AnswersCommand word (if fields then .ok i else .error .reservedField) := by
  refine ⟨fun hbad => ⟨_, if_neg fun h => ?_, .inr rfl⟩, fun hgood => ⟨i, if_pos (hfields.mp hgood), hi, hop⟩⟩
  exact absurd (hfields.mpr h) (by simp [hbad])

/-- The decoder refuses exactly the words R82 calls illegal, and reads INIT from opcode 1 alone. -/
theorem decodeCmd_answersCommand (word : BitVec 32) : AnswersCommand word (decodeCmd word) := by
  have hword := word.isLt
  have hlegal := illegalWord_eq_false_iff word
  unfold decodeCmd
  simp only [toNat_extractLsb'_eq, extractLsb'_eq_zero_iff, Nat.reducePow]
  split
  case h_1 => exact answersCommand_checked (hlegal.trans (by omega)) rfl (iff_of_true rfl (by omega))
  case h_2 | h_3 | h_4 | h_5 =>
    exact answersCommand_checked (hlegal.trans (by omega)) rfl (iff_of_false Bool.false_ne_true (by omega))
  case h_6 h1 h2 h3 h4 h5 =>
    refine ⟨fun _ => ⟨_, rfl, .inl rfl⟩, fun hgood => ?_⟩
    simp only [imp_false] at h1 h2 h3 h4 h5
    have hop := hlegal.mp hgood
    omega

/-! ### The checks of R230 -/

theorem rejected_reserved {e : Reject} (h : e = .reservedOpcode ∨ e = .reservedField) (s : State) :
    rejected e s = { s with err := .illegalCommand } := by
  obtain rfl | rfl := h <;> exact raiseErr_of_ne (by decide) s

theorem accept_of_not_inited {s : State} (body : State → State) (h : s.inited = false) :
    accept body s = { s with err := .illegalCommand } := by
  have hrefused : accept body s = illegal s := by simp [accept, h]
  exact hrefused.trans (raiseErr_of_ne (by decide) s)

theorem accept_of_faulted {s : State} (body : State → State) (hi : s.inited = true) (hf : s.faulted = true) :
    accept body s = { s with err := .treeInvariantViolation } := by
  simp [accept, hi, hf]

/-- Every command but INIT does its own work behind the acceptance checks (R230). -/
theorem exec_eq_accept {i : Instr} (hcmd : isCommand i = true) (hinit : isInit i = false) :
    ∃ body, ∀ s, exec i s = .next (accept body s) := by
  cases i with
  | readByte => exact ⟨readByte, fun _ => rfl⟩
  | readWordLe => exact ⟨readWordLe, fun _ => rfl⟩
  | decodeSector m sc => exact ⟨decodeSector m sc, fun _ => rfl⟩
  | decodeLen m n => exact ⟨decodeLen m n, fun _ => rfl⟩
  | init c => cases hinit
  | _ => cases hcmd

/-- INIT is accepted in every state and leaves the core ready (R230, R231). -/
theorem exec_init_ready {i : Instr} (hinit : isInit i = true) (s : State) : ∃ t, exec i s = .next t ∧ Ready t := by
  cases i with
  | init c => exact ⟨initStream c s, rfl, rfl, rfl⟩
  | _ => cases hinit

theorem runCodeWord_of_ok {c : CodeWord} {i : Instr} (h : decode c = .ok i) (s : State) :
    runCodeWord c s = exec i s := by
  rw [runCodeWord, h]

theorem runCodeWord_of_error {c : CodeWord} {e : Reject} (h : decode c = .error e) (s : State) :
    runCodeWord c s = .next (rejected e s) := by
  rw [runCodeWord, h]

/-- Settles O5: `decodeCmd_answersCommand` splits the words as R82 does, and `accept` makes the two later checks of every
command but INIT. -/
theorem commandAcceptanceOrder : Obligations.CommandAcceptanceOrder := by
  rintro word s u rest hin rfl
  obtain ⟨hillegal, hlegal⟩ := decodeCmd_answersCommand word
  rw [step_of_inputs hin, stepInput_cmd]
  refine ⟨fun hbad => ?_, fun hgood => ?_⟩
  · obtain ⟨e, hdec, he⟩ := hillegal hbad
    rw [runCodeWord_of_error (c := .cmd32 word) hdec, rejected_reserved he]
  · obtain ⟨i, hdec, hcmd, hop⟩ := hlegal hgood
    rw [runCodeWord_of_ok (c := .cmd32 word) hdec]
    refine ⟨i, hcmd, hdec, hop, rfl, fun hinit => exec_init_ready hinit _, fun hinit hno => ?_,
      fun hinit hyes hfault => ?_⟩
    · obtain ⟨body, hexec⟩ := exec_eq_accept hcmd hinit
      rw [hexec, accept_of_not_inited body hno]
    · obtain ⟨body, hexec⟩ := exec_eq_accept hcmd hinit
      rw [hexec, accept_of_faulted body hyes hfault]

end Sys2Proof.Proofs
end

section
/-! SUPPORT. The command word and its fields (30_encoding.md R80-R84). -/

namespace Sys2Proof.Proofs

open Sys2Proof.Laws

/-! ### Fields of a word put together -/

theorem op_cmdWord (b : BitVec 16) (a : BitVec 8) (op : BitVec 4) : (cmdWord b a op).extractLsb' 0 4 = op := by
  apply BitVec.eq_of_toNat_eq
  rw [toNat_extractLsb'_eq, cmdWord_toNat]
  omega

theorem rsv0_cmdWord (b : BitVec 16) (a : BitVec 8) (op : BitVec 4) : (cmdWord b a op).extractLsb' 4 4 = 0 := by
  rw [extractLsb'_eq_zero_iff, cmdWord_toNat]
  omega

theorem a_cmdWord (b : BitVec 16) (a : BitVec 8) (op : BitVec 4) : (cmdWord b a op).extractLsb' 8 8 = a := by
  apply BitVec.eq_of_toNat_eq
  rw [toNat_extractLsb'_eq, cmdWord_toNat]
  omega

theorem b_cmdWord (b : BitVec 16) (a : BitVec 8) (op : BitVec 4) : (cmdWord b a op).extractLsb' 16 16 = b := by
  apply BitVec.eq_of_toNat_eq
  rw [toNat_extractLsb'_eq, cmdWord_toNat]
  omega

/-- A size code fills the low half of B. -/
theorem extract_setWidth_low (sc : BitVec 8) : (sc.setWidth 16).extractLsb' 0 8 = sc := by
  apply BitVec.eq_of_toNat_eq
  rw [toNat_extractLsb'_eq, BitVec.toNat_setWidth]
  omega

theorem extract_setWidth_high (sc : BitVec 8) : (sc.setWidth 16).extractLsb' 8 8 = 0 := by
  rw [extractLsb'_eq_zero_iff, BitVec.toNat_setWidth]
  omega

theorem decodeCmd_decodeSector (m sc : BitVec 8) :
    decodeCmd (cmdWord (sc.setWidth 16) m 0x4#4) = .ok (.decodeSector m sc) := by
  simp [decodeCmd, op_cmdWord, rsv0_cmdWord, a_cmdWord, b_cmdWord, extract_setWidth_low, extract_setWidth_high]

theorem decodeCmd_decodeLen (m : BitVec 8) (n : BitVec 16) :
    decodeCmd (cmdWord n m 0x5#4) = .ok (.decodeLen m n) := by
  simp [decodeCmd, op_cmdWord, rsv0_cmdWord, a_cmdWord, b_cmdWord]

/-! ### A word taken apart -/

/-- A word whose RSV0 is 0 is the word of its other fields. -/
theorem cmdWord_of_fields {word : BitVec 32} (h : word.extractLsb' 4 4 = 0) :
    cmdWord (word.extractLsb' 16 16) (word.extractLsb' 8 8) (word.extractLsb' 0 4) = word := by
  rw [extractLsb'_eq_zero_iff] at h
  apply BitVec.eq_of_toNat_eq
  have hword := word.isLt
  rw [cmdWord_toNat, toNat_extractLsb'_eq, toNat_extractLsb'_eq, toNat_extractLsb'_eq]
  omega

/-- A byte whose upper seven bits are 0 is its lowest bit (INIT's A field, R84). -/
theorem eq_ofBool_of_high_zero {a : BitVec 8} (h : a.extractLsb' 1 7 = 0) :
    (BitVec.ofBool (a.getLsbD 0)).setWidth 8 = a := by
  rw [extractLsb'_eq_zero_iff] at h
  apply BitVec.eq_of_toNat_eq
  have hbit : (a.getLsbD 0).toNat = a.toNat % 2 := by
    rw [BitVec.getLsbD, Nat.testBit_zero]
    obtain hodd | hodd := Nat.mod_two_eq_zero_or_one a.toNat <;> simp [hodd]
  rw [BitVec.toNat_setWidth, BitVec.toNat_ofBool, hbit]
  omega

/-- A 16-bit value whose high byte is 0 is its low byte (DECODE_SECTOR's B field, R84). -/
theorem eq_setWidth_of_high_zero {b : BitVec 16} (h : b.extractLsb' 8 8 = 0) : (b.extractLsb' 0 8).setWidth 16 = b := by
  rw [extractLsb'_eq_zero_iff] at h
  apply BitVec.eq_of_toNat_eq
  rw [BitVec.toNat_setWidth, toNat_extractLsb'_eq]
  omega

/-- An arm of the decoder that answers an instruction has passed its check. -/
theorem of_checked_eq_ok {c : Prop} [Decidable c] {e : Reject} {i j : Instr}
    (h : (if c then Except.ok j else Except.error e) = Except.ok i) : c ∧ j = i := by
  split at h
  case isTrue hc => exact ⟨hc, Except.ok.inj h⟩
  case isFalse => cases h

/-- A command word that decodes is the encoding of the command. -/
theorem encode_of_decodeCmd {word : BitVec 32} {i : Instr} (h : decodeCmd word = .ok i) :
    WellFormed i = true ∧ encode i = .cmd32 word := by
  have hfields := cmdWord_of_fields (word := word)
  unfold decodeCmd at h
  simp only at h
  generalize word.extractLsb' 0 4 = op, word.extractLsb' 4 4 = rsv0, word.extractLsb' 8 8 = a,
    word.extractLsb' 16 16 = b at h hfields
  split at h
  case h_1 hop =>
    obtain ⟨⟨hrsv, ha, rfl⟩, rfl⟩ := of_checked_eq_ok h
    obtain rfl : op = 0x1#4 := BitVec.eq_of_toNat_eq hop
    exact ⟨rfl, by rw [encode, eq_ofBool_of_high_zero ha, ← hfields hrsv]; rfl⟩
  case h_2 hop =>
    obtain ⟨⟨hrsv, rfl, rfl⟩, rfl⟩ := of_checked_eq_ok h
    obtain rfl : op = 0x2#4 := BitVec.eq_of_toNat_eq hop
    exact ⟨rfl, congrArg _ (hfields hrsv)⟩
  case h_3 hop =>
    obtain ⟨⟨hrsv, rfl, rfl⟩, rfl⟩ := of_checked_eq_ok h
    obtain rfl : op = 0x3#4 := BitVec.eq_of_toNat_eq hop
    exact ⟨rfl, congrArg _ (hfields hrsv)⟩
  case h_4 hop =>
    obtain ⟨⟨hrsv, hb⟩, rfl⟩ := of_checked_eq_ok h
    obtain rfl : op = 0x4#4 := BitVec.eq_of_toNat_eq hop
    exact ⟨rfl, by rw [encode, eq_setWidth_of_high_zero hb, hfields hrsv]⟩
  case h_5 hop =>
    obtain ⟨hrsv, rfl⟩ := of_checked_eq_ok h
    obtain rfl : op = 0x5#4 := BitVec.eq_of_toNat_eq hop
    exact ⟨rfl, congrArg _ (hfields hrsv)⟩
  case h_6 => cases h

end Sys2Proof.Proofs
end

section
/-! SUPPORT. The encodings of the tokens (30_encoding.md R86-R99), and the encoder against the decoder. -/

namespace Sys2Proof.Proofs

open Sys2Proof.Config Sys2Proof.Machine Sys2Proof.Laws

/-! ### Symbols -/

theorem decodeSym_lit (b : BitVec 8) : decodeSym (0#1 ++ b) = .ok (.lit b) := by
  have hlow : (0#1 ++ b).extractLsb' 0 8 = b := BitVec.extractLsb'_append_eq_right
  have htag : (0#1 ++ b).getLsbD 8 = false := by rw [BitVec.getLsbD_append]; rfl
  simp only [decodeSym, hlow, htag, Bool.false_eq_true, if_false]

/-- Symbol 256 + k is a match up to 313, and no symbol past it (R88, R89). -/
theorem decodeSym_match (k : BitVec 8) :
    decodeSym (1#1 ++ k) = if k.toNat < 58 then .ok (.lzMatch k) else .error .noSuchSymbol := by
  have hlow : (1#1 ++ k).extractLsb' 0 8 = k := BitVec.extractLsb'_append_eq_right
  have htag : (1#1 ++ k).getLsbD 8 = true := by rw [BitVec.getLsbD_append]; rfl
  simp only [decodeSym, hlow, htag, if_true]

/-- A symbol is its top bit and its low byte. -/
theorem symbol_cases (sym : BitVec 9) :
    (sym.toNat < 256 ∧ sym = 0#1 ++ sym.extractLsb' 0 8) ∨ (256 ≤ sym.toNat ∧ sym = 1#1 ++ sym.extractLsb' 0 8) := by
  have hsym := sym.isLt
  have hlow := toNat_extractLsb'_eq sym 0 8
  obtain h | h := Nat.lt_or_ge sym.toNat 256
  · exact .inl ⟨h, BitVec.eq_of_toNat_eq (by rw [append_toNat, hlow, BitVec.toNat_ofNat]; omega)⟩
  · exact .inr ⟨h, BitVec.eq_of_toNat_eq (by rw [append_toNat, hlow, BitVec.toNat_ofNat]; omega)⟩

theorem encode_of_decodeSym {sym : BitVec 9} {i : Instr} (h : decodeSym sym = .ok i) :
    WellFormed i = true ∧ encode i = .sym9 sym := by
  obtain ⟨-, hsym⟩ | ⟨-, hsym⟩ := symbol_cases sym
  · rw [hsym, decodeSym_lit] at h
    cases h
    exact ⟨rfl, congrArg _ hsym.symm⟩
  · rw [hsym, decodeSym_match] at h
    obtain ⟨hk, rfl⟩ := of_checked_eq_ok h
    exact ⟨decide_eq_true hk, congrArg _ hsym.symm⟩

/-! ### Position codes, methods and blocks -/

/-- The eleven rows of R92 cover the lead bytes, each the encoding of what it decodes to. -/
theorem encode_decodePos (lead : BitVec 8) :
    WellFormed (decodePos lead) = true ∧ encode (decodePos lead) = .pos8x lead := by
  revert lead
  decide

theorem encode_of_decodeMethod {tag : BitVec 8} {i : Instr} (h : decodeMethod tag = .ok i) :
    WellFormed i = true ∧ encode i = .method8 tag := by
  unfold decodeMethod at h
  split at h
  case h_1 htag | h_2 htag | h_3 htag =>
    cases h
    exact ⟨rfl, congrArg _ (BitVec.eq_of_toNat_eq (by rw [htag]; rfl))⟩
  case h_4 => cases h

theorem encode_decodeBlk (bt : BitVec 8) : WellFormed (decodeBlk bt) = true ∧ encode (decodeBlk bt) = .blk8 bt := by
  unfold decodeBlk
  split
  case isTrue h => exact ⟨rfl, congrArg _ h.symm⟩
  case isFalse h => exact ⟨decide_eq_true h, rfl⟩

/-! ### The encoder and the decoder -/

/-- Settles O8: each row's encoding is decoded by its own format's decoder, command words field by field. -/
theorem decodeOfEncodeIsTheInstruction : Obligations.DecodeOfEncodeIsTheInstruction := by
  intro i hi
  cases i with
  | init c => cases c <;> rfl
  | readByte | readWordLe => rfl
  | decodeSector m sc => exact decodeCmd_decodeSector m sc
  | decodeLen m n => exact decodeCmd_decodeLen m n
  | lit b => exact decodeSym_lit b
  | lzMatch k => exact (decodeSym_match k).trans (if_pos (of_decide_eq_true hi))
  | posE1 x | posE2Lo x | posE2Hi x | posE3Lo x | posE3Mid x | posE3Hi x | posE4Lo x | posE4Hi x | posE5Lo x
  | posE5Hi x | posE6 x =>
    revert x
    decide
  | raw | repeat2 | blockRle | blkLiteral => rfl
  | blkFragment bt => exact congrArg _ (if_neg (of_decide_eq_true hi))

/-- Settles O9: a decoder reads every bit of its word, so the word is rebuilt from what it answers. -/
theorem decodedWordIsItsEncoding : Obligations.DecodedWordIsItsEncoding := by
  intro c i h
  cases c with
  | cmd32 word => exact encode_of_decodeCmd h
  | sym9 sym => exact encode_of_decodeSym h
  | pos8x lead => cases h; exact encode_decodePos lead
  | method8 tag => exact encode_of_decodeMethod h
  | blk8 bt => cases h; exact encode_decodeBlk bt

/-- The word R84 writes for the fields B, A and OP. -/
theorem cmdWord_eq_ofNat (b : Nat) (a : BitVec 8) (op : BitVec 4) (hb : b < 65536) :
    cmdWord (BitVec.ofNat 16 b) a op = BitVec.ofNat 32 (b <<< 16 ||| a.toNat <<< 8 ||| op.toNat) := by
  have ha := a.isLt
  have hop := op.isLt
  have hor : b <<< 16 ||| a.toNat <<< 8 ||| op.toNat = b * 65536 + a.toNat * 256 + op.toNat := by
    rw [Nat.or_assoc, Nat.shiftLeft_eq, Nat.shiftLeft_eq, Nat.mul_comm a.toNat,
      ← Nat.two_pow_add_eq_or_of_lt (i := 8) (by omega), Nat.mul_comm b,
      ← Nat.two_pow_add_eq_or_of_lt (i := 16) (by omega)]
    omega
  apply BitVec.eq_of_toNat_eq
  rw [hor, cmdWord_toNat, BitVec.toNat_ofNat, BitVec.toNat_ofNat, Nat.mod_eq_of_lt hb]
  omega

/-- Settles O10: R84's words are the words of their fields, which decode to their commands. -/
theorem commandWordsOfEveryForm : Obligations.CommandWordsOfEveryForm := by
  refine ⟨by decide, by decide, by decide, by decide, fun m sc => ?_, fun m n => ?_⟩
  · have hword := cmdWord_eq_ofNat sc.toNat m 0x4#4 (by omega)
    have hb : BitVec.ofNat 16 sc.toNat = sc.setWidth 16 := by rw [BitVec.ofNat_toNat]
    exact congrArg decodeCmd hword.symm |>.trans (by rw [hb, decodeCmd_decodeSector])
  · have hword := cmdWord_eq_ofNat n.toNat m 0x5#4 n.isLt
    have hb : BitVec.ofNat 16 n.toNat = n := by rw [BitVec.ofNat_toNat, BitVec.setWidth_eq]
    exact congrArg decodeCmd hword.symm |>.trans (by rw [hb, decodeCmd_decodeLen])

/-- Settles O11: the words are concrete, and the decoder computes on them. -/
theorem wordsWrittenOutDecode : Obligations.WordsWrittenOutDecode := by
  unfold Obligations.WordsWrittenOutDecode
  decide

/-- Settles O12: the decoder refuses these tokens, and `rejected` answers each refusal with its error. -/
theorem rejectedTokens : Obligations.RejectedTokens := by
  refine ⟨fun sym s hsym => ?_, fun tag s htag => ?_, fun b => ⟨⟨_, rfl⟩, ⟨_, rfl⟩⟩⟩
  · obtain ⟨hlt, -⟩ | ⟨-, heq⟩ := symbol_cases sym
    · omega
    · have hk : ¬ (sym.extractLsb' 0 8).toNat < 58 := by
        have := sym.isLt
        rw [toNat_extractLsb'_eq]
        omega
      have hdec : decode (.sym9 sym) = .error .noSuchSymbol := by
        rw [heq]
        exact (decodeSym_match _).trans (if_neg hk)
      rw [runCodeWord_of_error hdec]
      simp [rejected, raiseErr]
  · have hdec : decode (.method8 tag) = .error .unknownMethod := by
      simp only [decode, decodeMethod]
      split
      case h_4 => rfl
      all_goals omega
    rw [runCodeWord_of_error hdec]
    exact congrArg _ (raiseErr_of_ne (by decide) s)

end Sys2Proof.Proofs
end

section
/-! SUPPORT. Position codes as numbers (30_encoding.md R91-R94). -/

namespace Sys2Proof.Proofs

open Sys2Proof.Machine

theorem dCode_lt (lead : BitVec 8) : dCode lead < 64 := by
  have hlead := lead.isLt
  simp only [dCode, Nat.shiftRight_eq_div_pow]
  split_ifs <;> omega

/-- A distance is its six high bits, then the low six bits of the folded value (R91). -/
theorem distanceOf_toNat (lead : BitVec 8) (v : Nat) : (distanceOf lead v).toNat = dCode lead * 64 + v % 64 := by
  have hcode := dCode_lt lead
  have hlow : v &&& 0x3F = v % 64 := Nat.and_two_pow_sub_one_eq_mod v 6
  have hor : dCode lead <<< 6 ||| v % 64 = dCode lead * 64 + v % 64 := by
    rw [Nat.shiftLeft_eq, Nat.mul_comm, Nat.two_pow_add_eq_or_of_lt (Nat.mod_lt v (by decide))]
  rw [distanceOf, hlow, hor, BitVec.toNat_ofNat]
  omega

/-- The six classes of lead bytes (R92): how many bits follow, and the high bits of the distance. -/
theorem leadClass_cases (lead : BitVec 8) :
    (lead.toNat ≤ 0x1F ∧ extra lead = 1 ∧ dCode lead = 0) ∨
    (0x20 ≤ lead.toNat ∧ lead.toNat ≤ 0x4F ∧ extra lead = 2 ∧ dCode lead = lead.toNat / 16 - 1) ∨
    (0x50 ≤ lead.toNat ∧ lead.toNat ≤ 0x8F ∧ extra lead = 3 ∧ dCode lead = lead.toNat / 8 - 6) ∨
    (0x90 ≤ lead.toNat ∧ lead.toNat ≤ 0xBF ∧ extra lead = 4 ∧ dCode lead = lead.toNat / 4 - 24) ∨
    (0xC0 ≤ lead.toNat ∧ lead.toNat ≤ 0xEF ∧ extra lead = 5 ∧ dCode lead = lead.toNat / 2 - 72) ∨
    (0xF0 ≤ lead.toNat ∧ lead.toNat ≤ 0xFF ∧ extra lead = 6 ∧ dCode lead = lead.toNat - 192) := by
  have hlead := lead.isLt
  simp only [dCode, extra, Nat.shiftRight_eq_div_pow]
  split_ifs <;> omega

/-- Settles O13: in each class the distance's high bits and the folded value are both linear in the lead byte. -/
theorem positionCodeTable : Obligations.PositionCodeTable := by
  intro lead x v d hx hv hd
  have hcode := dCode_lt lead
  rw [distanceOf_toNat] at hd
  refine ⟨by omega, ?_⟩
  obtain ⟨hhi, he, hc⟩ | ⟨hlo, hhi, he, hc⟩ | ⟨hlo, hhi, he, hc⟩ | ⟨hlo, hhi, he, hc⟩ | ⟨hlo, hhi, he, hc⟩ |
    ⟨hlo, hhi, he, hc⟩ := leadClass_cases lead
  all_goals
    rw [he] at hx hv ⊢
    omega

/-! ### The code of a distance -/

/-- How many bits follow the lead byte in the code of distance `d`. -/
def codeExtra (d : Nat) : Nat :=
  if d < 64 then 1 else if d < 256 then 2 else if d < 768 then 3 else if d < 1536 then 4 else if d < 3072 then 5 else 6

/-- The code of distance `d` as one number: its class's leading bits before the low six bits (R93). -/
def codeValue (d : Nat) : Nat :=
  if d < 64 then d else if d < 256 then d + 64 else if d < 768 then d + 64 * 6 else if d < 1536 then d + 64 * 24
    else if d < 3072 then d + 64 * 72 else d + 64 * 192

/-- Every code of a distance is the one `codeExtra` and `codeValue` give. -/
theorem code_of_distanceOf {lead : BitVec 8} {x d : Nat} (hx : x < 2 ^ extra lead)
    (hd : (distanceOf lead (lead.toNat * 2 ^ extra lead + x)).toNat = d) :
    extra lead = codeExtra d ∧ lead.toNat * 2 ^ extra lead + x = codeValue d := by
  obtain ⟨hlow, h1, h2, h3, h4, h5, h6⟩ := positionCodeTable lead x _ d hx rfl hd.symm
  have hlead := lead.isLt
  simp only [codeExtra, codeValue]
  split_ifs <;> omega

/-- The code `codeExtra` and `codeValue` give is a code, and its distance is `d`. -/
theorem distanceOf_code {d : Nat} (h : d < 4096) {lead : BitVec 8} (hlead : lead.toNat = codeValue d / 2 ^ codeExtra d) :
    extra lead = codeExtra d ∧ dCode lead = d / 64 ∧ codeValue d % 64 = d % 64 := by
  have hclass := leadClass_cases lead
  simp only [codeExtra, codeValue] at hlead ⊢
  split_ifs at hlead ⊢ <;> omega

theorem codeValue_lt {d : Nat} (h : d < 4096) : codeValue d / 2 ^ codeExtra d < 256 := by
  simp only [codeExtra, codeValue]
  split_ifs <;> omega

/-- Settles O14: `code_of_distanceOf` gives uniqueness and `distanceOf_code` existence; the Kraft sum is over 256 bytes. -/
theorem positionCodeIsComplete : Obligations.PositionCodeIsComplete := by
  refine ⟨fun d => ?_, by decide +kernel⟩
  have hlead : (BitVec.ofNat 8 (codeValue d.toNat / 2 ^ codeExtra d.toNat)).toNat = _ :=
    Nat.mod_eq_of_lt (codeValue_lt d.isLt)
  generalize BitVec.ofNat 8 _ = lead at hlead
  obtain ⟨hextra, hcode, hlow⟩ := distanceOf_code d.isLt hlead
  have hvalue : lead.toNat * 2 ^ extra lead + codeValue d.toNat % 2 ^ extra lead = codeValue d.toNat := by
    rw [hlead, hextra, Nat.mul_comm, Nat.div_add_mod]
  have hx : codeValue d.toNat % 2 ^ extra lead < 2 ^ extra lead := Nat.mod_lt _ (Nat.two_pow_pos _)
  refine ⟨lead, _, hx, ?_, fun lead' x' hx' hd' => ?_⟩
  · apply BitVec.eq_of_toNat_eq
    rw [distanceOf_toNat, hvalue, hcode, hlow]
    omega
  · obtain ⟨hextra', hvalue'⟩ := code_of_distanceOf hx' (congrArg BitVec.toNat hd')
    rw [hextra'] at hx' hvalue'
    have hsum : x' + 2 ^ codeExtra d.toNat * lead'.toNat = codeValue d.toNat := by
      rw [Nat.add_comm, Nat.mul_comm, hvalue']
    obtain ⟨hdiv, hmod⟩ := (Nat.div_mod_unique (Nat.two_pow_pos _)).mpr ⟨hsum, hx'⟩
    exact ⟨BitVec.eq_of_toNat_eq (by rw [hlead, hdiv]), by rw [hextra, hmod]⟩

end Sys2Proof.Proofs
end

section
/-! SUPPORT. The bit reader against the bits in front of the core: what a refill loads, and what each read delivers
(40_bitstream.md R110-R115). -/

namespace Sys2Proof.Proofs

open Sys2Proof.Config Sys2Proof.Machine Sys2Proof.Safety Sys2Proof.Laws

/-! ### The source -/

/-- Bit `k` of what the source still delivers: its bytes, MSB first, and zeros after its end or once EOF is set. -/
def sourceAhead (s : State) (k : Nat) : Bool := if s.eof then false else sourceBit s.src s.spos k

theorem bitsAhead_of_lt {s : State} {k : Nat} (h : k < s.bitcnt.toNat) : bitsAhead s k = s.bitbuf.getLsbD (15 - k) :=
  if_pos h

theorem bitsAhead_of_ge {s : State} {k : Nat} (h : s.bitcnt.toNat ≤ k) :
    bitsAhead s k = sourceAhead s (k - s.bitcnt.toNat) := if_neg (Nat.not_lt.mpr h)

theorem sourceBit_of_end {src : Array (BitVec 8)} {start : Nat} (h : src[start]? = none) (k : Nat) :
    sourceBit src start k = false := by
  have hsize := Array.getElem?_eq_none_iff.mp h
  have hend : src[start + k / 8]? = none := Array.getElem?_eq_none_iff.mpr (by omega)
  simp only [sourceBit, hend]

theorem sourceBit_of_byte {src : Array (BitVec 8)} {start : Nat} {b : BitVec 8} (h : src[start]? = some b) {k : Nat}
    (hk : k < 8) : sourceBit src start k = b.getLsbD (7 - k) := by
  have hfirst : start + k / 8 = start := by omega
  have hbit : k % 8 = k := Nat.mod_eq_of_lt hk
  simp only [sourceBit, hfirst, hbit, h]

theorem sourceBit_next (src : Array (BitVec 8)) (start k : Nat) :
    sourceBit src (start + 1) k = sourceBit src start (k + 8) := by
  have hbyte : start + 1 + k / 8 = start + (k + 8) / 8 := by omega
  simp only [sourceBit, hbyte, Nat.add_mod_right]

/-! ### Refill -/

/-- One pass of a refill loads the next eight bits of the source, zeros where none are left (R111, R112). -/
theorem refillOnce_loads (s : State) :
    ∃ b u, refillOnce s = loadByte b u ∧ u.bitbuf = s.bitbuf ∧ u.bitcnt = s.bitcnt ∧
      (∀ k, k < 8 → sourceAhead s k = b.getLsbD (7 - k)) ∧ ∀ k, sourceAhead u k = sourceAhead s (k + 8) := by
  unfold refillOnce
  obtain ⟨b, heof, hb, h⟩ | ⟨heof, h⟩ | ⟨heof, hend, h⟩ := rawByte_cases s <;> rw [h] <;>
    refine ⟨_, _, rfl, rfl, rfl, fun k hk => ?_, fun k => ?_⟩
  · simp [sourceAhead, heof, sourceBit_of_byte hb hk]
  · simp [sourceAhead, heof, sourceBit_next]
  · simp [sourceAhead, heof]
  · simp [sourceAhead, heof]
  · simp [sourceAhead, heof, sourceBit_of_end hend]
  · simp [sourceAhead, heof, sourceBit_of_end hend]

/-- A loaded byte stands just below the valid bits. -/
theorem getLsbD_loadByte {s : State} (hs : BitsOk s) (hcnt : s.bitcnt.toNat ≤ 8) (b : Byte) {k : Nat} (hk : k < 16) :
    (loadByte b s).bitbuf.getLsbD (15 - k) =
      if k < s.bitcnt.toNat then s.bitbuf.getLsbD (15 - k)
      else if k < s.bitcnt.toNat + 8 then b.getLsbD (7 - (k - s.bitcnt.toNat)) else false := by
  rw [loadByte_bitbuf, BitVec.getLsbD_or, BitVec.getLsbD_shiftLeft, BitVec.getLsbD_setWidth]
  split_ifs with h1 h2
  · have hhigh : b.getLsbD (15 - k - (8 - s.bitcnt.toNat)) = false := BitVec.getLsbD_of_ge _ _ (by omega)
    simp [hhigh]
  · have hidx : 15 - k - (8 - s.bitcnt.toNat) = 7 - (k - s.bitcnt.toNat) := by omega
    have hhigh : 15 - k < 16 ∧ ¬ 15 - k < 8 - s.bitcnt.toNat ∧ 7 - (k - s.bitcnt.toNat) < 16 := by omega
    rw [hs.low _ (by omega), hidx]
    simp [hhigh]
  · rw [hs.low _ (by omega)]
    simp
    omega

theorem bitcnt_add_eight {s : State} (h : s.bitcnt.toNat ≤ 8) : (s.bitcnt + 8).toNat = s.bitcnt.toNat + 8 := by
  have height : (8 : BitVec 5).toNat = 8 := rfl
  rw [BitVec.toNat_add, height]
  omega

theorem loadByte_bitsOk {s : State} (hs : BitsOk s) (hcnt : s.bitcnt.toNat ≤ 8) (b : Byte) : BitsOk (loadByte b s) where
  count := by
    rw [loadByte_bitcnt, bitcnt_add_eight hcnt]
    omega
  low k hk := by
    rw [loadByte_bitcnt, bitcnt_add_eight hcnt] at hk
    have hbit := getLsbD_loadByte hs hcnt b (k := 15 - k) (by omega)
    rw [show 15 - (15 - k) = k by omega, if_neg (by omega), if_neg (by omega)] at hbit
    exact hbit

/-- A pass of the refill keeps the buffer well formed and changes no bit ahead. -/
theorem refillOnce_keeps {s : State} (hs : BitsOk s) (hcnt : s.bitcnt.toNat ≤ 8) :
    BitsOk (refillOnce s) ∧ ∀ k, bitsAhead (refillOnce s) k = bitsAhead s k := by
  obtain ⟨b, u, hload, hbuf, hu, hfirst, hrest⟩ := refillOnce_loads s
  have hus : s.bitcnt.toNat = u.bitcnt.toNat := by rw [hu]
  rw [hus] at hcnt
  have huok : BitsOk u := ⟨hu ▸ hs.count, fun k hk => by rw [hbuf]; exact hs.low k (hu ▸ hk)⟩
  have hcnt8 : (loadByte b u).bitcnt.toNat = u.bitcnt.toNat + 8 := bitcnt_add_eight hcnt
  rw [hload]
  refine ⟨loadByte_bitsOk huok hcnt b, fun k => ?_⟩
  by_cases hk : k < u.bitcnt.toNat + 8
  · rw [bitsAhead_of_lt (hcnt8 ▸ hk), getLsbD_loadByte huok hcnt b (by omega), if_pos hk]
    by_cases hk' : k < u.bitcnt.toNat
    · rw [if_pos hk', bitsAhead_of_lt (hus ▸ hk'), hbuf]
    · rw [if_neg hk', bitsAhead_of_ge (by omega), hus, hfirst _ (by omega)]
  · have hsub : sourceAhead (loadByte b u) = sourceAhead u := rfl
    rw [bitsAhead_of_ge (by omega), bitsAhead_of_ge (by omega), hcnt8, hsub, hrest, hus]
    congr 1
    omega

/-- A fact that every pass of a refill keeps is kept by the refill. -/
theorem refill_induction {P : State → Prop} (hpass : ∀ s, P s → s.bitcnt.toNat ≤ 8 → P (refillOnce s)) {s : State}
    (hs : P s) : P (refill s) := by
  have hloop : ∀ n s, P s → P (refillLoop n s) := by
    intro n
    induction n with
    | zero => exact fun s hs => hs
    | succ n ih =>
      intro s hs
      unfold refillLoop
      split
      case isTrue hcnt => exact ih _ (hpass s hs hcnt)
      case isFalse => exact hs
  exact hloop 2 s hs

/-- Two passes always reach 9 bits (R112). -/
theorem nine_le_refill_bitcnt (s : State) : 9 ≤ (refill s).bitcnt.toNat := by
  have hpass : ∀ {u : State}, u.bitcnt.toNat ≤ 8 → (refillOnce u).bitcnt.toNat = u.bitcnt.toNat + 8 :=
    fun hu => by rw [refillOnce_bitcnt, bitcnt_add_eight hu]
  simp only [refill, refillLoop]
  split_ifs with h1 h2
  · rw [hpass h2, hpass h1]; omega
  · omega
  · omega

theorem refill_bitsOk {s : State} (h : BitsOk s) : BitsOk (refill s) :=
  refill_induction (fun _ hu hcnt => (refillOnce_keeps hu hcnt).1) h

theorem bitsAhead_refill {s : State} (h : BitsOk s) (k : Nat) : bitsAhead (refill s) k = bitsAhead s k :=
  (refill_induction (P := fun u => BitsOk u ∧ ∀ k, bitsAhead u k = bitsAhead s k)
    (fun _ hu hcnt => ⟨(refillOnce_keeps hu.1 hcnt).1, fun k => ((refillOnce_keeps hu.1 hcnt).2 k).trans (hu.2 k)⟩)
    ⟨h, fun _ => rfl⟩).2 k

/-- Settles O16: each pass of the loop keeps the buffer and the bits ahead, and two passes are enough. -/
theorem refillTopsUpTheBuffer : Obligations.RefillTopsUpTheBuffer := fun s h =>
  ⟨refill_bitsOk h, nine_le_refill_bitcnt s, bitsAhead_refill h, refill_onlyBits s⟩

/-! ### Reads -/

/-- The state of a reader that takes `n` bits off the top of the buffer. -/
def takeBits (n : Nat) (s : State) : State :=
  { s with bitbuf := s.bitbuf <<< n, bitcnt := s.bitcnt - BitVec.ofNat 5 n }

theorem takeBits_bitcnt {n : Nat} {s : State} (hn : n ≤ s.bitcnt.toNat) :
    (takeBits n s).bitcnt.toNat = s.bitcnt.toNat - n := by
  have hcnt := s.bitcnt.isLt
  have hofn : (BitVec.ofNat 5 n).toNat = n := Nat.mod_eq_of_lt (by omega)
  have hle : BitVec.ofNat 5 n ≤ s.bitcnt := by rw [BitVec.le_def, hofn]; exact hn
  rw [takeBits, BitVec.toNat_sub_of_le hle, hofn]

theorem takeBits_bitsOk {n : Nat} {s : State} (hn : n ≤ s.bitcnt.toNat) (h : BitsOk s) : BitsOk (takeBits n s) where
  count := by
    have := h.count
    rw [takeBits_bitcnt hn]
    omega
  low k hk := by
    rw [takeBits_bitcnt hn] at hk
    by_cases hkn : k < n
    · simp [takeBits, hkn]
    · have hlow := h.low (k - n) (by omega)
      simp [takeBits, hlow]

/-- Taking `n` valid bits moves the rest up. -/
theorem bitsAhead_takeBits {n : Nat} {s : State} (hn : n ≤ s.bitcnt.toNat) (h : BitsOk s) (k : Nat) :
    bitsAhead (takeBits n s) k = bitsAhead s (k + n) := by
  have hcnt := takeBits_bitcnt hn
  have hcount := h.count
  by_cases hk : k + n < s.bitcnt.toNat
  · have hidx : 15 - k - n = 15 - (k + n) := by omega
    have hbit : (s.bitbuf <<< n).getLsbD (15 - k) = s.bitbuf.getLsbD (15 - (k + n)) := by
      rw [BitVec.getLsbD_shiftLeft, hidx]
      have hin : 15 - k < 16 ∧ ¬ 15 - k < n := by omega
      simp [hin]
    rw [bitsAhead_of_lt (by omega), bitsAhead_of_lt hk]
    exact hbit
  · have hsource : sourceAhead (takeBits n s) = sourceAhead s := rfl
    rw [bitsAhead_of_ge (by omega), bitsAhead_of_ge (by omega), hcnt, hsource]
    congr 1
    omega

/-- From `s` to `t` a reader has consumed `n` bits and touched nothing but the bit reader's registers. -/
structure Consumed (n : Nat) (s t : State) : Prop where
  bits : BitsOk t
  ahead : ∀ k, bitsAhead t k = bitsAhead s (k + n)
  frame : OnlyBits s t

theorem consumed_zero {s : State} (h : BitsOk s) : Consumed 0 s s := ⟨h, fun _ => rfl, onlyBits_refl s⟩

theorem consumed_trans {m n : Nat} {s t u : State} (h : Consumed m s t) (h' : Consumed n t u) :
    Consumed (m + n) s u where
  bits := h'.bits
  ahead k := by rw [h'.ahead, h.ahead, Nat.add_assoc, Nat.add_comm n m]
  frame := onlyBits_trans h.frame h'.frame

/-- Up to nine bits can be taken after a refill. -/
theorem consumed_takeBits_refill {n : Nat} {s : State} (hn : n ≤ 9) (h : BitsOk s) :
    Consumed n s (takeBits n (refill s)) := by
  have hcnt : n ≤ (refill s).bitcnt.toNat := hn.trans (nine_le_refill_bitcnt s)
  exact ⟨takeBits_bitsOk hcnt (refill_bitsOk h),
    fun k => (bitsAhead_takeBits hcnt (refill_bitsOk h) k).trans (bitsAhead_refill h _),
    onlyBits_trans (refill_onlyBits s) rfl⟩

/-- After a refill the bits ahead stand at the top of the buffer. -/
theorem getLsbD_refill {s : State} (h : BitsOk s) {k : Nat} (hk : k < 9) :
    (refill s).bitbuf.getLsbD (15 - k) = bitsAhead s k := by
  rw [← bitsAhead_refill h, bitsAhead_of_lt (hk.trans_le (nine_le_refill_bitcnt s))]

theorem consumed_nextBit {s : State} (h : BitsOk s) : Consumed 1 s (nextBit s).2 :=
  consumed_takeBits_refill (by decide) h

theorem nextBit_eq_bitsAhead {s : State} (h : BitsOk s) : (nextBit s).1 = bitsAhead s 0 :=
  getLsbD_refill h (k := 0) (by decide)

theorem consumed_nextBits8 {s : State} (h : BitsOk s) : Consumed 8 s (nextBits8 s).2 :=
  consumed_takeBits_refill (by decide) h

theorem getLsbD_nextBits8 {s : State} (h : BitsOk s) {k : Nat} (hk : k < 8) :
    (nextBits8 s).1.getLsbD (7 - k) = bitsAhead s k := by
  have hbit : (nextBits8 s).1.getLsbD (7 - k) = (refill s).bitbuf.getLsbD (15 - k) := by
    have hidx : 8 + (7 - k) = 15 - k := by omega
    simp only [nextBits8, BitVec.getLsbD_extractLsb', hidx]
    simp
    omega
  rw [hbit, getLsbD_refill h (by omega)]

end Sys2Proof.Proofs
end

section
/-! SUPPORT. Runs of read calls from INIT: the bits they deliver (40_bitstream.md R115), and how far they look ahead
(R116). -/

namespace Sys2Proof.Proofs

open Sys2Proof.Config Sys2Proof.Machine Sys2Proof.Safety Sys2Proof.Laws

/-- The next `n` bits in front of the core, first bit first. -/
def aheadList (s : State) (n : Nat) : List Bool := (List.range n).map (bitsAhead s)

theorem aheadList_add (s : State) (m n : Nat) :
    aheadList s (m + n) = aheadList s m ++ (List.range n).map fun k => bitsAhead s (k + m) := by
  simp [aheadList, List.range_add, Function.comp_def, Nat.add_comm]

/-- How many bits a read call consumes. -/
def readSize (single : Bool) : Nat := if single then 1 else 8

/-- One read call delivers the bits ahead and consumes them. -/
theorem readOne_delivers (single : Bool) {s : State} (h : BitsOk s) :
    (readOne single s).1 = aheadList s (readSize single) ∧ Consumed (readSize single) s (readOne single s).2 := by
  cases single with
  | true => exact ⟨congrArg (fun b => [b]) (nextBit_eq_bitsAhead h), consumed_nextBit h⟩
  | false =>
    refine ⟨List.map_congr_left fun k hk => ?_, consumed_nextBits8 h⟩
    exact getLsbD_nextBits8 h (List.mem_range.mp hk)

theorem readRun_delivers (calls : List Bool) {s : State} (h : BitsOk s) :
    (readRun calls s).1 = aheadList s (readBitsOf calls) ∧ Consumed (readBitsOf calls) s (readRun calls s).2 := by
  induction calls generalizing s with
  | nil => exact ⟨rfl, consumed_zero h⟩
  | cons c cs ih =>
    obtain ⟨hbits, hone⟩ := readOne_delivers c h
    obtain ⟨hbits', hrest⟩ := ih hone.bits
    refine ⟨?_, consumed_trans hone hrest⟩
    have hsize : readBitsOf (c :: cs) = readSize c + readBitsOf cs := rfl
    have hshift : aheadList (readOne c s).2 (readBitsOf cs) =
        (List.range (readBitsOf cs)).map fun k => bitsAhead s (k + readSize c) := List.map_congr_left fun k _ => hone.ahead k
    rw [hsize, aheadList_add, ← hshift, ← hbits, ← hbits']
    rfl

theorem initStream_bitsOk (c : Bool) (s : State) : BitsOk (initStream c s) :=
  ⟨Nat.zero_le _, fun _ _ => BitVec.getLsbD_zero⟩

/-- Settles O17: from INIT the bits ahead are the source's, and every run of read calls delivers the bits ahead. -/
theorem readsDeliverTheSourceBits : Obligations.ReadsDeliverTheSourceBits := by
  intro calls c s t bs hrun
  obtain ⟨hbits, -⟩ := readRun_delivers calls (initStream_bitsOk c s)
  rw [hrun] at hbits
  refine hbits.trans ?_
  exact List.map_congr_left fun k _ => by
    rw [bitsAhead_of_ge (Nat.zero_le k), Nat.zero_add]
    rfl

/-! ### How far the reader looks ahead -/

/-- Since INIT on `s`, a reader that has consumed `k` bits has loaded `m` bytes, real or sentinel (R116). -/
structure Loaded (s : State) (k m : Nat) (t : State) : Prop where
  source : t.src = s.src
  bits : t.bitcnt.toNat + k = 8 * m
  cursor : t.spos = s.spos + min m (s.src.size - s.spos)
  ended : t.eof = true ↔ s.src.size - s.spos < m
  count : t.bitcnt.toNat ≤ 16

theorem loaded_initStream (c : Bool) (s : State) : Loaded s 0 0 (initStream c s) where
  source := rfl
  bits := rfl
  cursor := by simp [initStream]
  ended := by simp [initStream]
  count := Nat.zero_le _

theorem refillOnce_cursor (s : State) :
    (refillOnce s).spos = (rawByte s).2.spos ∧ (refillOnce s).eof = (rawByte s).2.eof := by
  unfold refillOnce
  obtain ⟨_ | b, u⟩ := rawByte s <;> exact ⟨rfl, rfl⟩

/-- A pass of the refill loads one more byte. -/
theorem loaded_refillOnce {s t : State} {k m : Nat} (hpos : s.spos ≤ s.src.size) (h : Loaded s k m t)
    (hcnt : t.bitcnt.toNat ≤ 8) : Loaded s k (m + 1) (refillOnce t) := by
  obtain ⟨hsrc, hbits, hcur, hend, -⟩ := h
  have hcnt' : (refillOnce t).bitcnt.toNat = t.bitcnt.toNat + 8 := by rw [refillOnce_bitcnt, bitcnt_add_eight hcnt]
  have hsrc' : (refillOnce t).src = s.src := by rw [refillOnce_onlyBits t]; exact hsrc
  obtain ⟨hspos, heof'⟩ := refillOnce_cursor t
  obtain ⟨b, heof, hb, hraw⟩ | ⟨heof, hraw⟩ | ⟨heof, hnone, hraw⟩ := rawByte_cases t
  · have hlt : t.spos < s.src.size := by rw [← hsrc]; exact (Array.getElem?_eq_some_iff.mp hb).1
    replace hspos : (refillOnce t).spos = t.spos + 1 := by rw [hspos, hraw]
    replace heof' : (refillOnce t).eof = false := by rw [heof', hraw]; exact heof
    exact ⟨hsrc', by omega, by omega, iff_of_false (by simp [heof']) (by omega), by omega⟩
  · have hover : s.src.size - s.spos < m := hend.mp heof
    replace hspos : (refillOnce t).spos = t.spos := by rw [hspos, hraw]
    replace heof' : (refillOnce t).eof = true := by rw [heof', hraw]; exact heof
    exact ⟨hsrc', by omega, by omega, iff_of_true heof' (by omega), by omega⟩
  · have hge : s.src.size ≤ t.spos := by rw [← hsrc]; exact Array.getElem?_eq_none_iff.mp hnone
    have hmore : ¬ s.src.size - s.spos < m := fun h => by simp [hend.mpr h] at heof
    replace hspos : (refillOnce t).spos = t.spos := by rw [hspos, hraw]
    replace heof' : (refillOnce t).eof = true := by rw [heof', hraw]
    exact ⟨hsrc', by omega, by omega, iff_of_true heof' (by omega), by omega⟩

/-- A refill loads up to 9 to 16 bits. -/
theorem loaded_refill {s t : State} {k m : Nat} (hpos : s.spos ≤ s.src.size) (h : Loaded s k m t) :
    ∃ m, Loaded s k m (refill t) :=
  refill_induction (P := fun u => ∃ m, Loaded s k m u)
    (fun _ ⟨_, hu⟩ hcnt => ⟨_, loaded_refillOnce hpos hu hcnt⟩) ⟨m, h⟩

theorem loaded_takeBits {s t : State} {k m n : Nat} (hn : n ≤ t.bitcnt.toNat) (h : Loaded s k m t) :
    Loaded s (k + n) m (takeBits n t) where
  source := h.source
  bits := by
    have := h.bits
    rw [takeBits_bitcnt hn]
    omega
  cursor := h.cursor
  ended := h.ended
  count := by
    have := h.count
    rw [takeBits_bitcnt hn]
    omega

theorem readOne_eq_takeBits (single : Bool) (s : State) :
    (readOne single s).2 = takeBits (readSize single) (refill s) := by
  cases single <;> rfl

/-- A read call that begins with `k` bits consumed leaves `ceil((k + 9) / 8)` bytes loaded: the refill stops between 9
and 16 bits, which fixes their number. -/
theorem loaded_readOne {s t : State} {k m : Nat} (single : Bool) (hpos : s.spos ≤ s.src.size) (h : Loaded s k m t) :
    Loaded s (k + readSize single) ((k + 9 + 7) / 8) (readOne single t).2 := by
  obtain ⟨m', hm'⟩ := loaded_refill hpos h
  have hlow := nine_le_refill_bitcnt t
  have hhigh := hm'.count
  have hsum := hm'.bits
  have hsize : readSize single ≤ 9 := by cases single <;> decide
  obtain rfl : m' = (k + 9 + 7) / 8 := by omega
  rw [readOne_eq_takeBits]
  exact loaded_takeBits (by omega) hm'

theorem loaded_readRun {s t : State} {k m : Nat} (calls : List Bool) (hpos : s.spos ≤ s.src.size)
    (h : Loaded s k m t) : ∃ m, Loaded s (k + readBitsOf calls) m (readRun calls t).2 := by
  induction calls generalizing t k m with
  | nil => exact ⟨m, h⟩
  | cons c cs ih =>
    have hrest := ih (loaded_readOne c hpos h)
    rw [Nat.add_assoc] at hrest
    exact hrest

theorem readRun_append (xs ys : List Bool) (s : State) :
    (readRun (xs ++ ys) s).2 = (readRun ys (readRun xs s).2).2 := by
  induction xs generalizing s with
  | nil => rfl
  | cons x xs ih => exact ih _

theorem readBitsOf_append (xs ys : List Bool) : readBitsOf (xs ++ ys) = readBitsOf xs + readBitsOf ys := by
  induction xs with
  | nil => exact (Nat.zero_add _).symm
  | cons x xs ih =>
    simp only [List.cons_append, readBitsOf, ih]
    omega

/-- Settles O18: the run leaves some number of bytes loaded, and its last call fixes that number. -/
theorem lookAheadAndEndFlag : Obligations.LookAheadAndEndFlag := by
  rintro calls last c s t bs n hpos hrun rfl
  obtain ⟨m, hm⟩ := loaded_readRun calls hpos (loaded_initStream c s)
  have hlast := loaded_readOne last hpos hm
  have ht : t = (readOne last (readRun calls (initStream c s)).2).2 := by
    have happend := readRun_append calls [last] (initStream c s)
    rw [hrun] at happend
    exact happend
  rw [ht, readBitsOf_append]
  rw [Nat.zero_add] at hlast
  exact ⟨hlast.bits, hlast.cursor, hlast.ended⟩

end Sys2Proof.Proofs
end

section
/-! SUPPORT. Position codes read from the bits ahead (30_encoding.md R91, 42_lzss.md R162), and the entry of a match
(42_lzss.md R163, R164, 43_decompressor.md R183). -/

namespace Sys2Proof.Proofs

open Sys2Proof.Config Sys2Proof.Machine Sys2Proof.Safety Sys2Proof.Laws

/-! ### Numbers read MSB first -/

theorem valueAhead_add {m : Nat} {s t : State} (h : Consumed m s t) (n : Nat) :
    valueAhead s (m + n) = valueAhead s m * 2 ^ n + valueAhead t n := by
  induction n with
  | zero => simp [valueAhead]
  | succ n ih =>
    rw [← Nat.add_assoc, valueAhead, valueAhead, ih, h.ahead, Nat.pow_succ, Nat.add_comm n m]
    ring

theorem valueAhead_congr {s t : State} (h : ∀ k, bitsAhead s k = bitsAhead t k) (n : Nat) :
    valueAhead s n = valueAhead t n := by
  induction n with
  | zero => rfl
  | succ n ih => rw [valueAhead, valueAhead, ih, h]

theorem valueAhead_lt (s : State) (n : Nat) : valueAhead s n < 2 ^ n := by
  induction n with
  | zero => exact Nat.one_pos
  | succ n ih =>
    have hbit := Bool.toNat_lt (bitsAhead s n)
    rw [valueAhead, Nat.pow_succ]
    omega

/-- `n` bits folded into `v` put the bits ahead behind it, and consume them. -/
theorem foldBits_reads (n v : Nat) {s : State} (h : BitsOk s) :
    (foldBits n v s).1 = v * 2 ^ n + valueAhead s n ∧ Consumed n s (foldBits n v s).2 := by
  induction n generalizing v s with
  | zero => exact ⟨by simp [foldBits, valueAhead], consumed_zero h⟩
  | succ n ih =>
    have hone := consumed_nextBit h
    obtain ⟨hvalue, hrest⟩ := ih (2 * v + (nextBit s).1.toNat) hone.bits
    have hfirst : valueAhead s 1 = (nextBit s).1.toNat := by simp [valueAhead, nextBit_eq_bitsAhead h]
    have hsum : valueAhead s (n + 1) = (nextBit s).1.toNat * 2 ^ n + valueAhead (nextBit s).2 n := by
      rw [Nat.add_comm n 1, valueAhead_add hone, hfirst]
    have hall := consumed_trans hone hrest
    rw [Nat.add_comm 1 n] at hall
    refine ⟨hvalue.trans ?_, hall⟩
    rw [hsum, Nat.pow_succ]
    ring

/-- Bits that are those of `x` from its top bit on are `x` shifted right. -/
theorem valueAhead_of_bits {s : State} {x n : Nat} (hx : x < 2 ^ n)
    (hbits : ∀ k, k < n → bitsAhead s k = x.testBit (n - 1 - k)) {m : Nat} (hm : m ≤ n) :
    valueAhead s m = x / 2 ^ (n - m) := by
  induction m with
  | zero => exact (Nat.div_eq_of_lt hx).symm
  | succ m ih =>
    have hsplit : n - m = n - (m + 1) + 1 := by omega
    have hbit : (bitsAhead s m).toNat = x / 2 ^ (n - (m + 1)) % 2 := by
      rw [hbits m (by omega), Nat.toNat_testBit, show n - 1 - m = n - (m + 1) by omega]
    rw [valueAhead, ih (by omega), hbit, hsplit, Nat.pow_succ, ← Nat.div_div_eq_div_mul]
    omega

/-- `NextBits8` answers the value of the next eight bits. -/
theorem toNat_nextBits8 {s : State} (h : BitsOk s) : (nextBits8 s).1.toNat = valueAhead s 8 := by
  have hvalue := valueAhead_of_bits (nextBits8 s).1.isLt (fun k hk => (getLsbD_nextBits8 h hk).symm) (le_refl 8)
  rw [hvalue, Nat.sub_self, Nat.pow_zero, Nat.div_one]

/-! ### Positions -/

/-- Stores the distance DecodePosition returns. -/
def setDist (d : BitVec 12) (s : State) : State := { s with dist := d }

theorem consumed_setDist {n : Nat} {s t : State} (d : BitVec 12) (h : Consumed n s t) :
    Consumed n (setDist d s) (setDist d t) where
  bits := ⟨h.bits.count, h.bits.low⟩
  ahead := h.ahead
  frame := by
    have hframe := h.frame
    unfold OnlyBits at *
    rw [hframe]
    rfl

/-- The rest of a position code after its lead byte: its extra bits, and the distance they give (R91). -/
theorem positionFrom_reads (lead : BitVec 8) {s : State} (h : BitsOk s) :
    ∃ d, d = distanceOf lead (lead.toNat * 2 ^ extra lead + valueAhead s (extra lead)) ∧
      (positionFrom lead s).dist = d ∧ Consumed (extra lead) (setDist d s) (positionFrom lead s) := by
  obtain ⟨hvalue, hread⟩ := foldBits_reads (extra lead) lead.toNat h
  refine ⟨_, rfl, congrArg (distanceOf lead) hvalue, ?_⟩
  rw [← hvalue]
  exact consumed_setDist _ hread

/-- A position row runs the rest of its code. -/
theorem exec_of_encode_pos8x {i : Instr} {lead : BitVec 8} (h : encode i = .pos8x lead) (s : State) :
    exec i s = .next (positionFrom lead s) := by
  cases i with
  | posE1 x | posE2Lo x | posE2Hi x | posE3Lo x | posE3Mid x | posE3Hi x | posE4Lo x | posE4Hi x | posE5Lo x
  | posE5Hi x | posE6 x => cases h; rfl
  | _ => cases h

theorem exec_of_decode_pos8x {i : Instr} {lead : BitVec 8} (h : decode (.pos8x lead) = .ok i) (s : State) :
    exec i s = .next (positionFrom lead s) := exec_of_encode_pos8x (decodedWordIsItsEncoding _ _ h).2 s

/-- Settles O25: every row is `positionFrom` of its own lead byte. -/
theorem positionRowsReadTheirCode : Obligations.PositionRowsReadTheirCode := by
  intro i lead s hdec hs
  obtain ⟨d, hd, hdist, hread⟩ := positionFrom_reads lead hs
  exact ⟨_, exec_of_decode_pos8x hdec s, hdist.trans hd, hread.ahead, hread.bits, hdist ▸ hread.frame⟩

/-- A whole position code: its lead byte, its extra bits, and the distance (R91, R162). -/
theorem decodePosition_reads {s : State} {lead : BitVec 8} {d : BitVec 12} (h : BitsOk s)
    (hlead : lead = BitVec.ofNat 8 (valueAhead s 8)) (hd : d = distanceOf lead (valueAhead s (8 + extra lead))) :
    (decodePosition s).dist = d ∧ Consumed (8 + extra lead) (setDist d s) (decodePosition s) := by
  have hbyte : (nextBits8 s).1 = lead := BitVec.eq_of_toNat_eq (by
    rw [hlead, toNat_nextBits8 h, BitVec.toNat_ofNat, Nat.mod_eq_of_lt (valueAhead_lt s 8)])
  have hfirst := consumed_nextBits8 h
  obtain ⟨d', hd', hdist, hrest⟩ := positionFrom_reads lead hfirst.bits
  have hpos : decodePosition s = positionFrom lead (nextBits8 s).2 := congrArg (positionFrom · (nextBits8 s).2) hbyte
  have hvalue : valueAhead s (8 + extra lead) = lead.toNat * 2 ^ extra lead + valueAhead (nextBits8 s).2 (extra lead) := by
    rw [valueAhead_add hfirst, ← toNat_nextBits8 h, hbyte]
  obtain rfl : d = d' := by rw [hd, hd', hvalue]
  rw [hpos]
  exact ⟨hdist, consumed_trans (consumed_setDist d hfirst) hrest⟩

/-! ### A match -/

theorem exec_lzMatch {k : BitVec 8} (h : k.toNat < 58) (s : State) : exec (.lzMatch k) s = .next (matchEntry k s) :=
  if_pos h

theorem exec_lzMatch_of_ge {k : BitVec 8} (h : 58 ≤ k.toNat) (s : State) :
    exec (.lzMatch k) s = .next (raiseErr .treeInvariantViolation s) := if_neg (Nat.not_lt.mpr h)

/-- The first copy step of a match reads at its source index, as no byte is copied yet (R164). -/
theorem copyStep_of_copied_zero {s : State} (h : s.copied = 0) :
    copyStep s = pushLiteral (s.winRead s.msrc.toNat) { s with copied := 1 } := by
  have hidx : copyIndex s = s.msrc := by rw [copyIndex, h]; exact BitVec.add_zero _
  rw [copyStep, hidx, h]
  rfl

/-- What `MATCH` starts from: the length is set (R183). -/
def withMatchLength (k : BitVec 8) (s : State) : State := { s with mlen := BitVec.ofNat 6 (matchLength k) }

/-- A match enters with its source index placed from `r` and the distance read, and takes its first copy step (R163,
R183). -/
theorem matchEntry_eq (k : BitVec 8) {s u : State} (hu : u = decodePosition (withMatchLength k s)) :
    matchEntry k s = pushLiteral (u.winRead (matchSource u.r u.dist).toNat)
      { u with msrc := matchSource u.r u.dist, copied := 1, mstate := .copyingMatch } := by
  subst hu
  exact copyStep_of_copied_zero rfl

theorem withMatchLength_mlen {k : BitVec 8} (h : k.toNat < 58) (s : State) :
    (withMatchLength k s).mlen.toNat = k.toNat + 3 :=
  Nat.mod_eq_of_lt (by simp only [matchLength]; omega)

theorem decode_sym9_match {sym : BitVec 9} {k : BitVec 8} (hlow : 256 ≤ sym.toNat) (hhigh : sym.toNat ≤ 313)
    (hk : k = sym.setWidth 8) : k.toNat + 256 = sym.toNat ∧ decode (.sym9 sym) = .ok (.lzMatch k) := by
  have hsum : k.toNat + 256 = sym.toNat := by
    rw [hk, BitVec.toNat_setWidth]
    omega
  have hsym : sym = 1#1 ++ k := BitVec.eq_of_toNat_eq (by
    rw [append_toNat, BitVec.toNat_ofNat]
    omega)
  refine ⟨hsum, ?_⟩
  rw [hsym]
  exact (decodeSym_match k).trans (if_pos (by omega))

/-- Settles O26: the position code is read from the state with the length set, and the match enters on what it leaves. -/
theorem matchDeliversItsFirstByte : Obligations.MatchDeliversItsFirstByte := by
  intro sym k lead d from_ s hlow hhigh hs hwin hk hlead hd hfrom
  obtain ⟨hsum, hdec⟩ := decode_sym9_match hlow hhigh hk
  have hk58 : k.toNat < 58 := by omega
  have hlen := withMatchLength_mlen hk58 s
  have hbits : BitsOk (withMatchLength k s) := ⟨hs.count, hs.low⟩
  have hvalue : valueAhead (withMatchLength k s) = valueAhead s := funext (valueAhead_congr fun _ => rfl)
  obtain ⟨hdist, hread⟩ := decodePosition_reads hbits (hvalue ▸ hlead) (hvalue ▸ hd)
  have hentry := matchEntry_eq k (s := s) rfl
  generalize decodePosition (withMatchLength k s) = u at hdist hread hentry
  have hframe := hread.frame
  have hr : u.r = s.r := by rw [hframe]; rfl
  have hu : u.win = s.win := by rw [hframe]; rfl
  have hmlen : u.mlen = (withMatchLength k s).mlen := by rw [hframe]; rfl
  have htree : u.tree = s.tree := by rw [hframe]; rfl
  have hread' : u.winRead = s.winRead := by unfold State.winRead; rw [hu]
  have hsrc : matchSource u.r u.dist = from_ := by rw [hr, hdist, hfrom]; rfl
  rw [hsrc, hread'] at hentry
  refine ⟨hdec, _, (exec_lzMatch hk58 s).trans (congrArg _ hentry), ?_, hdist, rfl, rfl, rfl, rfl, ?_, fun a => ?_,
    hread.ahead, htree, ?_⟩
  · rw [pushLiteral_mlen, hmlen, hlen]; omega
  · rw [pushLiteral_r_toNat, hr]
  · rw [winRead_pushLiteral _ (hu ▸ hwin), hr]
    exact congrArg _ (congrFun hread' a)
  · exact hentry ▸ matchEntry_onlyDatapath k s

end Sys2Proof.Proofs
end

section
/-! SUPPORT. Several pushes in a row: what the window holds after them (42_lzss.md R161, R165, R166). -/

namespace Sys2Proof.Proofs

open Sys2Proof.Config Sys2Proof.Machine Sys2Proof.Safety Sys2Proof.Laws

/-! ### Pushes -/

theorem pushed_append {bs cs : List (BitVec 8)} {s t u : State} (h : Pushed bs s t) (h' : Pushed cs t u) :
    Pushed (bs ++ cs) s u := by
  obtain ⟨hcur, hstored, hkept⟩ := h
  obtain ⟨hcur', hstored', hkept'⟩ := h'
  simp only [SBSIZE] at *
  refine Pushed.mk ?_ ?_ ?_ <;> simp only [SBSIZE, List.length_append]
  · omega
  · intro j hj hreach
    by_cases hin : j < bs.length
    · rw [List.getD_append _ _ _ _ hin, ← hstored j hin (by omega)]
      exact hkept' _ fun i hi hsame => by omega
    · rw [List.getD_append_right _ _ _ _ (by omega), ← hstored' (j - bs.length) (by omega) (by omega), hcur]
      exact congrArg u.winRead (by omega)
  · intro a ha
    rw [hkept' a fun j hj hsame => ha (bs.length + j) (by omega) (by omega),
      hkept a fun j hj hsame => ha j (by omega) hsame]

theorem pushLiteral_win_wf (b : Byte) {s : State} (h : s.win.wf FILL) : (pushLiteral b s).win.wf FILL :=
  write_wf _ _ h

theorem pushed_pushAll (bs : List (BitVec 8)) {s : State} (h : s.win.wf FILL) : Pushed bs s (pushAll bs s) := by
  induction bs generalizing s with
  | nil => exact pushed_nil rfl rfl
  | cons b bs ih => exact pushed_append (pushed_pushLiteral b h) (ih (pushLiteral_win_wf b h))

theorem pushed_copyStep {s : State} (h : s.win.wf FILL) : Pushed [(copyStep s).outByte] s (copyStep s) := by
  obtain ⟨hcur, hstored, hkept⟩ := pushed_pushLiteral (copyStep s).outByte (s := { s with copied := s.copied + 1 }) h
  exact ⟨hcur, hstored, hkept⟩

/-- Settles O29: INIT leaves the window full of spaces, and the bytes pushed since then stand behind `r`. -/
theorem windowReach : Obligations.WindowReach := by
  rintro s t c bs d rfl
  have hpush := pushed_pushAll bs (s := initStream c s) wf_nil
  generalize pushAll bs (initStream c s) = t at hpush ⊢
  obtain ⟨hcur, hstored, hkept⟩ := hpush
  simp only [SBSIZE] at *
  have hr : (initStream c s).r.toNat = 4036 := rfl
  have hd := d.isLt
  have haddr : (t.r - 1 - d).toNat = (t.r.toNat + 4096 - 1 + 4096 - d.toNat) % 4096 := by
    have hone : (1 : BitVec 12).toNat = 1 := rfl
    rw [BitVec.toNat_sub, BitVec.toNat_sub, hone]
    omega
  rw [haddr]
  split
  case isTrue hin =>
    rw [← hstored (bs.length - 1 - d.toNat) (by omega) (by omega), hcur, hr]
    exact congrArg t.winRead (by omega)
  case isFalse hout =>
    refine (hkept _ fun j hj hsame => ?_).trans (read_nil _)
    omega

/-! ### Runs of copy steps -/

theorem copyIndex_toNat (s : State) : (copyIndex s).toNat = (s.msrc.toNat + s.copied.toNat) % 4096 := by
  have hcopied := s.copied.isLt
  rw [copyIndex, BitVec.toNat_add, BitVec.toNat_setWidth]
  omega

theorem copied_succ_toNat {s : State} (h : s.copied.toNat < 63) : (copyStep s).copied.toNat = s.copied.toNat + 1 := by
  have hone : (1 : BitVec 6).toNat = 1 := rfl
  rw [copyStep_copied, BitVec.toNat_add, hone]
  omega

/-- The last step of a run. -/
theorem copyRun_succ (n : Nat) (s : State) :
    copyRun (n + 1) s = ((copyRun n s).1 ++ [(copyStep (copyRun n s).2).outByte], copyStep (copyRun n s).2) := by
  induction n generalizing s with
  | zero => rfl
  | succ n ih =>
    rw [copyRun, ih (copyStep s)]
    rfl

/-- Where `n` copy steps from the start of a match have led. -/
structure Copying (s : State) (n : Nat) (bs : List (BitVec 8)) (t : State) : Prop where
  length : bs.length = n
  source : t.msrc = s.msrc
  count : t.copied.toNat = n
  wf : t.win.wf FILL
  pushed : Pushed bs s t

theorem copying_copyRun {s : State} (h : s.win.wf FILL) (h0 : s.copied = 0) {n : Nat} (hn : n ≤ 60) :
    Copying s n (copyRun n s).1 (copyRun n s).2 := by
  induction n with
  | zero => exact ⟨rfl, rfl, by rw [copyRun, h0]; rfl, h, pushed_nil rfl rfl⟩
  | succ n ih =>
    obtain ⟨hlen, hsrc, hcount, hwf, hpush⟩ := ih (by omega)
    rw [copyRun_succ]
    exact ⟨by simp [hlen], hsrc, by rw [copied_succ_toNat (by omega), hcount], pushLiteral_win_wf _ hwf,
      pushed_append hpush (pushed_copyStep hwf)⟩

/-- The byte a run delivers next is the window's at the source index, advanced by the bytes copied. -/
theorem copying_next {s t : State} {n : Nat} {bs : List (BitVec 8)} (h : Copying s n bs t) :
    (copyStep t).outByte = t.winRead ((s.msrc.toNat + n) % 4096) := by
  rw [copyStep_outByte, copyIndex_toNat, h.source, h.count]

/-- Where a match at distance `d` reads: the byte `d + 1` steps back, which the run itself has written once more than `d`
bytes are copied. -/
theorem winRead_of_copying {s t : State} {d : BitVec 12} {n : Nat} {bs : List (BitVec 8)} (h : Copying s n bs t)
    (hn : n ≤ 60) (hsrc : s.msrc = s.r - d - 1) :
    t.winRead ((s.msrc.toNat + n) % 4096) =
      if n ≤ d.toNat then s.winRead ((s.msrc.toNat + n) % 4096) else bs.getD (n - d.toNat - 1) 0 := by
  have hd := d.isLt
  have haddr : s.msrc.toNat = (s.r.toNat + 4096 - d.toNat + 4096 - 1) % 4096 := by
    have hone : (1 : BitVec 12).toNat = 1 := rfl
    rw [hsrc, BitVec.toNat_sub, BitVec.toNat_sub, hone]
    omega
  have hlen := h.length
  obtain ⟨-, hstored, hkept⟩ := h.pushed
  simp only [SBSIZE] at *
  split
  case isTrue hle => exact hkept _ fun j hj hsame => by omega
  case isFalse hgt =>
    rw [← hstored (n - d.toNat - 1) (by omega) (by omega), haddr]
    exact congrArg t.winRead (by omega)

/-- The address `k` steps into the last `d + 1` bytes. -/
theorem source_add_toNat (src : BitVec 12) (k : Nat) :
    (src + BitVec.ofNat 12 k).toNat = (src.toNat + k) % 4096 := by
  rw [BitVec.toNat_add, BitVec.toNat_ofNat]
  omega

/-- Byte `k` of a run is byte `k mod (d + 1)` of the `d + 1` bytes behind `r`. -/
theorem copyRun_periodic {s : State} {d : BitVec 12} (h : s.win.wf FILL) (h0 : s.copied = 0)
    (hsrc : s.msrc = s.r - d - 1) {n : Nat} (hn : n ≤ 60) {k : Nat} (hk : k < n) :
    (copyRun n s).1[k]? = some (s.winRead ((s.msrc.toNat + k % (d.toNat + 1)) % 4096)) := by
  induction n generalizing k with
  | zero => omega
  | succ n ih =>
    have hrun := copying_copyRun h h0 (n := n) (by omega)
    have hlen := hrun.length
    rw [copyRun_succ]
    by_cases hlast : k < n
    · rw [List.getElem?_append_left (by omega)]
      exact ih (by omega) hlast
    · obtain rfl : k = n := by omega
      rw [List.getElem?_append_right (by omega), hlen, Nat.sub_self, List.getElem?_cons_zero, copying_next hrun,
        winRead_of_copying hrun (by omega) hsrc]
      split
      case isTrue hle => rw [Nat.mod_eq_of_lt (a := k) (by omega)]
      case isFalse hgt =>
        have hback := ih (by omega) (k := k - d.toNat - 1) (by omega)
        have hmod : k % (d.toNat + 1) = (k - d.toNat - 1) % (d.toNat + 1) := by
          rw [Nat.sub_sub, ← Nat.mod_eq_sub_mod (by omega)]
        rw [List.getD_eq_getElem?_getD, hback, hmod]
        rfl

/-- Settles O27: the copy reads what stood there or what it has itself written, `d + 1` bytes before. -/
theorem matchCopyIsPeriodic : Obligations.MatchCopyIsPeriodic := by
  intro s t d n bs hwin hn hsrc h0 hrun
  have hcopy := copying_copyRun hwin h0 hn
  have hbytes := fun k => copyRun_periodic hwin h0 hsrc hn (k := k)
  rw [hrun] at hcopy hbytes
  refine ⟨hcopy.length, hcopy.length ▸ hcopy.pushed.cursor, fun k hk => ?_⟩
  rw [← hsrc, source_add_toNat]
  exact hbytes k hk

/-- A run whose source index is the write cursor writes back what it reads. -/
theorem copyRun_win_of_inPlace {n : Nat} {s : State} (hwin : s.win.wf FILL) (hn : s.copied.toNat + n ≤ 60)
    (hplace : copyIndex s = s.r) : (copyRun n s).2.win = s.win := by
  induction n generalizing s with
  | zero => rfl
  | succ n ih =>
    have hcopied := copied_succ_toNat (s := s) (by omega)
    have hstep : (copyStep s).win = s.win := by
      rw [copyStep_win, hplace]
      exact write_read_self _ hwin
    have hplace' : copyIndex (copyStep s) = (copyStep s).r := by
      apply BitVec.eq_of_toNat_eq
      have hidx := copyIndex_toNat s
      rw [hplace] at hidx
      have hone : (1 : BitVec 12).toNat = 1 := rfl
      rw [copyIndex_toNat, hcopied, copyStep_msrc, copyStep_r, BitVec.toNat_add, hone, hidx]
      omega
    exact (ih (hstep ▸ hwin) (by omega) hplace').trans hstep

/-- Settles O28: at distance 4095 the source index is the write cursor, and R165's period is the whole window. -/
theorem oldestBytesCopyKeepsTheWindow : Obligations.OldestBytesCopyKeepsTheWindow := by
  intro s t n bs hwin hn hsrc h0 hrun
  have hwhole : s.msrc = s.r := by
    rw [hsrc, BitVec.sub_sub]
    exact BitVec.sub_zero _
  have hplace : copyIndex s = s.r := by rw [copyIndex, h0, hwhole]; exact BitVec.add_zero _
  have hkeep := copyRun_win_of_inPlace (n := n) hwin (by rw [h0]; simpa using hn) hplace
  have hbytes := fun k => copyRun_periodic hwin h0 hsrc hn (k := k)
  rw [hrun] at hkeep hbytes
  refine ⟨hkeep, fun k hk => ?_⟩
  rw [hbytes k hk, hwhole]
  have hperiod : k % ((4095#12).toNat + 1) = k := Nat.mod_eq_of_lt (show k < 4096 by omega)
  rw [hperiod]

end Sys2Proof.Proofs
end

section
/-! SUPPORT. Reset, the register window and single steps (10_state.md R29, R44, R48, 70_reset_and_hazards.md R290). -/

namespace Sys2Proof.Proofs

open Sys2Proof.Config Sys2Proof.Machine Sys2Proof.Safety Sys2Proof.Laws

/-! ### STATUS -/

/-- STATUS as a number (R29). -/
theorem statusWith_toNat (s : State) (mid : BitVec 3) :
    (s.statusWith mid).toNat = s.err.code.toNat * 256 + s.faulted.toNat * 64 + s.inited.toNat * 32 +
      s.shortFill.toNat * 16 + mid.toNat * 2 + 1 := by
  unfold State.statusWith
  repeat rw [append_toNat]
  simp only [BitVec.toNat_ofBool, BitVec.toNat_ofNat]
  omega

theorem getLsbD_of_toNat {n : Nat} {x : BitVec n} {k : Nat} {b : Bool} (h : x.toNat / 2 ^ k % 2 = b.toNat) :
    x.getLsbD k = b := by
  rw [BitVec.getLsbD, Nat.testBit_eq_decide_div_mod_eq, h]
  cases b <;> rfl

/-- The fields of STATUS around its three middle bits. -/
theorem statusWith_fields (s : State) (mid : BitVec 3) :
    (s.statusWith mid).getLsbD 0 = true ∧ (s.statusWith mid).getLsbD 4 = s.shortFill ∧
    (s.statusWith mid).getLsbD 5 = s.inited ∧ (s.statusWith mid).getLsbD 6 = s.faulted ∧
    (s.statusWith mid).getLsbD 7 = false ∧ (s.statusWith mid).extractLsb' 12 20 = 0 ∧
    (s.statusWith mid).extractLsb' 8 4 = s.err.code := by
  have hvalue := statusWith_toNat s mid
  have hfault := s.faulted.toNat_le
  have hinit := s.inited.toNat_le
  have hshort := s.shortFill.toNat_le
  have hmid := mid.isLt
  have hcode := s.err.code.isLt
  have htrue : true.toNat = 1 := rfl
  have hfalse : false.toNat = 0 := rfl
  refine ⟨getLsbD_of_toNat ?_, getLsbD_of_toNat ?_, getLsbD_of_toNat ?_, getLsbD_of_toNat ?_, getLsbD_of_toNat ?_,
    (extractLsb'_eq_zero_iff _ _ _).mpr ?_, BitVec.eq_of_toNat_eq ?_⟩
  case refine_7 => rw [toNat_extractLsb'_eq]; omega
  all_goals omega

/-- The middle bits of STATUS once an INIT has completed. -/
theorem status_middle (s : State) :
    s.status.getLsbD 1 = s.eof ∧ s.status.getLsbD 2 = s.compressed ∧
    s.status.getLsbD 3 = decide (s.mstate = .copyingMatch) := by
  have hvalue := statusWith_toNat s (BitVec.ofBool s.matchPending ++ BitVec.ofBool s.compressed ++ BitVec.ofBool s.eof)
  repeat rw [append_toNat] at hvalue
  simp only [BitVec.toNat_ofBool] at hvalue
  have hpending := s.matchPending.toNat_le
  have hmode := s.compressed.toNat_le
  have heof := s.eof.toNat_le
  exact ⟨getLsbD_of_toNat (by simp only [State.status]; omega), getLsbD_of_toNat (by simp only [State.status]; omega),
    getLsbD_of_toNat (b := s.matchPending) (by simp only [State.status]; omega)⟩

theorem readStatus_of_inited {s : State} (h : s.inited = true) : s.readStatus = s.status := if_pos h

theorem readStatus_of_not_inited {s : State} (h : s.inited = false) :
    s.readStatus = s.statusWith (unspecifiedStatus s.draws) := if_neg (by simp [h])

theorem readStatus_eq_statusWith (s : State) : ∃ mid, s.readStatus = s.statusWith mid := by
  cases h : s.inited with
  | true => exact ⟨_, readStatus_of_inited h⟩
  | false => exact ⟨_, readStatus_of_not_inited h⟩

/-- The state whose STATUS reads 1 outside its middle bits: each defined field at its power-on value (R290). -/
theorem readStatus_masked {s : State} (hi : s.inited = false) (hf : s.faulted = false) (hs : s.shortFill = false)
    (he : s.err = .success) : s.readStatus &&& 0xFFFFFFF1#32 = 1#32 := by
  rw [readStatus_of_not_inited hi]
  generalize unspecifiedStatus s.draws = mid
  have hvalue := statusWith_toNat s mid
  rw [hi, hf, hs, he] at hvalue
  have hword : s.statusWith mid = BitVec.ofNat 32 (mid.toNat * 2 + 1) := by
    have hcode : Err.success.code.toNat = 0 := rfl
    have hfalse : false.toNat = 0 := rfl
    have hmid := mid.isLt
    apply BitVec.eq_of_toNat_eq
    rw [hvalue, BitVec.toNat_ofNat, hcode, hfalse]
    omega
  have hmasked : ∀ mid : BitVec 3, BitVec.ofNat 32 (mid.toNat * 2 + 1) &&& 0xFFFFFFF1#32 = 1#32 := by decide
  rw [hword, hmasked]

/-! ### Reset -/

/-- Settles O1: the six registers are written out in both resets, and STATUS is made of four of them. -/
theorem powerOnSetsTheDefinedRegisters : Obligations.PowerOnSetsTheDefinedRegisters :=
  ⟨⟨rfl, rfl, rfl, rfl, rfl, rfl, readStatus_masked rfl rfl rfl rfl⟩,
    fun _ => ⟨_, rfl, rfl, rfl, rfl, rfl, rfl, rfl, readStatus_masked rfl rfl rfl rfl⟩⟩

theorem parentAt_zero (x : Nat) : Tree.zero.parentAt x = 0 := by
  simp only [Tree.parentAt, Tree.zero, Vector.getElem?_replicate]
  split <;> rfl

/-- Settles O2: at reset every memory lists nothing, every register is 0 and the match machine is idle. -/
theorem invHoldsAtReset : Obligations.InvHoldsAtReset where
  win_wf := wf_nil
  win_below := below_nil _
  outbuf_wf := wf_nil
  outbuf_below := below_nil _
  frag_wf := wf_nil
  frag_below := below_nil _
  bits := ⟨Nat.zero_le _, fun _ _ => BitVec.getLsbD_zero⟩
  outlen_le := Nat.zero_le _
  match_length h := by cases h
  match_copied h := by cases h
  sentinel h := by cases h
  parents x := (parentAt_zero x).trans_le (Nat.zero_le _)

/-! ### Steps and register accesses -/

theorem stepInput_inputOf (c : CodeWord) (s : State) : stepInput (inputOf c) s = runCodeWord c s := by
  cases c with
  | cmd32 word => exact stepInput_cmd word s
  | _ => rfl

/-- Settles O4: the step takes the input made for the word, which `runCodeWord` decodes. -/
theorem stepRunsTheDecodedInstruction : Obligations.StepRunsTheDecodedInstruction := by
  rintro s u c rest rfl
  refine ⟨fun hin => ?_, fun hnone => ?_⟩
  · rw [step_of_inputs hin, stepInput_inputOf]
    exact ⟨fun i hi => runCodeWord_of_ok hi _, fun e he => runCodeWord_of_error he _⟩
  · simp only [step, hnone]

theorem drawn_of_inited {s : State} (h : s.inited = true) : s.drawn = s := if_pos h

theorem drawn_frame (s : State) : s.drawn = { s with draws := s.drawn.draws } := by
  unfold State.drawn
  split <;> rfl

/-- A read of STATUS answers in `resp` and draws a free value only before the first INIT. -/
theorem stepInput_readStatus (s : State) : stepInput (.read32 4) s = .next { s.drawn with resp := s.readStatus } := rfl

theorem err_code (e : Err) :
    (e = .success → e.code = 0) ∧ (e = .streamExhausted → e.code = 1) ∧ (e = .unknownCompressionMethod → e.code = 2) ∧
    (e = .invalidSizeCode → e.code = 3) ∧ (e = .treeInvariantViolation → e.code = 4) ∧
    (e = .illegalCommand → e.code = 5) := by
  cases e <;> decide

/-- Settles O6: STATUS is `statusWith` of its middle bits, whose other fields `statusWith_fields` reads. -/
theorem statusView : Obligations.StatusView := by
  intro s
  obtain ⟨mid, hmid⟩ := readStatus_eq_statusWith s
  obtain ⟨h0, h4, h5, h6, h7, hhigh, herr⟩ := statusWith_fields s mid
  refine ⟨_, stepInput_readStatus s, by rw [drawn_frame], fun hi => ?_, ?_⟩
  · rw [drawn_of_inited hi, readStatus_of_inited hi]
    exact ⟨rfl, status_middle s⟩
  · simp only [hmid, herr]
    exact ⟨h0, h4, h5, h6, h7, hhigh, err_code s.err⟩

theorem stepInput_read8 {offset : BitVec 14} (h : 0x2000 ≤ offset.toNat) (s : State) :
    stepInput (.read8 offset) s =
      .next { s.drawn with resp := (s.readOutbuf (offset.toNat - 0x2000)).setWidth 32 } :=
  if_neg (Nat.not_lt.mpr h)

theorem readOutbuf_of_inited {s : State} (h : s.inited = true) (a : Nat) : s.readOutbuf a = s.outRead a := if_pos h

/-- Settles O7: each access is one branch of the register window. -/
theorem registerWindow : Obligations.RegisterWindow := by
  intro s
  refine ⟨fun word => stepInput_cmd word s, fun offset word halign hoff => ?_, rfl, rfl, rfl,
    fun offset halign hlow hhigh => ?_, fun offset hoff => ⟨fun hi => ?_, ?_⟩⟩
  · simp only [stepInput, halign, hoff, ne_eq, not_true, if_false]
  · have hreg : s.readReg offset.toNat = 0 := by
      rw [State.readReg, if_neg (by omega), if_neg (by omega), if_neg (by omega)]
    have hrange : ¬ (offset.toNat % 4 ≠ 0 ∨ 0x2000 ≤ offset.toNat) := by omega
    simp only [stepInput, hrange, show offset.toNat ≠ 4 by omega, hreg, if_false]
  · rw [stepInput_read8 hoff, drawn_of_inited hi, readOutbuf_of_inited hi]
  · exact ⟨_, _, stepInput_read8 hoff s, by rw [drawn_frame]⟩

end Sys2Proof.Proofs
end

section
/-! SUPPORT. What byte requests keep: a fact of the state that every primitive of the datapath keeps is kept by a whole
request (43_decompressor.md R180-R184). -/

namespace Sys2Proof.Proofs

open Sys2Proof.Config Sys2Proof.Machine Sys2Proof.Safety Sys2Proof.Laws

/-! ### How a primitive ends -/

/-- A primitive that answers does so with `P`, and one that raises does so with `Q`. -/
def Ends {α : Type} (P : α → State → Prop) (Q : Err → State → Prop) : Res α → Prop
  | .ok a s => P a s
  | .raise e s => Q e s

@[simp] theorem ends_ok {α : Type} {P : α → State → Prop} {Q : Err → State → Prop} {a : α} {s : State} :
    Ends P Q (.ok a s) ↔ P a s := Iff.rfl

@[simp] theorem ends_raise {α : Type} {P : α → State → Prop} {Q : Err → State → Prop} {e : Err} {s : State} :
    Ends P Q (.raise e s : Res α) ↔ Q e s := Iff.rfl

theorem ends_bind {α β : Type} {P : α → State → Prop} {P' : β → State → Prop} {Q : Err → State → Prop} {x : Res α}
    {f : α → State → Res β} (hx : Ends P Q x) (hf : ∀ a s, P a s → Ends P' Q (f a s)) : Ends P' Q (x.bind f) := by
  cases x with
  | ok a s => exact hf a s hx
  | raise e s => exact hx

theorem ends_mono {α : Type} {P P' : α → State → Prop} {Q Q' : Err → State → Prop} {x : Res α} (hx : Ends P Q x)
    (hP : ∀ a s, P a s → P' a s) (hQ : ∀ e s, Q e s → Q' e s) : Ends P' Q' x := by
  cases x with
  | ok a s => exact hP a s hx
  | raise e s => exact hQ e s hx

/-! ### Symbols -/

theorem nextBit_compressed (s : State) : (nextBit s).2.compressed = s.compressed := by rw [nextBit_onlyBits s]

/-- A fact every bit read keeps is kept by a walk. -/
theorem walk_keeps {P : State → Prop} (hbit : ∀ s, P s → P (nextBit s).2) (n c : Nat) {s : State} (hs : P s) :
    Ends (fun _ => P) (fun e t => e = .treeInvariantViolation ∧ P t) (walk n c s) := by
  induction n generalizing c s with
  | zero =>
    unfold walk
    split
    · exact ⟨rfl, hs⟩
    · exact hs
  | succ n ih =>
    unfold walk
    split
    · exact ih _ (hbit s hs)
    · exact hs

/-- A fact of the state that decoding a symbol keeps. -/
structure SymbolStable (P : State → Prop) : Prop where
  bit : ∀ s, P s → P (nextBit s).2
  counted : ∀ s sym tree, P s → s.compressed = true → sym < N_CHAR → update s.tree sym = .ok tree →
    P { s with tree := tree }
  breach : ∀ s sym tree, P s → s.compressed = true → sym < N_CHAR → update s.tree sym = .breach tree →
    P { s with tree := tree }

/-- A fact of the state that every primitive of the datapath keeps. -/
structure ByteStable (P : State → Prop) : Prop extends SymbolStable P where
  raw : ∀ s, P s → P (rawByte s).2
  idle : ∀ s, P s → P { s with mstate := .idle }
  literal : ∀ s b, P s → P (pushLiteral b s)
  copy : ∀ s, P s → s.copyPending = true → P (copyStep s)
  entry : ∀ s k, P s → k.toNat < 58 → P (matchEntry k s)

/-- What `DecodeSymbol` does with the symbol the walk ends at (R132). -/
def countLeaf (sym : Nat) (s : State) : Res Nat :=
  if sym < N_CHAR then countSymbol sym s else .raise .treeInvariantViolation s

theorem decodeSymbol_of_walk_ok {s t : State} {c sym : Nat} (h : walk TSIZE (s.tree.sonAt ROOT) s = .ok c t)
    (hsym : sym = c - TSIZE) : decodeSymbol s = countLeaf sym t := by
  simp only [decodeSymbol, h, Res.bind, countLeaf, hsym]

theorem decodeSymbol_of_walk_raise {s t : State} {e : Err} (h : walk TSIZE (s.tree.sonAt ROOT) s = .raise e t) :
    decodeSymbol s = .raise e t := by
  rw [decodeSymbol, h]
  rfl

theorem countLeaf_keeps {P : State → Prop} (h : SymbolStable P) {s : State} (hs : P s) (hmode : s.compressed = true)
    (sym : Nat) :
    Ends (fun sym t => sym < N_CHAR ∧ P t) (fun e t => e = .treeInvariantViolation ∧ P t) (countLeaf sym s) := by
  unfold countLeaf
  split
  case isFalse => exact ⟨rfl, hs⟩
  case isTrue hsym =>
    unfold countSymbol
    split
    case h_1 tree htree => exact ⟨hsym, h.counted s _ tree hs hmode hsym htree⟩
    case h_2 tree htree => exact ⟨rfl, h.breach s _ tree hs hmode hsym htree⟩

theorem decodeSymbol_keeps {P : State → Prop} (h : SymbolStable P) {s : State} (hs : P s) (hmode : s.compressed = true) :
    Ends (fun sym t => sym < N_CHAR ∧ P t) (fun e t => e = .treeInvariantViolation ∧ P t) (decodeSymbol s) := by
  have hbit : ∀ s, P s ∧ s.compressed = true → P (nextBit s).2 ∧ (nextBit s).2.compressed = true :=
    fun s hs => ⟨h.bit s hs.1, (nextBit_compressed s).trans hs.2⟩
  have hwalk := ends_mono (walk_keeps hbit TSIZE (s.tree.sonAt ROOT) ⟨hs, hmode⟩) (fun _ _ ht => ht)
    (Q' := fun e t => e = .treeInvariantViolation ∧ P t) fun e t ht => ⟨ht.1, ht.2.1⟩
  cases hw : walk TSIZE (s.tree.sonAt ROOT) s with
  | raise e t => rw [decodeSymbol_of_walk_raise hw]; rw [hw] at hwalk; exact hwalk
  | ok c t =>
    rw [hw] at hwalk
    obtain ⟨ht, htmode⟩ := hwalk
    rw [decodeSymbol_of_walk_ok hw rfl]
    exact countLeaf_keeps h ht htmode _

section
variable {P : State → Prop} (h : ByteStable P)
include h

theorem deliverSymbol_keeps {s : State} {sym : Nat} (hs : P s) (hsym : sym < N_CHAR) : P (deliverSymbol sym s) := by
  unfold deliverSymbol
  split
  case isTrue => exact h.literal s _ hs
  case isFalse hge =>
    refine h.entry s _ hs ?_
    rw [BitVec.toNat_ofNat]
    simp only [N_CHAR] at hsym
    omega

theorem decNextByte_keeps {s : State} (hs : P s) (hmode : s.compressed = true) :
    Ends (fun _ => P) (fun e t => e = .treeInvariantViolation ∧ P t) (decNextByte s) := by
  unfold decNextByte
  split
  case isTrue => exact hs
  case isFalse =>
    split
    case isTrue hcopy => exact h.copy s hs hcopy
    case isFalse =>
      exact ends_bind (decodeSymbol_keeps h.toSymbolStable (h.idle s hs) hmode) fun sym t ht => deliverSymbol_keeps h ht.2 ht.1

/-- A byte request keeps what every primitive of the datapath keeps, and the one error it raises is
TreeInvariantViolation. -/
theorem byteIn_keeps {s : State} (hs : P s) :
    Ends (fun _ => P) (fun e t => e = .treeInvariantViolation ∧ P t) (byteIn s) := by
  cases hmode : s.compressed with
  | true => rw [byteIn_compressed hmode]; exact decNextByte_keeps h hs hmode
  | false => rw [byteIn_raw hmode]; exact h.raw s hs

end

/-! ### What a byte request pushes -/

/-- The window and its cursor stay as they are. -/
def SameWindow (s t : State) : Prop := t.win = s.win ∧ t.r = s.r

theorem sameWindow_of_onlyBits {s t : State} (h : OnlyBits s t) : SameWindow s t := by
  rw [h]
  exact ⟨rfl, rfl⟩

theorem pushed_of_sameWindow {bs : List (BitVec 8)} {s t u : State} (h : SameWindow s t) (h' : Pushed bs t u) :
    Pushed bs s u := pushed_append (bs := []) (pushed_nil h.1 h.2) h'

theorem symbolStable_sameWindow (s : State) : SymbolStable (SameWindow s) where
  bit t ht := by
    obtain ⟨hwin, hr⟩ := sameWindow_of_onlyBits (nextBit_onlyBits t)
    exact ⟨hwin.trans ht.1, hr.trans ht.2⟩
  counted _ _ _ ht _ _ _ := ht
  breach _ _ _ ht _ _ _ := ht

theorem deliverSymbol_pushes (sym : Nat) {s : State} (h : s.win.wf FILL) :
    Pushed [(deliverSymbol sym s).outByte] s (deliverSymbol sym s) := by
  unfold deliverSymbol
  split
  case isTrue => exact pushed_pushLiteral _ h
  case isFalse =>
    generalize BitVec.ofNat 8 (sym - 256) = k
    have hentry := matchEntry_eq k (s := s) rfl
    obtain ⟨hwin, hr, -, -⟩ := decodePosition_frame (withMatchLength k s)
    generalize decodePosition (withMatchLength k s) = u at hentry hwin hr
    rw [hentry]
    refine pushed_of_sameWindow ?_ (pushed_pushLiteral _ ?_)
    · exact ⟨hwin, hr⟩
    · exact hwin ▸ h

/-- In compressed mode a request pushes the byte it delivers, and nothing where it delivers none. -/
theorem decNextByte_pushes {s : State} (hwin : s.win.wf FILL) (hmode : s.compressed = true) :
    Ends (fun b t => Pushed b.toList s t) (fun _ t => Pushed [] s t) (decNextByte s) := by
  unfold decNextByte
  split
  case isTrue => exact pushed_nil rfl rfl
  case isFalse =>
    split
    case isTrue => exact pushed_copyStep hwin
    case isFalse =>
      have hsym := decodeSymbol_keeps (symbolStable_sameWindow s) (s := { s with mstate := .idle }) ⟨rfl, rfl⟩ hmode
      refine ends_bind (ends_mono hsym (fun _ _ ht => ht.2) fun _ _ ht => pushed_nil ht.2.1 ht.2.2) fun sym t ht => ?_
      exact pushed_of_sameWindow ht (deliverSymbol_pushes sym (ht.1 ▸ hwin))

/-- What a byte request delivers into the window: in raw mode nothing (R186). -/
theorem byteIn_pushes {s : State} (hwin : s.win.wf FILL) :
    Ends (fun b t => Pushed (if s.compressed then b.toList else []) s t) (fun _ t => Pushed [] s t) (byteIn s) := by
  cases hmode : s.compressed with
  | true => rw [byteIn_compressed hmode]; exact decNextByte_pushes hwin hmode
  | false =>
    obtain ⟨hwin', hr⟩ := sameWindow_of_onlyBits (rawByte_onlyBits s)
    rw [byteIn_raw hmode]
    exact pushed_nil hwin' hr

end Sys2Proof.Proofs
end

section
/-! SUPPORT. The READ commands on a pending match, at the end of the stream and in raw mode (43_decompressor.md R180,
R184, R185, 45_host_commands.md R232, R233), and what `Need` raises (44_sector_payload.md R200). -/

namespace Sys2Proof.Proofs

open Sys2Proof.Config Sys2Proof.Machine Sys2Proof.Safety Sys2Proof.Laws

theorem eofStops_eq_eof (s : State) : s.eofStops = s.eof := by simp [State.eofStops, eofAtFirstFailedRead]

theorem copyPending_of_lt {s : State} (hm : s.mstate = .copyingMatch) (hc : s.copied.toNat < s.mlen.toNat) :
    s.copyPending = true := by simp [State.copyPending, hm, hc]

theorem byteIn_pending {s : State} (hmode : s.compressed = true) (heof : s.eof = false)
    (hpend : s.copyPending = true) : byteIn s = .ok (some (copyStep s).outByte) (copyStep s) := by
  simp [byteIn, decNextByte, hmode, eofStops_eq_eof, heof, hpend]

theorem byteIn_ended {s : State} (hmode : s.compressed = true) (heof : s.eof = true) : byteIn s = .ok none s := by
  simp [byteIn, decNextByte, hmode, eofStops_eq_eof, heof]

/-- Settles O31: the byte request is one copy step. -/
theorem readByteDeliversThePendingMatch : Obligations.ReadByteDeliversThePendingMatch := by
  intro s b hs hmode heof hm hc hwin hb
  have hout : (copyStep s).outByte = b := by rw [copyStep_outByte, copyIndex_toNat, hb]
  have hread : exec .readByte s = .next { copyStep s with data := b.setWidth 16, err := .success } := by
    rw [exec_readByte hs, readByte_of_byteIn (byteIn_pending hmode heof (copyPending_of_lt hm hc)), hout]
    rfl
  exact ⟨_, hread, rfl, by rw [← hout]; rfl, fun a => hout ▸ winRead_pushLiteral _ hwin a⟩

/-- Settles O32: the first byte request ends at once, so no word is put together either. -/
theorem endOfStreamAtEntry : Obligations.EndOfStreamAtEntry := by
  intro s hs hmode heof
  have hend := byteIn_ended hmode heof
  refine ⟨?_, ?_⟩
  · rw [exec_readByte hs, readByte_of_byteIn hend]
    exact congrArg _ (finishRead_none s)
  · rw [exec_readWordLe hs, readWordLe, wordIn_of_first_missing hend, finishRead_none]

/-! ### Raw mode -/

theorem byteIn_raw_byte {s : State} {b : Byte} (hmode : s.compressed = false) (heof : s.eof = false)
    (hb : s.src[s.spos]? = some b) : byteIn s = .ok (some b) { s with spos := s.spos + 1 } := by
  rw [byteIn_raw hmode, (rawByteIsSticky s).2.1 b heof hb]

theorem byteIn_raw_none {s : State} (hmode : s.compressed = false) (hend : s.eof = true ∨ s.src[s.spos]? = none) :
    byteIn s = .ok none { s with eof := true } := by
  rw [byteIn_raw hmode]
  obtain ⟨b, heof, hb, hraw⟩ | ⟨heof, hraw⟩ | ⟨heof, hnone, hraw⟩ := rawByte_cases s
  · simp [heof, hb] at hend
  · rw [hraw, ← heof]
  · rw [hraw]

/-- Settles O45: each case is one answer of the byte requests, put together by the READ command. -/
theorem rawModeReads : Obligations.RawModeReads := by
  intro s hs hmode
  have hfirst : ∀ lo, s.eof = false → s.src[s.spos]? = some lo → byteIn s = .ok (some lo) { s with spos := s.spos + 1 } :=
    fun lo => byteIn_raw_byte hmode
  refine ⟨fun b heof hb => ?_, fun lo hi heof hlo hhi => ?_, fun lo heof hlo hhi => ?_, fun hend => ?_⟩
  · exact (readByteResult s _ hs).2.1 b (hfirst b heof hb)
  · exact (readWordResult s _ _ hs).2.1 lo hi (hfirst lo heof hlo) (byteIn_raw_byte hmode heof hhi)
  · exact (readWordResult s _ _ hs).2.2.1 lo (hfirst lo heof hlo) (byteIn_raw_none hmode (.inr hhi))
  · have hnone := byteIn_raw_none hmode hend
    exact ⟨(readByteResult s _ hs).2.2 hnone, (readWordResult s _ s hs).2.2.2 hnone⟩

/-- Settles O58: `Need` turns a missing byte into StreamExhausted and passes on what a byte request raises. -/
theorem needRaisesStreamExhausted : Obligations.NeedRaisesStreamExhausted := by
  intro s t
  refine ⟨fun b hb => by rw [need, hb]; rfl, fun hend => by rw [need, hend]; rfl, fun e he => by rw [need, he]; rfl,
    fun hmode heof => ?_, fun hmode heof hnone => ?_⟩
  · have hs : { s with eof := true } = s := by rw [← heof]
    rw [need, byteIn_raw_none hmode (.inl heof), hs]
    rfl
  · rw [need, byteIn_raw_none hmode (.inr hnone)]
    rfl

end Sys2Proof.Proofs
end

section
/-! SUPPORT. The shape and the weights of a code tree, apart from each other (41_huffman.md R133, R137). Slots are 0..626,
slot 626 is the root, and the back-links of the 314 leaves stand at 627..940. -/

namespace Sys2Proof.Proofs

open Sys2Proof.Config Sys2Proof.Machine Sys2Proof.Safety Sys2Proof.Laws

/-! ### Shape -/

/-- Contents `i` of a slot names entry `x` of the back-links: the leaf itself, or either slot of a child pair. -/
abbrev Names (i x : Nat) : Prop := x = i ∨ (i < 627 ∧ x = i + 1)

/-- What R137 says of the links: a slot holds a leaf or a child pair below it, and every back-link leads to the slot that
names it. -/
structure Shape (t : Tree) : Prop where
  son : ∀ y, y < 627 → t.sonAt y < 941
  pair : ∀ y, y < 627 → t.sonAt y < 627 → t.sonAt y % 2 = 0 ∧ t.sonAt y + 1 < y
  back : ∀ x, x < 941 → x ≠ 626 → t.parentAt x < 627 ∧ Names (t.sonAt (t.parentAt x)) x
  root : t.parentAt 626 = 0

section
variable {t : Tree} (h : Shape t)
include h

/-- Only one contents names an entry. -/
theorem Shape.names_unique {y z x : Nat} (hy : y < 627) (hz : z < 627) (hyx : Names (t.sonAt y) x)
    (hzx : Names (t.sonAt z) x) : t.sonAt y = t.sonAt z := by
  have hy' := h.pair y hy
  have hz' := h.pair z hz
  unfold Names at hyx hzx
  omega

theorem Shape.not_names_root {y : Nat} (hy : y < 627) : ¬ Names (t.sonAt y) 626 := by
  have hy' := h.pair y hy
  unfold Names
  omega

/-- A slot named by a child pair is below the pair's parent. -/
theorem Shape.lt_of_names {y x : Nat} (hy : y < 627) (hx : x < 627) (hyx : Names (t.sonAt y) x) :
    x < y ∧ t.sonAt y < 627 := by
  have hy' := h.pair y hy
  unfold Names at hyx
  omega

/-- The number of what a slot holds: the 313 child pairs, then the 314 leaves. -/
def contentsIndex (i : Nat) : Nat := if i < 627 then i / 2 else i - 314

theorem Shape.contentsIndex_lt {y : Nat} (hy : y < 627) : contentsIndex (t.sonAt y) < 627 := by
  have := h.son y hy
  unfold contentsIndex
  split <;> omega

/-- The entry that the `m`-th contents names first. -/
theorem Shape.contentsIndex_surjective {m : Nat} (hm : m < 627) : ∃ y, y < 627 ∧ contentsIndex (t.sonAt y) = m := by
  obtain ⟨hy, hnames⟩ := h.back (if m < 313 then 2 * m else m + 314) (by split <;> omega) (by split <;> omega)
  refine ⟨_, hy, ?_⟩
  have hpair := h.pair _ hy
  unfold Names at hnames
  unfold contentsIndex
  split_ifs at * <;> omega

/-- No two slots hold the same: the back-links reach 627 contents, one for each of the 627 slots. -/
theorem Shape.son_injective {x y : Nat} (hx : x < 627) (hy : y < 627) (hxy : t.sonAt x = t.sonAt y) : x = y := by
  let index : Fin 627 → Fin 627 := fun z => ⟨contentsIndex (t.sonAt z), h.contentsIndex_lt z.isLt⟩
  have hsurj : Function.Surjective index := fun m => by
    obtain ⟨z, hz, hzm⟩ := h.contentsIndex_surjective m.isLt
    exact ⟨⟨z, hz⟩, Fin.ext hzm⟩
  have hinj := Finite.injective_iff_surjective.mpr hsurj
  exact congrArg Fin.val (@hinj ⟨x, hx⟩ ⟨y, hy⟩ (Fin.ext (congrArg contentsIndex hxy)))

/-- The back-link of an entry is the one slot that names it. -/
theorem Shape.parent_eq_iff {x y : Nat} (hx : x < 941) (hx' : x ≠ 626) (hy : y < 627) :
    t.parentAt x = y ↔ Names (t.sonAt y) x := by
  obtain ⟨hp, hnames⟩ := h.back x hx hx'
  refine ⟨fun heq => heq ▸ hnames, fun hyx => h.son_injective hp hy (h.names_unique hp hy hnames hyx)⟩

/-- A back-link of a slot leads up. -/
theorem Shape.lt_parent {x : Nat} (hx : x < 626) :
    x < t.parentAt x ∧ t.parentAt x < 627 ∧ t.sonAt (t.parentAt x) < 627 := by
  obtain ⟨hp, hnames⟩ := h.back x (by omega) (by omega)
  obtain ⟨hlt, hson⟩ := h.lt_of_names hp (by omega) hnames
  exact ⟨hlt, hp, hson⟩

/-- The leaf of a symbol holds it. -/
theorem Shape.leaf_of_parent {x y : Nat} (hx : x < 314) (hy : y < 627) :
    t.parentAt (627 + x) = y ↔ t.sonAt y = 627 + x := by
  have hpair := h.pair y hy
  rw [h.parent_eq_iff (by omega) (by omega) hy]
  unfold Names
  omega

end

/-! ### Weights -/

/-- What R137 says of the weights, where the weight of slot `c` is still one short of what it holds: between the passes of
an update `c` is the slot to count next, and with `c = 627` no slot is short. -/
structure Weighed (c : Nat) (t : Tree) : Prop where
  shape : Shape t
  sentinel : t.freqAt 627 = 65535
  sorted : ∀ x, x < 626 → t.freqAt x ≤ t.freqAt (x + 1)
  positive : ∀ x, x < 627 → 1 ≤ t.freqAt x
  node : ∀ y, y < 627 → t.sonAt y < 627 →
    t.freqAt y + (if y = c then 1 else 0) = t.freqAt (t.sonAt y) + t.freqAt (t.sonAt y + 1)

theorem freqAt_mono {t : Tree} (h : ∀ x, x < 626 → t.freqAt x ≤ t.freqAt (x + 1)) {a b : Nat} (hab : a ≤ b)
    (hb : b < 627) : t.freqAt a ≤ t.freqAt b := by
  induction b, hab using Nat.le_induction with
  | base => exact le_refl _
  | succ b hab ih => exact (ih (by omega)).trans (h b (by omega))

/-- A tree that meets R137 has its shape and weights. -/
theorem weighed_of_treeInv {t : Tree} (h : TreeInv t) : Weighed 627 t where
  shape := by
    have hson : ∀ y, y < 627 → t.sonAt y < 941 := fun y hy => by
      have := h.leaf_value y hy
      simp only [TSIZE, N_CHAR] at this
      omega
    refine ⟨hson, fun y hy hi => ?_, fun x hx hx' => ?_, h.root_parent⟩
    · obtain ⟨heven, hlt, hsum⟩ := h.node y hy hi
      have hpos := h.positive (t.sonAt y) hi
      refine ⟨heven, Nat.lt_of_not_le fun hle => ?_⟩
      have := freqAt_mono h.sorted hle hlt
      omega
    · by_cases hslot : x < 627
      · obtain ⟨hp, hlink⟩ := h.link x (show x < 626 by omega)
        exact ⟨hp, by unfold Names; omega⟩
      · obtain ⟨hp, hleaf⟩ := h.leaf_slot (x - 627) (show x - 627 < 314 by omega)
        rw [show TSIZE + (x - 627) = x by simp only [TSIZE]; omega] at hp hleaf
        exact ⟨hp, .inl hleaf.symm⟩
  sentinel := h.sentinel
  sorted := h.sorted
  positive := h.positive
  node y hy hi := by
    rw [if_neg (by omega), Nat.add_zero]
    exact (h.node y hy hi).2.2

/-- A tree with its shape and weights, whose root is the sum of the leaves and in range, meets R137. -/
theorem Weighed.treeInv {t : Tree} (h : Weighed 627 t) (hsum : t.freqAt ROOT = leafSum t N_CHAR)
    (hle : t.freqAt ROOT ≤ MAX_FREQ) : TreeInv t where
  sentinel := h.sentinel
  sorted := h.sorted
  node y hy hi := by
    obtain ⟨heven, hlt⟩ := h.shape.pair y hy hi
    have hnode := h.node y hy hi
    rw [if_neg (Nat.ne_of_lt hy), Nat.add_zero] at hnode
    exact ⟨heven, hlt.trans hy, hnode⟩
  leaf_value y hy _ := h.shape.son y hy
  leaf_slot sym hs := by
    have hp := (h.shape.back (627 + sym) (by simp only [N_CHAR] at hs; omega) (by omega)).1
    exact ⟨hp, (h.shape.leaf_of_parent hs hp).mp rfl⟩
  leaf_unique y sym hy hs hson := ((h.shape.leaf_of_parent hs hy).mpr hson).symm
  link x hx := by
    have hx' : x < 626 := hx
    obtain ⟨hp, hnames⟩ := h.shape.back x (by omega) (by omega)
    obtain ⟨hlt, hson⟩ := h.shape.lt_of_names hp (by omega) hnames
    have hpair := h.shape.pair _ hp hson
    refine ⟨hp, ?_⟩
    unfold Names at hnames
    omega
  root_parent := h.shape.root
  positive := h.positive
  root_sum := hsum
  root_le := hle
  slot_zero := Nat.le_of_not_lt fun hi => by
    have := h.shape.pair 0 (by decide) hi
    omega

end Sys2Proof.Proofs
end

section
/-! SUPPORT. One pass of an update (41_huffman.md R133): counting a slot, and exchanging it to keep the weights sorted. -/

namespace Sys2Proof.Proofs

open Sys2Proof.Config Sys2Proof.Machine Sys2Proof.Safety Sys2Proof.Laws

/-! ### The scan -/

/-- The scan stops at the last slot of the run of weights below `k` that it starts in. -/
theorem scanFrom_spec {t : Tree} {k : Nat} (hk : k ≤ t.freqAt 627) {n l : Nat} (hl : l ≤ 626) (hn : 626 ≤ l + n) :
    l ≤ t.scanFrom k n l ∧ t.scanFrom k n l ≤ 626 ∧ k ≤ t.freqAt (t.scanFrom k n l + 1) ∧
    ∀ x, l < x → x ≤ t.scanFrom k n l → t.freqAt x < k := by
  induction n generalizing l with
  | zero =>
    obtain rfl : l = 626 := by omega
    exact ⟨le_refl _, le_refl _, hk, fun x hx hx' => absurd hx' (Nat.not_le.mpr hx)⟩
  | succ n ih =>
    unfold Tree.scanFrom
    split
    case isTrue hlt =>
      have hne : l ≠ 626 := fun h => by subst h; exact absurd hk (Nat.not_le.mpr hlt)
      obtain ⟨hge, hle, hstop, hrun⟩ := ih (l := l + 1) (by omega) (by omega)
      refine ⟨by omega, hle, hstop, fun x hx hx' => ?_⟩
      obtain rfl | hx'' : x = l + 1 ∨ l + 1 < x := by omega
      · exact hlt
      · exact hrun x hx'' hx'
    case isFalse hge =>
      exact ⟨le_refl _, hl, Nat.not_lt.mp hge, fun x hx hx' => absurd hx' (Nat.not_le.mpr hx)⟩

/-! ### The arrays after a pass -/

theorem parentAt_linkTo {t : Tree} {i p : Nat} (hi : i < 941) (hp : p < 627) (x : Nat) :
    (t.linkTo i p).parentAt x = if x = i ∨ (i < 627 ∧ x = i + 1) then p else t.parentAt x := by
  have hp' : p % 1024 = p := Nat.mod_eq_of_lt (by omega)
  unfold Tree.linkTo
  simp only [TSIZE]
  split
  case isTrue hpair =>
    rw [parentAt_setParent, parentAt_setParent, hp']
    split_ifs <;> omega
  case isFalse hleaf =>
    rw [parentAt_setParent, hp']
    split_ifs <;> omega

/-- What an exchange writes: the weights `freq[l]` and `k`, the two contents, and the entries each of them names. -/
theorem exchange_arrays {t : Tree} {c l k : Nat} (hc : c < 627) (hl : l < 627) (hk : k < 65536)
    (hi : t.sonAt c < 941) (hj : t.sonAt l < 941) :
    (∀ x, (t.exchange c l k).freqAt x = if x = l then k else if x = c then t.freqAt l else t.freqAt x) ∧
    (∀ x, (t.exchange c l k).sonAt x = if x = c then t.sonAt l else if x = l then t.sonAt c else t.sonAt x) ∧
    ∀ x, (t.exchange c l k).parentAt x =
      if Names (t.sonAt l) x then c else if Names (t.sonAt c) x then l else t.parentAt x := by
  have hfl : t.freqAt l % 65536 = t.freqAt l := Nat.mod_eq_of_lt (BitVec.isLt _)
  have hk' : k % 65536 = k := Nat.mod_eq_of_lt hk
  have hi' : t.sonAt c % 1024 = t.sonAt c := Nat.mod_eq_of_lt (by omega)
  have hj' : t.sonAt l % 1024 = t.sonAt l := Nat.mod_eq_of_lt (by omega)
  unfold Tree.exchange
  simp only [sonAt_setFreq, sonAt_linkTo]
  refine ⟨fun x => ?_, fun x => ?_, fun x => ?_⟩
  · simp only [freqAt_setSon, freqAt_linkTo, freqAt_setFreq, hfl, hk']
    split_ifs <;> omega
  · simp only [sonAt_setSon, sonAt_linkTo, sonAt_setFreq, hi', hj']
    split_ifs <;> omega
  · simp only [parentAt_setSon, parentAt_linkTo hj hc, parentAt_linkTo hi hl, parentAt_setFreq]

/-- What a pass that counts slot `c` and moves it to slot `l` leaves in the arrays: `c` and `l` exchange what they hold,
and every back-link follows. -/
structure Counted (t : Tree) (c l : Nat) (t' : Tree) : Prop where
  le : c ≤ l
  lt : l < 627
  flat : ∀ x, c ≤ x → x ≤ l → t.freqAt x = t.freqAt c
  stop : t.freqAt c + 1 ≤ t.freqAt (l + 1)
  freq : ∀ x, t'.freqAt x = if x = l then t.freqAt c + 1 else t.freqAt x
  son : ∀ x, x < 627 → t'.sonAt x = t.sonAt (Equiv.swap c l x)
  back : ∀ x, x < 941 → x ≠ 626 → t'.parentAt x = Equiv.swap c l (t.parentAt x)
  root : t'.parentAt 626 = t.parentAt 626

/-- An exchange moves the back-links with the contents they belong to. -/
theorem Shape.exchanged_parent {t : Tree} (h : Shape t) {c l x : Nat} (hc : c < 627) (hl : l < 627) (hx : x < 941)
    (hx' : x ≠ 626) :
    (if Names (t.sonAt l) x then c else if Names (t.sonAt c) x then l else t.parentAt x) =
      Equiv.swap c l (t.parentAt x) := by
  have hpc := h.parent_eq_iff hx hx' hc
  have hpl := h.parent_eq_iff hx hx' hl
  simp only [Equiv.swap_apply_def, ← hpc, ← hpl]
  split_ifs <;> omega

theorem count_spec {t : Tree} {c : Nat} (h : Weighed c t) (hc : c < 627) (hroot : t.freqAt 626 < 32768) :
    ∃ l t', t.count c = (t', l) ∧ Counted t c l t' := by
  have hshape := h.shape
  have hmax := freqAt_mono h.sorted (show c ≤ 626 by omega) (by omega)
  have hk : (t.freqAt c + 1) % 65536 = t.freqAt c + 1 := Nat.mod_eq_of_lt (by omega)
  have hset : ∀ x, (t.setFreq c (t.freqAt c + 1)).freqAt x = if x = c then t.freqAt c + 1 else t.freqAt x := fun x => by
    rw [freqAt_setFreq, hk]
    split_ifs <;> omega
  have hnext : (t.setFreq c (t.freqAt c + 1)).freqAt (c + 1) = t.freqAt (c + 1) := by rw [hset, if_neg (by omega)]
  have hself : (t.setFreq c (t.freqAt c + 1)).freqAt c = t.freqAt c + 1 := by rw [hset, if_pos rfl]
  unfold Tree.count
  simp only [hself, hnext]
  by_cases hgt : t.freqAt c + 1 > t.freqAt (c + 1)
  · have hc' : c ≠ 626 := fun he => by
      subst he
      have hsent : t.freqAt (626 + 1) = 65535 := h.sentinel
      omega
    obtain ⟨hge, hle, hstop, hrun⟩ := scanFrom_spec (t := t.setFreq c (t.freqAt c + 1)) (k := t.freqAt c + 1) (n := 627)
      (l := c + 1) (by rw [hset, if_neg (by omega), h.sentinel]; omega) (by omega) (by omega)
    simp only [if_pos hgt, TSIZE]
    generalize (t.setFreq c (t.freqAt c + 1)).scanFrom (t.freqAt c + 1) 627 (c + 1) = l at *
    obtain ⟨hfreq, hson, hback⟩ := exchange_arrays (t := t.setFreq c (t.freqAt c + 1)) (k := t.freqAt c + 1) hc
      (show l < 627 by omega) (by omega) (hshape.son c hc) (hshape.son l (by omega))
    have hflat : ∀ x, c ≤ x → x ≤ l → t.freqAt x = t.freqAt c := fun x hcx hxl => by
      have hmono := freqAt_mono h.sorted hcx (by omega)
      obtain rfl | rfl | hx : x = c ∨ x = c + 1 ∨ c + 1 < x := by omega
      · rfl
      · omega
      · have hlow := hrun x hx hxl
        rw [hset, if_neg (by omega)] at hlow
        omega
    refine ⟨l, _, rfl, by omega, by omega, hflat, ?_, fun x => ?_, fun x hx => ?_, fun x hx hx' => ?_, ?_⟩
    · rwa [hset, if_neg (by omega)] at hstop
    · rw [hfreq, hset, hset, if_neg (show l ≠ c by omega), hflat l (by omega) (le_refl l)]
      split_ifs with hxl hxc
      · rfl
      · rw [hxc]
      · rfl
    · rw [hson, Equiv.swap_apply_def]
      split_ifs <;> rfl
    · rw [hback]
      exact hshape.exchanged_parent hc (by omega) hx hx'
    · rw [hback]
      exact (if_neg (hshape.not_names_root (show l < 627 by omega))).trans (if_neg (hshape.not_names_root hc))
  · simp only [if_neg hgt]
    refine ⟨c, _, rfl, le_refl c, hc, fun x hcx hxc => by rw [Nat.le_antisymm hxc hcx], by omega, hset, fun x _ => ?_,
      fun x _ _ => ?_, rfl⟩ <;> rw [Equiv.swap_self] <;> rfl

/-! ### What a pass keeps -/

theorem Counted.swap_lt {t t' : Tree} {c l y : Nat} (h' : Counted t c l t') (hy : y < 627) :
    Equiv.swap c l y < 627 := by
  have hle := h'.le
  have hlt := h'.lt
  rw [Equiv.swap_apply_def]
  split_ifs <;> omega

/-- A pass adds one to the weight that stands at slot `l`. -/
theorem Counted.freq_eq {t t' : Tree} {c l : Nat} (h' : Counted t c l t') (x : Nat) :
    t'.freqAt x = t.freqAt x + if x = l then 1 else 0 := by
  rw [h'.freq]
  split
  case isTrue hx => rw [hx, h'.flat l h'.le (le_refl l)]
  case isFalse => rfl

/-- What `y` holds after the exchange is what `swap c l y` held, and weighs what it weighed, but for slot `c`. -/
theorem Counted.freq_swap {t t' : Tree} {c l : Nat} (h' : Counted t c l t') (y : Nat) :
    t'.freqAt y = t.freqAt (Equiv.swap c l y) + if Equiv.swap c l y = c then 1 else 0 := by
  have hflat := h'.flat l h'.le (le_refl l)
  rw [h'.freq_eq, Equiv.swap_apply_def]
  by_cases hyc : y = c
  · rw [if_pos hyc, hyc, hflat]
    simp only [eq_comm]
  · rw [if_neg hyc]
    by_cases hyl : y = l
    · rw [if_pos hyl, if_pos hyl, if_pos rfl, hyl, hflat]
    · rw [if_neg hyl, if_neg hyl, if_neg hyc]

/-- The slot an update goes on from, once slot `l` is counted: its parent, or none after the root. -/
def nextShort (t : Tree) (l : Nat) : Nat := if l = 626 then 627 else t.parentAt l

section
variable {t t' : Tree} {c l : Nat} (h : Weighed c t) (h' : Counted t c l t')
include h h'

/-- The exchange keeps pairs below their parents: the pair that moves down to `c` weighs less than slot `l` did. -/
theorem Counted.pair_below {y : Nat} (hy : y < 627) (hi : t.sonAt (Equiv.swap c l y) < 627) :
    t.sonAt (Equiv.swap c l y) % 2 = 0 ∧ t.sonAt (Equiv.swap c l y) + 1 < y := by
  have hle := h'.le
  have hlt := h'.lt
  rw [Equiv.swap_apply_def] at hi ⊢
  split_ifs at hi ⊢ with hyc hyl
  · obtain ⟨heven, hbelow⟩ := h.shape.pair l hlt hi
    refine ⟨heven, ?_⟩
    by_cases hcl : l = c
    · omega
    · have hnode := h.node l hlt hi
      rw [if_neg hcl, h'.flat l hle (le_refl l)] at hnode
      have hpos := h.positive _ hi
      refine Nat.lt_of_not_le fun hge => ?_
      have := freqAt_mono h.sorted (hyc ▸ hge) (show t.sonAt l + 1 < 627 by omega)
      omega
  · have := h.shape.pair c (by omega) hi
    omega
  · exact h.shape.pair y hy hi

theorem Counted.shape : Shape t' where
  son y hy := by
    rw [h'.son y hy]
    exact h.shape.son _ (h'.swap_lt hy)
  pair y hy hi := by
    rw [h'.son y hy] at hi ⊢
    exact h'.pair_below h hy hi
  back x hx hx' := by
    obtain ⟨hp, hnames⟩ := h.shape.back x hx hx'
    have hp' := h'.swap_lt hp
    rw [h'.back x hx hx', h'.son _ hp', Equiv.swap_apply_self]
    exact ⟨hp', hnames⟩
  root := h'.root.trans h.shape.root

theorem Counted.nextShort_iff {y : Nat} (hy : y < 627) : y = nextShort t' l ↔ Names (t'.sonAt y) l := by
  have hlt := h'.lt
  have hshape := h'.shape h
  unfold nextShort
  split
  case isTrue hroot => rw [hroot]; exact iff_of_false (by omega) (hshape.not_names_root hy)
  case isFalse hroot => rw [eq_comm, hshape.parent_eq_iff (by omega) hroot hy]

/-- A pass moves the shortfall up to the parent. -/
theorem Counted.weighed : Weighed (nextShort t' l) t' where
  shape := h'.shape h
  sentinel := by
    have hlt := h'.lt
    rw [h'.freq, if_neg (by omega), h.sentinel]
  sorted x hx := by
    have hsort := h.sorted x hx
    have hstop := h'.stop
    have hflat := h'.flat l h'.le (le_refl l)
    rw [h'.freq, h'.freq]
    split_ifs with hxl hxl' hxl'
    · omega
    · rw [hxl]; exact hstop
    · rw [hxl', hflat] at hsort; omega
    · exact hsort
  positive x hx := by
    have hpos := h.positive x hx
    rw [h'.freq]
    split <;> omega
  node y hy hi := by
    have hpair := (h'.shape h).pair y hy hi
    have hnode := h.node (Equiv.swap c l y) (h'.swap_lt hy)
    rw [← h'.son y hy] at hnode
    rw [h'.freq_swap, hnode hi, h'.freq_eq, h'.freq_eq]
    simp only [h'.nextShort_iff h hy]
    split_ifs <;> omega

/-- A pass adds one to the leaf it counts, if it counts one, and to no other. -/
theorem Counted.leafFreq_eq {x : Nat} (hx : x < 314) :
    leafFreq t' x = leafFreq t x + if t.sonAt c = 627 + x then 1 else 0 := by
  have hle := h'.le
  have hlt := h'.lt
  have hleaf := h.shape.leaf_of_parent hx (show c < 627 by omega)
  unfold leafFreq
  simp only [TSIZE]
  rw [h'.back (627 + x) (by omega) (by omega), h'.freq_swap, Equiv.swap_apply_self]
  simp only [hleaf]

end

/-! ### The loop of an update -/

theorem updateLoop_succ {t t' : Tree} {c l : Nat} (n : Nat) (h : t.count c = (t', l)) :
    updateLoop (n + 1) t c = if t'.parentAt l = 0 then .ok t' else updateLoop n t' (t'.parentAt l) := by
  rw [updateLoop, h]

/-- The loop counts its way up to the root: it ends well, with no slot short, one more at the root, and one more at the
leaf it began with, if it began with one. -/
theorem updateLoop_spec {n c : Nat} {t : Tree} (h : Weighed c t) (hc : c < 627) (hroot : t.freqAt 626 < 32768)
    (hn : 627 ≤ n + c) :
    ∃ t', updateLoop n t c = .ok t' ∧ Weighed 627 t' ∧ t'.freqAt 626 = t.freqAt 626 + 1 ∧
      ∀ x, x < 314 → leafFreq t' x = leafFreq t x + if t.sonAt c = 627 + x then 1 else 0 := by
  induction n generalizing t c with
  | zero => omega
  | succ n ih =>
    obtain ⟨l, t', hcount, h'⟩ := count_spec h hc hroot
    have hle := h'.le
    have hlt := h'.lt
    have hshape := h'.shape h
    have hweighed := h'.weighed h
    have hleaf := fun x hx => h'.leafFreq_eq h (x := x) hx
    have hrootFreq := h'.freq_eq 626
    rw [updateLoop_succ n hcount]
    unfold nextShort at hweighed
    by_cases hl : l = 626
    · rw [if_pos hl] at hweighed
      rw [if_pos (hl ▸ hshape.root)]
      exact ⟨t', rfl, hweighed, by rw [hrootFreq, if_pos hl.symm], hleaf⟩
    · obtain ⟨hup, hp, hson⟩ := hshape.lt_parent (x := l) (by omega)
      rw [if_neg hl] at hweighed
      rw [if_neg (Ne.symm hl)] at hrootFreq
      obtain ⟨u, hloop, hu, huroot, huleaf⟩ := ih hweighed hp (by omega) (by omega)
      refine ⟨u, by rw [if_neg (by omega), hloop], hu, by omega, fun x hx => ?_⟩
      rw [huleaf x hx, if_neg (by omega), Nat.add_zero, hleaf x hx]

/-- Counting one leaf adds one to the sum of the leaves. -/
theorem leafSum_of_leafFreq {t t' : Tree} {sym : Nat}
    (h : ∀ x, x < 314 → leafFreq t' x = leafFreq t x + if x = sym then 1 else 0) {n : Nat} (hn : n ≤ 314) :
    leafSum t' n = leafSum t n + if sym < n then 1 else 0 := by
  induction n with
  | zero => rfl
  | succ n ih =>
    rw [leafSum, leafSum, ih (by omega), h n (by omega)]
    split_ifs <;> omega

/-- Below MAX_FREQ an update keeps R137 and counts its symbol. -/
theorem updateLoop_keeps {t : Tree} {sym : Nat} (h : TreeInv t) (hroot : t.freqAt ROOT < MAX_FREQ)
    (hsym : sym < N_CHAR) :
    ∃ t', updateLoop TSIZE t (t.parentAt (TSIZE + sym)) = .ok t' ∧ TreeInv t' ∧ t'.freqAt ROOT = t.freqAt ROOT + 1 ∧
      ∀ x, x < N_CHAR → leafFreq t' x = leafFreq t x + if x = sym then 1 else 0 := by
  have hw := weighed_of_treeInv h
  have hsym' : sym < 314 := hsym
  obtain ⟨hslot, hleaf⟩ := h.leaf_slot sym hsym
  generalize t.parentAt (TSIZE + sym) = c at hslot hleaf ⊢
  have hwc : Weighed c t := ⟨hw.shape, hw.sentinel, hw.sorted, hw.positive, fun y hy hi => by
    have hyc : y ≠ c := fun he => by
      rw [he, hleaf] at hi
      simp only [TSIZE] at hi
      omega
    have hnode := hw.node y hy hi
    rw [if_neg (Nat.ne_of_lt hy)] at hnode
    rw [if_neg hyc, hnode]⟩
  obtain ⟨t', hloop, ht', hroot', hleaf'⟩ := updateLoop_spec (n := 627) hwc hslot hroot (by omega)
  have hcount : ∀ x, x < 314 → leafFreq t' x = leafFreq t x + if x = sym then 1 else 0 := fun x hx => by
    rw [hleaf' x hx, hleaf]
    simp only [TSIZE, Nat.add_left_cancel_iff, eq_comm]
  refine ⟨t', hloop, ht'.treeInv ?_ ?_, hroot', hcount⟩
  · have hsum := leafSum_of_leafFreq hcount (le_refl 314)
    have hold : t.freqAt 626 = leafSum t 314 := h.root_sum
    rw [if_pos hsym'] at hsum
    show t'.freqAt 626 = leafSum t' 314
    omega
  · show t'.freqAt 626 ≤ 32768
    rw [hroot']
    exact hroot

end Sys2Proof.Proofs
end

section
/-! SUPPORT. Step 1 of a rebuild (41_huffman.md R136): the leaves, gathered at the front with their weights halved. -/

namespace Sys2Proof.Proofs

open Sys2Proof.Config Sys2Proof.Machine Sys2Proof.Safety Sys2Proof.Laws

/-- A loop over `0 .. n - 1` establishes what each pass carries one step on. -/
theorem foldl_range_induction {α : Type} {f : α → Nat → α} {a : α} {P : Nat → α → Prop} {n : Nat} (h0 : P 0 a)
    (hstep : ∀ i x, i < n → P i x → P (i + 1) (f x i)) : P n ((List.range n).foldl f a) := by
  induction n with
  | zero => exact h0
  | succ n ih =>
    rw [List.range_succ, List.foldl_append]
    exact hstep n _ (Nat.lt_succ_self n) (ih fun i x hi => hstep i x (hi.trans (Nat.lt_succ_self n)))

theorem freqAt_lt (t : Tree) (x : Nat) : t.freqAt x < 65536 := BitVec.isLt _

theorem sonAt_lt (t : Tree) (x : Nat) : t.sonAt x < 1024 := BitVec.isLt _

/-- A slot is written as a whole: its weight and what it holds. -/
theorem setSlot_arrays {t : Tree} {x f i : Nat} (hx : x < 627) (hf : f < 65536) (hi : i < 1024) :
    (∀ y, ((t.setFreq x f).setSon x i).freqAt y = if y = x then f else t.freqAt y) ∧
    (∀ y, ((t.setFreq x f).setSon x i).sonAt y = if y = x then i else t.sonAt y) ∧
    ∀ y, ((t.setFreq x f).setSon x i).parentAt y = t.parentAt y := by
  refine ⟨fun y => ?_, fun y => ?_, fun _ => rfl⟩
  · rw [freqAt_setSon, freqAt_setFreq, Nat.mod_eq_of_lt hf]
    split_ifs <;> omega
  · rw [sonAt_setSon, sonAt_setFreq, Nat.mod_eq_of_lt hi]
    split_ifs <;> omega

/-! ### The leaf slots of a tree -/

/-- The slots below `i` that hold a leaf. -/
def leafSlots (t : Tree) (i : Nat) : Finset Nat := (Finset.range i).filter fun y => 627 ≤ t.sonAt y

theorem leafSlots_succ_of_leaf {t : Tree} {i : Nat} (h : 627 ≤ t.sonAt i) :
    leafSlots t (i + 1) = insert i (leafSlots t i) := by
  rw [leafSlots, Finset.range_add_one, Finset.filter_insert, if_pos h]
  rfl

theorem leafSlots_succ_of_pair {t : Tree} {i : Nat} (h : ¬ 627 ≤ t.sonAt i) : leafSlots t (i + 1) = leafSlots t i := by
  rw [leafSlots, Finset.range_add_one, Finset.filter_insert, if_neg h]
  rfl

theorem notMem_leafSlots (t : Tree) (i : Nat) : i ∉ leafSlots t i := by simp [leafSlots]

theorem card_leafSlots_le (t : Tree) (i : Nat) : (leafSlots t i).card ≤ i :=
  (Finset.card_filter_le _ _).trans (Finset.card_range i).le

/-- The leaves of a well-shaped tree are those of the 314 symbols. -/
theorem Shape.leafSlots_eq {t : Tree} (h : Shape t) :
    leafSlots t 627 = (Finset.range 314).image fun sym => t.parentAt (627 + sym) := by
  ext y
  simp only [leafSlots, Finset.mem_filter, Finset.mem_range, Finset.mem_image]
  constructor
  · rintro ⟨hy, hleaf⟩
    have hson := h.son y hy
    exact ⟨t.sonAt y - 627, by omega, (h.leaf_of_parent (by omega) hy).mpr (by omega)⟩
  · rintro ⟨sym, hsym, rfl⟩
    have hp := (h.back (627 + sym) (by omega) (by omega)).1
    have hson := (h.leaf_of_parent hsym hp).mp rfl
    exact ⟨hp, by omega⟩

theorem Shape.leafSlot_injective {t : Tree} (h : Shape t) :
    Set.InjOn (fun sym => t.parentAt (627 + sym)) (Finset.range 314 : Finset Nat) := by
  intro a ha b hb hab
  have ha' := (Finset.mem_coe.mp ha |> Finset.mem_range.mp)
  have hb' := (Finset.mem_coe.mp hb |> Finset.mem_range.mp)
  have hp := (h.back (627 + b) (by omega) (by omega)).1
  have hsa := (h.leaf_of_parent ha' hp).mp hab
  have hsb := (h.leaf_of_parent hb' hp).mp rfl
  omega

theorem Shape.card_leafSlots {t : Tree} (h : Shape t) : (leafSlots t 627).card = 314 := by
  rw [h.leafSlots_eq, Finset.card_image_of_injOn h.leafSlot_injective, Finset.card_range]

theorem Shape.sum_leafSlots {t : Tree} (h : Shape t) (f : Nat → Nat) :
    ∑ y ∈ leafSlots t 627, f y = ∑ sym ∈ Finset.range 314, f (t.parentAt (627 + sym)) := by
  rw [h.leafSlots_eq, Finset.sum_image h.leafSlot_injective]

theorem leafSum_eq_sum (t : Tree) (n : Nat) : leafSum t n = ∑ sym ∈ Finset.range n, leafFreq t sym := by
  induction n with
  | zero => rfl
  | succ n ih => rw [leafSum, Finset.sum_range_succ, ih]

/-! ### Gathering -/

/-- Of the slots below `i`, the leaves stand in slot order at the front, `j` of them, with their weights halved. -/
structure Gathered (t : Tree) (i : Nat) (u : Tree) (j : Nat) : Prop where
  count : j = (leafSlots t i).card
  rest : ∀ x, i ≤ x → u.sonAt x = t.sonAt x ∧ u.freqAt x = t.freqAt x
  back : ∀ x, u.parentAt x = t.parentAt x
  origin : ∀ m, m < j → ∃ y, y < i ∧ 627 ≤ t.sonAt y ∧ u.sonAt m = t.sonAt y ∧ u.freqAt m = (t.freqAt y + 1) / 2
  all : ∀ y, y < i → 627 ≤ t.sonAt y → ∃ m, m < j ∧ u.sonAt m = t.sonAt y
  sorted : ∀ m, m + 1 < j → u.freqAt m ≤ u.freqAt (m + 1)
  sum : ∑ m ∈ Finset.range j, u.freqAt m = ∑ y ∈ leafSlots t i, (t.freqAt y + 1) / 2

theorem gathered_zero (t : Tree) : Gathered t 0 t 0 where
  count := rfl
  rest _ _ := ⟨rfl, rfl⟩
  back _ := rfl
  origin m hm := absurd hm (Nat.not_lt_zero m)
  all y hy := absurd hy (Nat.not_lt_zero y)
  sorted _ hm := absurd hm (Nat.not_lt_zero _)
  sum := rfl

theorem gather_of_pair {u : Tree} {i : Nat} (j : Nat) (h : ¬ 627 ≤ u.sonAt i) : u.gather j i = (u, j) := if_neg h

theorem gather_of_leaf {u : Tree} {i : Nat} (j : Nat) (h : 627 ≤ u.sonAt i) :
    u.gather j i = ((u.setFreq j ((u.freqAt i + 1) / 2)).setSon j (u.sonAt i), j + 1) := if_pos h

theorem gathered_succ {t u : Tree} {i j : Nat} (ht : Weighed 627 t) (hi : i < 627) (h : Gathered t i u j) :
    Gathered t (i + 1) (u.gather j i).1 (u.gather j i).2 := by
  obtain ⟨hcount, hrest, hback, horigin, hall, hsorted, hsum⟩ := h
  obtain ⟨hson, hfreq⟩ := hrest i (le_refl i)
  have hji : j ≤ i := hcount ▸ card_leafSlots_le t i
  by_cases hleaf : 627 ≤ u.sonAt i
  · have hlt := freqAt_lt u i
    obtain ⟨hfreq', hson', hback'⟩ := setSlot_arrays (t := u) (x := j) (f := (u.freqAt i + 1) / 2) (by omega) (by omega)
      (sonAt_lt u i)
    rw [gather_of_leaf j hleaf]
    simp only
    generalize (u.setFreq j ((u.freqAt i + 1) / 2)).setSon j (u.sonAt i) = u' at hfreq' hson' hback'
    have hleaf' : 627 ≤ t.sonAt i := hson ▸ hleaf
    have hold : ∀ x, x ≠ j → u'.sonAt x = u.sonAt x ∧ u'.freqAt x = u.freqAt x := fun x hx =>
      ⟨by rw [hson', if_neg hx], by rw [hfreq', if_neg hx]⟩
    have hnew : u'.sonAt j = t.sonAt i ∧ u'.freqAt j = (t.freqAt i + 1) / 2 :=
      ⟨by rw [hson', if_pos rfl, hson], by rw [hfreq', if_pos rfl, hfreq]⟩
    refine ⟨?_, fun x hx => ?_, ?_, fun m hm => ?_, fun y hy hyleaf => ?_, fun m hm => ?_, ?_⟩
    · rw [leafSlots_succ_of_leaf hleaf', Finset.card_insert_of_notMem (notMem_leafSlots t i), hcount]
    · obtain ⟨hs, hf⟩ := hold x (by omega)
      rw [hs, hf]
      exact hrest x (by omega)
    · exact fun x => (hback' x).trans (hback x)
    · by_cases hmj : m = j
      · subst hmj
        exact ⟨i, by omega, hleaf', hnew⟩
      · obtain ⟨hs, hf⟩ := hold m hmj
        obtain ⟨y, hy, hyleaf⟩ := horigin m (by omega)
        rw [hs, hf]
        exact ⟨y, by omega, hyleaf⟩
    · by_cases hyi : y = i
      · exact ⟨j, by omega, hyi ▸ hnew.1⟩
      · obtain ⟨m, hm, hmson⟩ := hall y (by omega) hyleaf
        exact ⟨m, by omega, (hold m (by omega)).1.trans hmson⟩
    · by_cases hmj : m + 1 = j
      · obtain ⟨y, hy, -, -, hf⟩ := horigin m (by omega)
        have hmono := freqAt_mono ht.sorted hy.le hi
        rw [(hold m (by omega)).2, hmj, hnew.2, hf]
        omega
      · rw [(hold m (by omega)).2, (hold (m + 1) hmj).2]
        exact hsorted m (by omega)
    · rw [leafSlots_succ_of_leaf hleaf', Finset.sum_insert (notMem_leafSlots t i), Finset.sum_range_succ, hnew.2, ← hsum,
        Nat.add_comm]
      exact congrArg _ (Finset.sum_congr rfl fun m hm => (hold m (Nat.ne_of_lt (Finset.mem_range.mp hm))).2)
  · rw [gather_of_pair j hleaf]
    rw [hson] at hleaf
    have hslots := leafSlots_succ_of_pair hleaf
    refine ⟨hslots ▸ hcount, fun x hx => hrest x (by omega), hback, fun m hm => ?_, fun y hy hyleaf => ?_, hsorted,
      hslots ▸ hsum⟩
    · obtain ⟨y, hy, hyleaf⟩ := horigin m hm
      exact ⟨y, by omega, hyleaf⟩
    · refine hall y (Nat.lt_of_le_of_ne (by omega) fun he => hleaf (he ▸ hyleaf)) hyleaf

/-- Step 1 gathers the leaves of all slots. -/
theorem gathered_gatherLeaves {t : Tree} (ht : Weighed 627 t) :
    Gathered t 627 (gatherLeaves t).1 (gatherLeaves t).2 := by
  have hloop := foldl_range_induction (n := 627) (a := (t, 0)) (f := fun p i => p.1.gather p.2 i)
    (P := fun i (p : Tree × Nat) => Gathered t i p.1 p.2) (gathered_zero t) fun _ _ hi h => gathered_succ ht hi h
  exact hloop

end Sys2Proof.Proofs
end

section
/-! SUPPORT. Step 2 of a rebuild (41_huffman.md R136): pairing slots and inserting their parents in order of weight. -/

namespace Sys2Proof.Proofs

open Sys2Proof.Config Sys2Proof.Machine Sys2Proof.Safety Sys2Proof.Laws

/-! ### Inserting a slot -/

/-- The insertion point is past a slot of at most `f`, and every slot from it on weighs more. -/
theorem insertionPoint_spec (t : Tree) (f b : Nat) :
    t.insertionPoint f b ≤ b + 1 ∧ (t.insertionPoint f b = 0 ∨ t.freqAt (t.insertionPoint f b - 1) ≤ f) ∧
    ∀ x, t.insertionPoint f b ≤ x → x ≤ b → f < t.freqAt x := by
  induction b with
  | zero =>
    unfold Tree.insertionPoint
    split
    case isTrue hlt => exact ⟨by omega, .inl rfl, fun x _ hx => by rw [Nat.le_zero.mp hx]; exact hlt⟩
    case isFalse hge => exact ⟨by omega, .inr (Nat.not_lt.mp hge), fun x hx hx' => by omega⟩
  | succ b ih =>
    obtain ⟨hle, hlow, hhigh⟩ := ih
    unfold Tree.insertionPoint
    split
    case isTrue hlt =>
      refine ⟨by omega, hlow, fun x hx hx' => ?_⟩
      obtain hx'' | rfl : x ≤ b ∨ x = b + 1 := by omega
      · exact hhigh x hx hx''
      · exact hlt
    case isFalse hge => exact ⟨by omega, .inr (Nat.not_lt.mp hge), fun x hx hx' => by omega⟩

/-- Moving the top element of a run up first, and then the rest, moves the whole run. -/
theorem moveUp_succ {k n : Nat} {old new : Nat → Nat} (h : ∀ x, new x = if x = k + n + 1 then old (k + n) else old x)
    (x : Nat) :
    (if k < x ∧ x ≤ k + n then new (x - 1) else new x) = if k < x ∧ x ≤ k + (n + 1) then old (x - 1) else old x := by
  rw [h, h]
  by_cases htop : x = k + n + 1
  · rw [if_neg (by omega), if_pos htop, if_pos (by omega), htop]
    rfl
  · rw [if_neg htop]
    by_cases hin : k < x ∧ x ≤ k + n
    · rw [if_pos hin, if_neg (by omega), if_pos (by omega)]
    · rw [if_neg hin, if_neg (by omega)]

/-- A shift moves the slots `k .. k + n - 1` up by one. -/
theorem shiftUp_arrays {n k : Nat} {t : Tree} (h : k + n ≤ 626) :
    (∀ x, (t.shiftUp k n).freqAt x = if k < x ∧ x ≤ k + n then t.freqAt (x - 1) else t.freqAt x) ∧
    (∀ x, (t.shiftUp k n).sonAt x = if k < x ∧ x ≤ k + n then t.sonAt (x - 1) else t.sonAt x) ∧
    ∀ x, (t.shiftUp k n).parentAt x = t.parentAt x := by
  induction n generalizing t with
  | zero => exact ⟨fun x => (if_neg (by omega)).symm, fun x => (if_neg (by omega)).symm, fun _ => rfl⟩
  | succ n ih =>
    obtain ⟨hfreq, hson, hback⟩ := setSlot_arrays (t := t) (x := k + n + 1) (show k + n + 1 < 627 by omega)
      (freqAt_lt t (k + n)) (sonAt_lt t (k + n))
    unfold Tree.shiftUp
    generalize (t.setFreq (k + n + 1) (t.freqAt (k + n))).setSon (k + n + 1) (t.sonAt (k + n)) = u at hfreq hson hback ⊢
    obtain ⟨hfreq', hson', hback'⟩ := ih (t := u) (by omega)
    exact ⟨fun x => (hfreq' x).trans (moveUp_succ hfreq x), fun x => (hson' x).trans (moveUp_succ hson x),
      fun x => (hback' x).trans (hback x)⟩

/-- `old` with `v` inserted at `k`, and what stood at `k .. j - 1` moved up by one. -/
def inserted (k j v : Nat) (old : Nat → Nat) (x : Nat) : Nat :=
  if x = k then v else if k < x ∧ x ≤ j then old (x - 1) else old x

theorem inserted_of_lt {k x : Nat} (j v : Nat) (old : Nat → Nat) (h : x < k) : inserted k j v old x = old x := by
  rw [inserted, if_neg (by omega), if_neg (by omega)]

theorem inserted_self (k j v : Nat) (old : Nat → Nat) : inserted k j v old k = v := if_pos rfl

theorem inserted_succ {k j x : Nat} (v : Nat) (old : Nat → Nat) (h : k ≤ x) (hx : x < j) :
    inserted k j v old (x + 1) = old x := by
  rw [inserted, if_neg (by omega), if_pos (by omega), Nat.add_sub_cancel]

theorem inserted_of_gt {k j x : Nat} (v : Nat) (old : Nat → Nat) (h : j < x) (hk : k ≤ j) :
    inserted k j v old x = old x := by
  rw [inserted, if_neg (by omega), if_neg (by omega)]

/-- The insertion of step 2 in the arrays (R136). -/
theorem insertSlot_arrays {t : Tree} {k j f i : Nat} (hk : k ≤ j) (hj : j ≤ 626) (hf : f < 65536) (hi : i < 1024) :
    (∀ x, (((t.shiftUp k (j - k)).setFreq k f).setSon k i).freqAt x = inserted k j f t.freqAt x) ∧
    (∀ x, (((t.shiftUp k (j - k)).setFreq k f).setSon k i).sonAt x = inserted k j i t.sonAt x) ∧
    ∀ x, (((t.shiftUp k (j - k)).setFreq k f).setSon k i).parentAt x = t.parentAt x := by
  have hsum : k + (j - k) = j := by omega
  obtain ⟨hfreq, hson, hback⟩ := shiftUp_arrays (t := t) (k := k) (n := j - k) (by omega)
  obtain ⟨hfreq', hson', hback'⟩ := setSlot_arrays (t := t.shiftUp k (j - k)) (x := k) (by omega) hf hi
  rw [hsum] at hfreq hson
  exact ⟨fun x => by rw [hfreq', hfreq, inserted], fun x => by rw [hson', hson, inserted],
    fun x => (hback' x).trans (hback x)⟩

/-! ### The forest of step 2 -/

/-- The sum of the weights of the slots that have no parent after `m` pairs. -/
def openSum (u : Nat → Nat) (m : Nat) : Nat := ∑ x ∈ Finset.Ico (2 * m) (314 + m), u x

/-- After `m` pairs over the gathered leaves `g`: slots `0 .. 313 + m` are sorted, each holds a leaf of `g` or one of the
first `m` pairs with the sum of its weights, every leaf and every one of those pairs is held, and the slots without a
parent add up to the leaves. -/
structure Paired (g : Tree) (m : Nat) (u : Tree) : Prop where
  sentinel : u.freqAt 627 = g.freqAt 627
  back : ∀ x, u.parentAt x = g.parentAt x
  sorted : ∀ x, x + 1 < 314 + m → u.freqAt x ≤ u.freqAt (x + 1)
  positive : ∀ x, x < 314 + m → 1 ≤ u.freqAt x
  slot : ∀ x, x < 314 + m → (∃ k, k < 314 ∧ u.sonAt x = g.sonAt k ∧ u.freqAt x = g.freqAt k) ∨
    (u.sonAt x % 2 = 0 ∧ u.sonAt x < 2 * m ∧ u.sonAt x + 1 < x ∧
      u.freqAt x = u.freqAt (u.sonAt x) + u.freqAt (u.sonAt x + 1))
  leaves : ∀ k, k < 314 → ∃ x, x < 314 + m ∧ u.sonAt x = g.sonAt k
  pairs : ∀ q, q < m → ∃ x, x < 314 + m ∧ u.sonAt x = 2 * q
  sum : openSum u.freqAt m = openSum g.freqAt 0

theorem paired_zero {g : Tree} (hsorted : ∀ x, x + 1 < 314 → g.freqAt x ≤ g.freqAt (x + 1))
    (hpos : ∀ x, x < 314 → 1 ≤ g.freqAt x) : Paired g 0 g where
  sentinel := rfl
  back _ := rfl
  sorted := hsorted
  positive := hpos
  slot x hx := .inl ⟨x, hx, rfl, rfl⟩
  leaves k hk := ⟨k, hk, rfl⟩
  pairs _ hq := absurd hq (Nat.not_lt_zero _)
  sum := rfl

/-! ### Pairing -/

/-- The slots from `a` on, after an insertion among them, add up to what they did and what was inserted. -/
theorem sum_inserted {a k j : Nat} (v : Nat) (old : Nat → Nat) (ha : a ≤ k) (hk : k ≤ j) :
    ∑ x ∈ Finset.Ico a (j + 1), inserted k j v old x = v + ∑ x ∈ Finset.Ico a j, old x := by
  have hlow : ∑ x ∈ Finset.Ico a k, inserted k j v old x = ∑ x ∈ Finset.Ico a k, old x :=
    Finset.sum_congr rfl fun x hx => inserted_of_lt j v old (Finset.mem_Ico.mp hx).2
  have hhigh : ∑ x ∈ Finset.Ico (k + 1) (j + 1), inserted k j v old x = ∑ x ∈ Finset.Ico k j, old x := by
    rw [← Finset.sum_Ico_add' _ k j 1]
    exact Finset.sum_congr rfl fun x hx => inserted_succ v old (Finset.mem_Ico.mp hx).1 (Finset.mem_Ico.mp hx).2
  rw [← Finset.sum_Ico_consecutive _ ha (show k ≤ j + 1 by omega), Finset.sum_eq_sum_Ico_succ_bot (show k < j + 1 by omega), hlow,
    hhigh, inserted_self, ← Finset.sum_Ico_consecutive old ha hk]
  omega

/-- Above the inserted slot every slot holds what an old one held, which stood no higher. -/
theorem inserted_cases {k j x : Nat} (hk : k ≤ j) (hx : x < j + 1) :
    x = k ∨ ∃ y, y < j ∧ y ≤ x ∧ ∀ v old, inserted k j v old x = old y := by
  obtain hlt | heq | hgt := Nat.lt_trichotomy x k
  · exact .inr ⟨x, by omega, le_refl x, fun v old => inserted_of_lt j v old hlt⟩
  · exact .inl heq
  · refine .inr ⟨x - 1, by omega, by omega, fun v old => ?_⟩
    obtain ⟨y, rfl⟩ : ∃ y, x = y + 1 := ⟨x - 1, by omega⟩
    exact inserted_succ v old (by omega) (by omega)

/-- No old slot is lost. -/
theorem exists_inserted {k j y : Nat} (hy : y < j) :
    ∃ x, x < j + 1 ∧ ∀ v old, inserted k j v old x = old y := by
  by_cases hlt : y < k
  · exact ⟨y, by omega, fun v old => inserted_of_lt j v old hlt⟩
  · exact ⟨y + 1, by omega, fun v old => inserted_succ v old (by omega) hy⟩

theorem two_le_openSum {u : Nat → Nat} {m : Nat} (hm : m < 313) :
    openSum u m = u (2 * m) + u (2 * m + 1) + ∑ x ∈ Finset.Ico (2 * (m + 1)) (314 + m), u x := by
  rw [openSum, Finset.sum_eq_sum_Ico_succ_bot (by omega), Finset.sum_eq_sum_Ico_succ_bot (by omega), ← Nat.add_assoc]
  rfl

/-- Where the parent of slots `2 * m` and `2 * m + 1` goes: above them, in order of weight. -/
structure Insertion (u : Tree) (m k : Nat) : Prop where
  above : 2 * m + 1 < k
  le : k ≤ 314 + m
  low : u.freqAt (k - 1) ≤ u.freqAt (2 * m) + u.freqAt (2 * m + 1)
  high : ∀ x, k ≤ x → x < 314 + m → u.freqAt (2 * m) + u.freqAt (2 * m + 1) < u.freqAt x

theorem insertion_insertionPoint {g u : Tree} {m : Nat} (h : Paired g m u) (hm : m < 313) :
    Insertion u m (u.insertionPoint (u.freqAt (2 * m) + u.freqAt (2 * m + 1)) (314 + m - 1)) := by
  obtain ⟨hle, hlow, hhigh⟩ := insertionPoint_spec u (u.freqAt (2 * m) + u.freqAt (2 * m + 1)) (314 + m - 1)
  generalize u.insertionPoint (u.freqAt (2 * m) + u.freqAt (2 * m + 1)) (314 + m - 1) = k at hle hlow hhigh ⊢
  have habove : 2 * m + 1 < k := Nat.lt_of_not_le fun hge => by
    have := hhigh (2 * m + 1) hge (by omega)
    have := h.positive (2 * m) (by omega)
    omega
  exact ⟨habove, by omega, hlow.resolve_left (by omega), fun x hx hx' => hhigh x hx (by omega)⟩

/-- A pass of step 2 in the arrays. -/
theorem pairInto_arrays {g u : Tree} {m : Nat} (h : Paired g m u) (hm : m < 313) (hg : openSum g.freqAt 0 ≤ 16541) :
    ∃ k, Insertion u m k ∧
      (∀ x, (u.pairInto (314 + m)).freqAt x =
        inserted k (314 + m) (u.freqAt (2 * m) + u.freqAt (2 * m + 1)) u.freqAt x) ∧
      (∀ x, (u.pairInto (314 + m)).sonAt x = inserted k (314 + m) (2 * m) u.sonAt x) ∧
      ∀ x, (u.pairInto (314 + m)).parentAt x = u.parentAt x := by
  have hk := insertion_insertionPoint h hm
  have hsum := h.sum
  rw [two_le_openSum hm] at hsum
  have harrays := insertSlot_arrays (t := u) hk.le (by omega) (f := u.freqAt (2 * m) + u.freqAt (2 * m + 1)) (i := 2 * m)
    (by omega) (by omega)
  unfold Tree.pairInto
  simp only [N_CHAR, Nat.add_sub_cancel_left]
  exact ⟨_, hk, harrays⟩

theorem paired_succ {g u : Tree} {m : Nat} (h : Paired g m u) (hm : m < 313) (hg : openSum g.freqAt 0 ≤ 16541) :
    Paired g (m + 1) (u.pairInto (314 + m)) := by
  obtain ⟨k, ⟨habove, hk, hlow, hhigh⟩, hfreq, hson, hback⟩ := pairInto_arrays h hm hg
  generalize u.pairInto (314 + m) = u' at hfreq hson hback
  have hkeep : ∀ x, x < k → u'.freqAt x = u.freqAt x := fun x hx => (hfreq x).trans (inserted_of_lt _ _ _ hx)
  have hmoved : ∀ x, k ≤ x → x < 314 + m → u'.freqAt (x + 1) = u.freqAt x := fun x hx hx' =>
    (hfreq _).trans (inserted_succ _ _ hx hx')
  have hnew : u'.freqAt k = u.freqAt (2 * m) + u.freqAt (2 * m + 1) := (hfreq k).trans (inserted_self _ _ _ _)
  refine ⟨?_, fun x => (hback x).trans (h.back x), fun x hx => ?_, fun x hx => ?_, fun x hx => ?_, fun l hl => ?_,
    fun q hq => ?_, ?_⟩
  · rw [hfreq, inserted_of_gt _ _ (by omega) hk, h.sentinel]
  · obtain hlt | heq | heq | hgt : x + 1 < k ∨ x + 1 = k ∨ x = k ∨ k < x := by omega
    · rw [hkeep x (by omega), hkeep (x + 1) hlt]
      exact h.sorted x (by omega)
    · rw [heq, hnew, hkeep x (by omega)]
      exact (show k - 1 = x by omega) ▸ hlow
    · rw [heq, hnew, hmoved k (le_refl k) (by omega)]
      exact (hhigh k (le_refl k) (by omega)).le
    · obtain ⟨y, rfl⟩ : ∃ y, x = y + 1 := ⟨x - 1, by omega⟩
      rw [hmoved y (by omega) (by omega), hmoved (y + 1) (by omega) (by omega)]
      exact h.sorted y (by omega)
  · obtain rfl | ⟨y, hy, -, heq⟩ := inserted_cases hk hx
    · rw [hnew]
      exact (h.positive (2 * m) (by omega)).trans (Nat.le_add_right _ _)
    · rw [hfreq, heq]
      exact h.positive y hy
  · obtain rfl | ⟨y, hy, hyx, heq⟩ := inserted_cases hk hx
    · rw [hson, inserted_self, hnew, hkeep (2 * m) (by omega), hkeep (2 * m + 1) habove]
      exact .inr ⟨by omega, by omega, habove, rfl⟩
    · rw [hson, hfreq, heq, heq]
      obtain hleaf | ⟨heven, hold, hbelow, hnode⟩ := h.slot y hy
      · exact .inl hleaf
      · rw [hkeep _ (show u.sonAt y < k by omega), hkeep _ (show u.sonAt y + 1 < k by omega)]
        exact .inr ⟨heven, by omega, by omega, hnode⟩
  · obtain ⟨y, hy, hyl⟩ := h.leaves l hl
    obtain ⟨x, hx, heq⟩ := exists_inserted (k := k) hy
    exact ⟨x, hx, by rw [hson, heq, hyl]⟩
  · by_cases hqm : q = m
    · exact ⟨k, by omega, by rw [hson, inserted_self, hqm]⟩
    · obtain ⟨y, hy, hyq⟩ := h.pairs q (by omega)
      obtain ⟨x, hx, heq⟩ := exists_inserted (k := k) hy
      exact ⟨x, hx, by rw [hson, heq, hyq]⟩
  · rw [← h.sum, two_le_openSum hm, openSum, ← Nat.add_assoc, Finset.sum_congr rfl fun x _ => hfreq x,
      sum_inserted _ _ (by omega) hk]

/-- Step 2 pairs all slots up to the root. -/
theorem paired_pairAll {g : Tree} (hsorted : ∀ x, x + 1 < 314 → g.freqAt x ≤ g.freqAt (x + 1))
    (hpos : ∀ x, x < 314 → 1 ≤ g.freqAt x) (hg : openSum g.freqAt 0 ≤ 16541) : Paired g 313 (pairAll g) :=
  foldl_range_induction (n := 313) (paired_zero hsorted hpos) fun _ _ hm h => paired_succ h hm hg

end Sys2Proof.Proofs
end

section
/-! Step 3 of a rebuild, the back-links; a rebuild as a whole (41_huffman.md R136, R138) and the update that may begin with
one (R133, R135): the statements RebuildKeepsTheTree and UpdateKeepsTheTree. -/

namespace Sys2Proof.Proofs

open Sys2Proof.Config Sys2Proof.Machine Sys2Proof.Safety Sys2Proof.Laws

/-! ### The back-links -/

/-- With the slots below `i` linked, what they name leads back to them, and no other link has changed. -/
structure Relinked (u : Tree) (i : Nat) (t : Tree) : Prop where
  freq : ∀ x, t.freqAt x = u.freqAt x
  son : ∀ x, t.sonAt x = u.sonAt x
  named : ∀ y x, y < i → Names (u.sonAt y) x → t.parentAt x < i ∧ Names (u.sonAt (t.parentAt x)) x
  other : ∀ x, (∀ y, y < i → ¬ Names (u.sonAt y) x) → t.parentAt x = u.parentAt x

theorem relinked_succ {u t : Tree} {i : Nat} (hson : ∀ y, y < 627 → u.sonAt y < 941) (hi : i < 627)
    (h : Relinked u i t) : Relinked u (i + 1) (t.linkTo (t.sonAt i) i) := by
  have hback := parentAt_linkTo (t := t) (i := t.sonAt i) (h.son i ▸ hson i hi) hi
  rw [h.son] at hback ⊢
  refine ⟨fun x => by rw [freqAt_linkTo, h.freq], fun x => by rw [sonAt_linkTo, h.son], fun y x hy hyx => ?_,
    fun x hx => ?_⟩
  · rw [hback]
    by_cases hix : Names (u.sonAt i) x
    · rw [if_pos hix]
      exact ⟨Nat.lt_succ_self i, hix⟩
    · rw [if_neg hix]
      obtain ⟨hlt, hnames⟩ := h.named y x (Nat.lt_of_le_of_ne (Nat.le_of_lt_succ hy) fun he => hix (he ▸ hyx)) hyx
      exact ⟨Nat.lt_succ_of_lt hlt, hnames⟩
  · rw [hback]
    exact (if_neg (hx i (Nat.lt_succ_self i))).trans (h.other x fun y hy => hx y (Nat.lt_succ_of_lt hy))

theorem relinked_zero (u : Tree) : Relinked u 0 u :=
  ⟨fun _ => rfl, fun _ => rfl, fun _ _ hy => absurd hy (Nat.not_lt_zero _), fun _ _ => rfl⟩

theorem relinked_relink {u : Tree} (hson : ∀ y, y < 627 → u.sonAt y < 941) : Relinked u 627 (relink u) := by
  have hloop := foldl_range_induction (n := 627) (f := fun u i => u.linkTo (u.sonAt i) i) (P := Relinked u)
    (relinked_zero u) fun _ _ hi h => relinked_succ hson hi h
  exact hloop

/-! ### The rebuild -/

/-- Halving 314 weights of at most MAX_FREQ in all, each rounded up, leaves at most 16541. -/
theorem sum_halves_le {f : Nat → Nat} (h : ∑ x ∈ Finset.range 314, f x ≤ 32768) :
    ∑ x ∈ Finset.range 314, (f x + 1) / 2 ≤ 16541 := by
  have hdouble : 2 * ∑ x ∈ Finset.range 314, (f x + 1) / 2 ≤ ∑ x ∈ Finset.range 314, (f x + 1) := by
    rw [Finset.mul_sum]
    exact Finset.sum_le_sum fun x _ => Nat.mul_div_le _ 2
  rw [Finset.sum_add_distrib, Finset.sum_const, Finset.card_range] at hdouble
  simp only [smul_eq_mul] at hdouble
  omega

/-- The gathered leaves weigh half of what the leaves weighed, symbol by symbol. -/
theorem Gathered.openSum_eq {t g : Tree} (ht : Shape t) (h : Gathered t 627 g 314) :
    openSum g.freqAt 0 = ∑ sym ∈ Finset.range 314, (leafFreq t sym + 1) / 2 := by
  simp only [openSum, Nat.mul_zero, Nat.add_zero, leafFreq, TSIZE]
  rw [← Finset.range_eq_Ico, h.sum, ht.sum_leafSlots fun y => (t.freqAt y + 1) / 2]

/-- Each of the 314 gathered slots holds a leaf, and each leaf is there, with half its weight. -/
theorem Gathered.leaf {t g : Tree} (ht : Shape t) (h : Gathered t 627 g 314) {k : Nat} (hk : k < 314) :
    ∃ sym, sym < 314 ∧ g.sonAt k = 627 + sym ∧ g.freqAt k = (leafFreq t sym + 1) / 2 := by
  obtain ⟨y, hy, hleaf, hson, hfreq⟩ := h.origin k hk
  have hlt := ht.son y hy
  have hparent := (ht.leaf_of_parent (x := t.sonAt y - 627) (by omega) hy).mpr (by omega)
  exact ⟨t.sonAt y - 627, by omega, by omega, by rw [hfreq, leafFreq, TSIZE, hparent]⟩

theorem Gathered.leaf_exists {t g : Tree} (ht : Shape t) (h : Gathered t 627 g 314) {sym : Nat} (hs : sym < 314) :
    ∃ k, k < 314 ∧ g.sonAt k = 627 + sym := by
  have hp := (ht.back (627 + sym) (by omega) (by omega)).1
  have hson := (ht.leaf_of_parent hs hp).mp rfl
  obtain ⟨k, hk, heq⟩ := h.all _ hp (by omega)
  exact ⟨k, hk, by rw [heq, hson]⟩

/-- Halved weights are still positive. -/
theorem Gathered.positive {t g : Tree} (ht : Weighed 627 t) (h : Gathered t 627 g 314) {k : Nat} (hk : k < 314) :
    1 ≤ g.freqAt k := by
  obtain ⟨y, hy, -, -, hfreq⟩ := h.origin k hk
  have := ht.positive y hy
  omega

section
variable {t g u r : Tree} (ht : Weighed 627 t) (hg : Gathered t 627 g 314) (hu : Paired g 313 u)
  (hr : Relinked u 627 r)
include ht hg hu hr

theorem rebuilt_pair {y : Nat} (hy : y < 627) (hi : r.sonAt y < 627) :
    r.sonAt y % 2 = 0 ∧ r.sonAt y < 626 ∧ r.sonAt y + 1 < y ∧
      r.freqAt y = r.freqAt (r.sonAt y) + r.freqAt (r.sonAt y + 1) := by
  rw [hr.son] at hi ⊢
  simp only [hr.freq]
  obtain ⟨k, hk, hson, -⟩ | hpair := hu.slot y hy
  · obtain ⟨sym, -, hsym, -⟩ := hg.leaf ht.shape hk
    omega
  · exact hpair

theorem rebuilt_leaf {y : Nat} (hy : y < 627) (hi : 627 ≤ r.sonAt y) :
    ∃ sym, sym < 314 ∧ r.sonAt y = 627 + sym ∧ r.freqAt y = (leafFreq t sym + 1) / 2 := by
  rw [hr.son] at hi ⊢
  rw [hr.freq]
  obtain ⟨k, hk, hson, hfreq⟩ | ⟨-, hlt, -⟩ := hu.slot y hy
  · rw [hson, hfreq]
    exact hg.leaf ht.shape hk
  · omega

omit hr in
theorem rebuilt_named {x : Nat} (hx : x < 941) (hx' : x ≠ 626) : ∃ y, y < 627 ∧ Names (u.sonAt y) x := by
  by_cases hslot : x < 627
  · obtain ⟨y, hy, hson⟩ := hu.pairs (x / 2) (by omega)
    exact ⟨y, hy, by unfold Names; omega⟩
  · obtain ⟨k, hk, hson⟩ := hg.leaf_exists ht.shape (sym := x - 627) (by omega)
    obtain ⟨y, hy, hyk⟩ := hu.leaves k hk
    exact ⟨y, hy, .inl (by omega)⟩

theorem rebuilt_shape : Shape r where
  son y hy := by
    by_cases hi : r.sonAt y < 627
    · omega
    · obtain ⟨sym, hsym, heq, -⟩ := rebuilt_leaf ht hg hu hr hy (Nat.le_of_not_lt hi)
      omega
  pair y hy hi := by
    obtain ⟨heven, -, hbelow, -⟩ := rebuilt_pair ht hg hu hr hy hi
    exact ⟨heven, hbelow⟩
  back x hx hx' := by
    obtain ⟨y, hy, hnames⟩ := rebuilt_named ht hg hu hx hx'
    obtain ⟨hlt, hnames'⟩ := hr.named y x hy hnames
    exact ⟨hlt, by rw [hr.son]; exact hnames'⟩
  root := by
    rw [hr.other 626 fun y hy hnames => ?_, hu.back, hg.back, ht.shape.root]
    rw [← hr.son] at hnames
    have hpair := rebuilt_pair ht hg hu hr hy
    unfold Names at hnames
    omega

theorem rebuilt_weighed : Weighed 627 r where
  shape := rebuilt_shape ht hg hu hr
  sentinel := by rw [hr.freq, hu.sentinel, (hg.rest 627 (le_refl 627)).2, ht.sentinel]
  sorted x hx := by
    rw [hr.freq, hr.freq]
    exact hu.sorted x (by omega)
  positive x hx := by
    rw [hr.freq]
    exact hu.positive x hx
  node y hy hi := by
    rw [if_neg (Nat.ne_of_lt hy)]
    exact (rebuilt_pair ht hg hu hr hy hi).2.2.2

theorem rebuilt_leafFreq {sym : Nat} (hs : sym < 314) : leafFreq r sym = (leafFreq t sym + 1) / 2 := by
  have hshape := rebuilt_shape ht hg hu hr
  have hp := (hshape.back (627 + sym) (by omega) (by omega)).1
  have hson := (hshape.leaf_of_parent hs hp).mp rfl
  obtain ⟨sym', hs', hson', hfreq⟩ := rebuilt_leaf ht hg hu hr hp (by omega)
  obtain rfl : sym' = sym := by omega
  exact hfreq

theorem rebuilt_root : r.freqAt 626 = ∑ sym ∈ Finset.range 314, (leafFreq t sym + 1) / 2 := by
  have hsum := hu.sum
  rw [hg.openSum_eq ht.shape, openSum, Finset.sum_Ico_succ_top (le_refl 626), Finset.Ico_self, Finset.sum_empty,
    Nat.zero_add] at hsum
  rw [hr.freq, hsum]

end

theorem rebuild_of_gathered {t g : Tree} (h : gatherLeaves t = (g, 314)) : rebuild t = .ok (relink (pairAll g)) := by
  rw [rebuild, h]
  rfl

/-- A rebuild in a tree that meets R137: it succeeds, keeps R137 and halves the leaves. -/
theorem rebuild_keeps {t : Tree} (h : TreeInv t) :
    ∃ t', rebuild t = .ok t' ∧ TreeInv t' ∧ t'.freqAt ROOT ≤ 16541 ∧
      ∀ x, x < N_CHAR → leafFreq t' x = (leafFreq t x + 1) / 2 := by
  have ht := weighed_of_treeInv h
  have hgather := gathered_gatherLeaves ht
  have hcount := hgather.count.trans ht.shape.card_leafSlots
  generalize hg : gatherLeaves t = p at hgather hcount
  obtain ⟨g, j⟩ := p
  simp only at hgather hcount
  subst hcount
  have htotal : ∑ sym ∈ Finset.range 314, leafFreq t sym ≤ 32768 := by
    rw [← leafSum_eq_sum]
    exact (h.root_sum.symm.trans_le h.root_le :)
  have hhalf := sum_halves_le htotal
  have hu := paired_pairAll (g := g) hgather.sorted (fun _ hk => hgather.positive ht hk)
    ((hgather.openSum_eq ht.shape).trans_le hhalf)
  have hr : Relinked (pairAll g) 627 (relink (pairAll g)) := relinked_relink fun y hy => by
    obtain ⟨k, hk, hson, -⟩ | ⟨-, hlt, -⟩ := hu.slot y hy
    · obtain ⟨sym, hsym, heq, -⟩ := hgather.leaf ht.shape hk
      omega
    · omega
  have hleaf := fun sym hs => rebuilt_leafFreq ht hgather hu hr (sym := sym) hs
  have hroot := rebuilt_root ht hgather hu hr
  have hle : (relink (pairAll g)).freqAt ROOT ≤ 16541 := hroot.trans_le hhalf
  refine ⟨_, rebuild_of_gathered hg, (rebuilt_weighed ht hgather hu hr).treeInv ?_ (hle.trans (by decide)), hle, hleaf⟩
  rw [leafSum_eq_sum]
  exact hroot.trans (Finset.sum_congr rfl fun sym hs => (hleaf sym (Finset.mem_range.mp hs)).symm)

/-- Settles O22: gathering halves the leaves, pairing builds a sorted forest over them whose last slot is their sum, and
relinking leads every name back to its slot. -/
theorem rebuildKeepsTheTree : Obligations.RebuildKeepsTheTree := fun _ h => rebuild_keeps h

/-! ### The update -/

theorem update_of_max {t t1 : Tree} (sym : Nat) (h : t.freqAt ROOT = MAX_FREQ) (h1 : rebuild t = .ok t1) :
    update t sym = updateLoop TSIZE t1 (t1.parentAt (TSIZE + sym)) := by
  rw [update, if_pos h, h1]

theorem update_of_ne_max {t : Tree} (sym : Nat) (h : t.freqAt ROOT ≠ MAX_FREQ) :
    update t sym = updateLoop TSIZE t (t.parentAt (TSIZE + sym)) := if_neg h

/-- Settles O21: a rebuild leaves the root below MAX_FREQ, and below it the loop keeps the tree. -/
theorem updateKeepsTheTree : Obligations.UpdateKeepsTheTree := by
  intro t sym h hsym
  by_cases hmax : t.freqAt ROOT = MAX_FREQ
  · obtain ⟨u, hrebuild, hu, hroot, -⟩ := rebuild_keeps h
    obtain ⟨t', hloop, ht', hcount⟩ := updateLoop_keeps hu (hroot.trans_lt (by decide)) hsym
    exact ⟨t', u, (update_of_max sym hmax hrebuild).trans hloop, ht', (if_pos hmax).mpr hrebuild, hcount⟩
  · obtain ⟨t', hloop, ht', hcount⟩ := updateLoop_keeps h (Nat.lt_of_le_of_ne h.root_le hmax) hsym
    exact ⟨t', t, (update_of_ne_max sym hmax).trans hloop, ht', (if_neg hmax).mpr rfl, hcount⟩

/-- Counting a symbol in a tree that meets R137 succeeds and keeps it. -/
theorem update_treeInv {t : Tree} {sym : Nat} (h : TreeInv t) (hsym : sym < N_CHAR) :
    ∃ t', update t sym = .ok t' ∧ TreeInv t' := by
  obtain ⟨t', -, hok, ht', -⟩ := updateKeepsTheTree t sym h hsym
  exact ⟨t', hok, ht'⟩

end Sys2Proof.Proofs
end

section
/-! The codes of the symbols (41_huffman.md R130-R132): the walk along the path of a symbol, code lengths at stream start,
and what INIT installs. The statements WalkReadsTheCodeOfItsSymbol, InitialCodeLengths and InitGivesEveryElement. -/

namespace Sys2Proof.Proofs

open Sys2Proof.Config Sys2Proof.Machine Sys2Proof.Safety Sys2Proof.Laws

/-! ### The walk -/

theorem walk_leaf {c : Nat} (n : Nat) (s : State) (h : 627 ≤ c) : walk n c s = .ok c s := by
  cases n <;> exact if_neg (Nat.not_lt.mpr h)

theorem walk_pair {c : Nat} (n : Nat) (s : State) (h : c < 627) :
    walk (n + 1) c s = walk n (s.tree.sonAt (c + (nextBit s).1.toNat)) (nextBit s).2 := by
  have htree : (nextBit s).2.tree = s.tree := by rw [nextBit_onlyBits s]
  rw [← htree]
  exact if_pos h

theorem ancestor_succ (t : Tree) (n c : Nat) : ancestor t (n + 1) c = t.parentAt (ancestor t n c) := by
  induction n generalizing c with
  | zero => rfl
  | succ n ih => exact ih _

/-- Every link leads up. -/
theorem Shape.le_ancestor {t : Tree} (h : Shape t) {n c : Nat} (hc : c < 627)
    (hpath : ∀ m, m < n → ancestor t m c ≠ 626) : c + n ≤ ancestor t n c ∧ ancestor t n c < 627 := by
  induction n with
  | zero => exact ⟨le_refl c, hc⟩
  | succ n ih =>
    obtain ⟨hle, hlt⟩ := ih fun m hm => hpath m (hm.trans (Nat.lt_succ_self n))
    have hne := hpath n (Nat.lt_succ_self n)
    obtain ⟨hup, hlt', -⟩ := h.lt_parent (x := ancestor t n c) (by omega)
    rw [ancestor_succ]
    omega

/-- The bit that names a slot leads from its parent's pair to it. -/
theorem Shape.son_parent_add {t : Tree} (h : Shape t) {z : Nat} (hz : z < 626) :
    t.sonAt (t.parentAt z) + (decide (z % 2 = 1)).toNat = z := by
  obtain ⟨hp, hnames⟩ := h.back z (by omega) (by omega)
  have hpair := h.pair _ hp (h.lt_of_names hp (by omega) hnames).2
  unfold Names at hnames
  by_cases hodd : z % 2 = 1 <;> simp only [hodd, decide_true, decide_false, Bool.toNat_true, Bool.toNat_false] <;> omega

/-- When the bits ahead are the path from slot `ancestor n c` down to slot `c`, the walk from the pair of the one ends at
what the other holds, and has consumed them. -/
theorem walk_path {n c : Nat} {s : State} (ht : Shape s.tree) (hs : BitsOk s) (hc : c < 627) (hleaf : 627 ≤ s.tree.sonAt c)
    (hpath : ∀ m, m < n → ancestor s.tree m c ≠ 626 ∧ bitsAhead s (n - 1 - m) = decide (ancestor s.tree m c % 2 = 1))
    {fuel : Nat} (hfuel : n ≤ fuel) :
    ∃ t, walk fuel (s.tree.sonAt (ancestor s.tree n c)) s = .ok (s.tree.sonAt c) t ∧ Consumed n s t := by
  induction n generalizing s fuel with
  | zero => exact ⟨s, walk_leaf fuel s hleaf, consumed_zero hs⟩
  | succ n ih =>
    obtain ⟨fuel, rfl⟩ : ∃ f, fuel = f + 1 := ⟨fuel - 1, by omega⟩
    obtain ⟨hne, hbit⟩ := hpath n (Nat.lt_succ_self n)
    obtain ⟨-, hlt⟩ := ht.le_ancestor hc fun m hm => (hpath m (hm.trans (Nat.lt_succ_self n))).1
    have hup := ht.lt_parent (x := ancestor s.tree n c) (by omega)
    have hread := consumed_nextBit hs
    have htree : (nextBit s).2.tree = s.tree := by rw [nextBit_onlyBits s]
    rw [show n + 1 - 1 - n = 0 by omega, ← nextBit_eq_bitsAhead hs] at hbit
    obtain ⟨t, hwalk, hcons⟩ := ih (s := (nextBit s).2) (fuel := fuel) (htree ▸ ht) hread.bits (htree ▸ hleaf) (fun m hm => by
      obtain ⟨hne', hbit'⟩ := hpath m (by omega)
      rw [htree, hread.ahead, show n - 1 - m + 1 = n + 1 - 1 - m by omega]
      exact ⟨hne', hbit'⟩) (by omega)
    rw [htree] at hwalk
    refine ⟨t, ?_, (Nat.add_comm 1 n) ▸ consumed_trans hread hcons⟩
    rw [ancestor_succ, walk_pair _ _ hup.2.2, hbit, ht.son_parent_add (by omega), hwalk]

theorem countLeaf_of_update {sym : Nat} {t : State} {tree : Tree} (hsym : sym < N_CHAR)
    (h : update t.tree sym = .ok tree) : countLeaf sym t = .ok sym { t with tree := tree } := by
  rw [countLeaf, if_pos hsym, countSymbol, h]

/-- Settles O20: the path of the symbol leads the walk to its leaf, and the symbol there is counted. -/
theorem walkReadsTheCodeOfItsSymbol : Obligations.WalkReadsTheCodeOfItsSymbol := by
  intro s sym n leaf h hs hsym hslot hroot hpath
  have ht := (weighed_of_treeInv h).shape
  obtain ⟨hlt, hson⟩ := h.leaf_slot sym hsym
  rw [← hslot] at hlt hson
  have hle := ht.le_ancestor hlt fun m hm => (hpath m hm).1
  obtain ⟨t, hwalk, hread⟩ := walk_path ht hs hlt (by rw [hson]; exact Nat.le_add_right _ _) hpath (fuel := TSIZE)
    (show n ≤ 627 by omega)
  rw [hroot, hson] at hwalk
  have htree : t.tree = s.tree := by rw [hread.frame]
  refine ⟨t, hwalk, hread.ahead, hread.frame, fun tree htreeok => ?_⟩
  rw [decodeSymbol_of_walk_ok hwalk (Nat.add_sub_cancel_left ..).symm]
  exact countLeaf_of_update hsym (htree ▸ htreeok)

/-- In a well-shaped tree a walk goes down and ends at a symbol's leaf. -/
theorem walk_ends {fuel y : Nat} {s : State} (ht : Shape s.tree) (hy : y < 627) (hfuel : y ≤ fuel) :
    ∃ c t, walk fuel (s.tree.sonAt y) s = .ok c t ∧ 627 ≤ c ∧ c < 941 := by
  induction fuel generalizing s y with
  | zero =>
    have hleaf : 627 ≤ s.tree.sonAt y := Nat.le_of_not_lt fun hi => by
      have := ht.pair y hy hi
      omega
    exact ⟨_, s, walk_leaf 0 s hleaf, hleaf, ht.son y hy⟩
  | succ fuel ih =>
    by_cases hi : s.tree.sonAt y < 627
    · have hpair := ht.pair y hy hi
      have htree : (nextBit s).2.tree = s.tree := by rw [nextBit_onlyBits s]
      have hbit : (nextBit s).1.toNat ≤ 1 := Bool.toNat_le _
      rw [walk_pair _ _ hi, ← htree]
      exact ih (htree ▸ ht) (by rw [htree]; omega) (by rw [htree]; omega)
    · exact ⟨_, s, walk_leaf _ s (Nat.le_of_not_lt hi), Nat.le_of_not_lt hi, ht.son y hy⟩

/-! ### Code lengths at stream start -/

/-- `climb` in the initial tree, whose links are a formula (R130). -/
def initClimb : Nat → Nat → Nat
  | 0, _ => 0
  | n + 1, c => if c = 626 then 0 else 1 + initClimb n (314 + c / 2)

theorem climb_hufInit {n c : Nat} (h : c < 627) : climb hufInit n c = initClimb n c := by
  induction n generalizing c with
  | zero => rfl
  | succ n ih =>
    unfold climb initClimb
    by_cases hroot : c = 626
    · rw [if_pos hroot, if_pos hroot]
    · have hparent : hufInit.parentAt c = 314 + c / 2 := by
        rw [hufInit_parentAt (by omega), if_pos (show c < 626 by omega)]
      rw [if_neg hroot, if_neg hroot, hparent, ih (by omega)]

theorem initClimb_leaf : ∀ sym, sym < 314 → initClimb 10 sym = if sym < 116 then 9 else 8 := by decide +kernel

/-- Settles O19: the leaf of a symbol is the slot of its number, and the links from there are a formula. -/
theorem initialCodeLengths : Obligations.InitialCodeLengths := by
  intro sym hsym
  have hslot : hufInit.parentAt (627 + sym) = sym := hufInit_leafSlot hsym
  rw [hslot, climb_hufInit (by omega), initClimb_leaf sym hsym]

/-! ### What INIT installs -/

/-- The leaves of the initial tree (R130). -/
theorem hufInit_leaf {sym : Nat} (h : sym < 314) :
    hufInit.freqAt sym = 1 ∧ hufInit.sonAt sym = sym + 627 ∧ hufInit.parentAt (sym + 627) = sym := by
  have hslot : hufInit.parentAt (627 + sym) = sym := hufInit_leafSlot h
  have hfreq : hufInit.freqAt (hufInit.parentAt (627 + sym)) = 1 := hufInit_leafFreq h
  rw [hslot] at hfreq
  rw [Nat.add_comm sym 627]
  exact ⟨hfreq, by rw [hufInit_sonAt (show sym < 627 by omega), if_pos h, TSIZE, Nat.add_comm], hslot⟩

/-- The pairs of the initial tree, in slot order above the leaves (R130). -/
theorem hufInit_pair {j : Nat} (h : 314 ≤ j) (hj : j < 627) :
    hufInit.freqAt j = hufInit.freqAt (2 * (j - 314)) + hufInit.freqAt (2 * (j - 314) + 1) ∧
    hufInit.sonAt j = 2 * (j - 314) ∧ hufInit.parentAt (2 * (j - 314)) = j ∧
    hufInit.parentAt (2 * (j - 314) + 1) = j := by
  have hson : hufInit.sonAt j = 2 * (j - 314) := by
    rw [hufInit_sonAt hj, if_neg (show ¬ j < 314 by omega), N_CHAR]
  have hnode := (hufInit_treeInv.node j hj (by rw [hson]; show _ < 627; omega)).2.2
  rw [hson] at hnode
  refine ⟨hnode, hson, ?_, ?_⟩
  · rw [hufInit_parentAt (by omega), if_pos (show _ < 626 by omega), N_CHAR]
    omega
  · rw [hufInit_parentAt (by omega), if_pos (show _ < 626 by omega), N_CHAR]
    omega

/-- Settles O42: the memories are empty at their fill bytes and the tree is the initial one. -/
theorem initGivesEveryElement : Obligations.InitGivesEveryElement := by
  intro c s
  refine ⟨initStream c s, rfl, rfl, fun a => rfl, fun a => rfl, fun sym hsym => hufInit_leaf hsym,
    fun j h hj => hufInit_pair h hj, hufInit_sentinel, hufInit_treeInv.root_parent⟩

end Sys2Proof.Proofs
end

section
/-! SUPPORT. What payloads keep (44_sector_payload.md R200-R206): a fact of the state that byte requests, emitted bytes
and the payload's registers keep is kept by every method and block. The fact may count the byte requests made, and the
bytes emitted stay below a limit. -/

namespace Sys2Proof.Proofs

open Sys2Proof.Config Sys2Proof.Machine Sys2Proof.Safety Sys2Proof.Laws

/-- `P k` holds of a state a payload is in after `k` byte requests, and `Q k e` where it raises `e` after `k` of them.
Emits go below `lim`. `N` requests use up the bound on the blocks (log 9). -/
structure PayloadStable (lim N : Nat) (P : Nat → State → Prop) (Q : Nat → Err → State → Prop) : Prop where
  request : ∀ k s, P k s → Ends (fun _ => P (k + 1)) (Q (k + 1)) (need s)
  output : ∀ k s b, P k s → s.w.toNat < lim → P k (emit b s)
  register : ∀ k s remaining cnt fsize, P k s → P k { s with remaining := remaining, cnt := cnt, fsize := fsize }
  fragment : ∀ k s j b, P k s → P k (s.fragWrite j b)
  bound : ∀ k s, N ≤ k → P k s → Q k .treeInvariantViolation s

/-- The counts of a payload stay as they are. -/
def Steady (s t : State) : Prop :=
  t.remaining = s.remaining ∧ t.fsize = s.fsize ∧ t.cnt = s.cnt ∧ t.tgt = s.tgt

theorem steady_refl (s : State) : Steady s s := ⟨rfl, rfl, rfl, rfl⟩

theorem steady_trans {s t u : State} (h : Steady s t) (h' : Steady t u) : Steady s u :=
  ⟨h'.1.trans h.1, h'.2.1.trans h.2.1, h'.2.2.1.trans h.2.2.1, h'.2.2.2.trans h.2.2.2⟩

theorem steady_of_onlyDatapath {s t : State} (h : OnlyDatapath s t) : Steady s t ∧ t.w = s.w := by
  rw [h]
  exact ⟨steady_refl _, rfl⟩

section
variable {lim N : Nat} {P : Nat → State → Prop} {Q : Nat → Err → State → Prop} (h : PayloadStable lim N P Q)
include h

theorem need_stable {k : Nat} {s : State} (hs : P k s) :
    Ends (fun _ t => P (k + 1) t ∧ Steady s t ∧ t.w = s.w) (Q (k + 1)) (need s) := by
  have hneed := h.request k s hs
  cases hn : need s with
  | ok b t => rw [hn] at hneed; exact ⟨hneed, steady_of_onlyDatapath (onlyDatapath_of_need_ok hn)⟩
  | raise e t => rw [hn] at hneed; exact hneed

theorem readFragment_stable (n j : Nat) {k : Nat} {s : State} (hs : P k s) :
    Ends (fun _ t => P (k + n) t ∧ Steady s t ∧ t.w = s.w) (fun e t => ∃ i, Q i e t) (readFragment n j s) := by
  induction n generalizing j k s with
  | zero => exact ⟨hs, steady_refl s, rfl⟩
  | succ n ih =>
    have hneed := need_stable h hs
    unfold readFragment
    cases hn : need s with
    | raise e t => rw [hn] at hneed; exact ⟨_, hneed⟩
    | ok b t =>
      rw [hn] at hneed
      obtain ⟨ht, hsteady, hw⟩ := hneed
      refine ends_mono (ih (j + 1) (h.fragment _ t j b ht)) (fun _ u hu => ?_) fun _ _ hu => hu
      obtain ⟨hu, hsteady', hw'⟩ := hu
      have hk : k + 1 + n = k + (n + 1) := by omega
      exact ⟨hk ▸ hu, steady_trans (t := t.fragWrite j b) hsteady hsteady', hw'.trans hw⟩

variable (hlim : lim ≤ 8192)
include hlim

theorem emit_stable {k : Nat} {s : State} (b : Byte) (hs : P k s) (hw : s.w.toNat < lim) :
    P k (emit b s) ∧ (emit b s).w.toNat = s.w.toNat + 1 :=
  ⟨h.output k s b hs hw, emit_w_toNat b (hw.trans_le hlim)⟩

theorem copyThrough_stable {n k : Nat} {s : State} (hs : P k s) (hw : s.w.toNat + n ≤ lim) :
    Ends (fun _ t => P (k + n) t ∧ Steady s t ∧ t.w.toNat = s.w.toNat + n) (fun e t => ∃ j, j ≤ k + n ∧ Q j e t)
      (copyThrough n s) := by
  induction n generalizing k s with
  | zero => exact ⟨hs, steady_refl s, rfl⟩
  | succ n ih =>
    have hneed := need_stable h hs
    unfold copyThrough
    cases hn : need s with
    | raise e t => rw [hn] at hneed; exact ⟨_, by omega, hneed⟩
    | ok b t =>
      rw [hn] at hneed
      obtain ⟨ht, hsteady, hwt⟩ := hneed
      obtain ⟨hemit, hw'⟩ := emit_stable h hlim b ht (by rw [hwt]; omega)
      rw [hwt] at hw'
      refine ends_mono (ih hemit (by omega)) (fun _ u hu => ?_) fun e u hu => ?_
      · obtain ⟨hu, hsteady', hwu⟩ := hu
        have hk : k + 1 + n = k + (n + 1) := by omega
        exact ⟨hk ▸ hu, steady_trans (t := emit b t) hsteady hsteady', by omega⟩
      · obtain ⟨j, hj, hu⟩ := hu
        exact ⟨j, by omega, hu⟩

/-! ### Methods 0 and 1 -/

theorem method0_stable {k : Nat} {s : State} (hs : P k s) (hw : s.w.toNat + s.tgt.toNat ≤ lim) :
    Ends (fun _ t => P (k + s.tgt.toNat) t) (fun e t => ∃ j, j ≤ k + s.tgt.toNat ∧ Q j e t) (method0 s) :=
  ends_mono (copyThrough_stable h hlim hs hw) (fun _ _ ht => ht.1) fun _ _ ht => ht

theorem emit_below_stable {k : Nat} {s : State} (b : Byte) (hs : P k s) (htgt : s.tgt.toNat ≤ lim) :
    P k (if s.w.toNat < s.tgt.toNat then emit b s else s) ∧
      (if s.w.toNat < s.tgt.toNat then emit b s else s).tgt = s.tgt := by
  split
  case isTrue hlt => exact ⟨(emit_stable h hlim b hs (hlt.trans_le htgt)).1, rfl⟩
  case isFalse => exact ⟨hs, rfl⟩

theorem repeatPair_stable (b1 b2 : Byte) (n : Nat) {k : Nat} {s : State} (hs : P k s) (htgt : s.tgt.toNat ≤ lim) :
    P k (repeatPair b1 b2 n s) := by
  induction n generalizing s with
  | zero => exact hs
  | succ n ih =>
    obtain ⟨h1, ht1⟩ := emit_below_stable h hlim b1 hs htgt
    unfold repeatPair
    generalize (if s.w.toNat < s.tgt.toNat then emit b1 s else s) = s1 at h1 ht1 ⊢
    obtain ⟨h2, ht2⟩ := emit_below_stable h hlim b2 h1 (ht1 ▸ htgt)
    simp only
    generalize (if s1.w.toNat < s1.tgt.toNat then emit b2 s1 else s1) = s2 at h2 ht2 ⊢
    split
    · exact h2
    · exact ih h2 (by rw [ht2, ht1]; exact htgt)

/-- Method 1 reads four bytes; its result is the flag `short`. -/
theorem method1_stable (hshort : ∀ k s short, P k s → P k { s with short := short }) {k : Nat} {s : State} (hs : P k s)
    (htgt : s.tgt.toNat ≤ lim) :
    Ends (fun _ t => P (k + 4) t) (fun e t => ∃ j, j ≤ k + 4 ∧ Q j e t) (method1 s) := by
  have hmiss : ∀ {j : Nat}, j ≤ 4 → ∀ e t, Q (k + j) e t → ∃ j, j ≤ k + 4 ∧ Q j e t :=
    fun hj _ _ hQ => ⟨_, Nat.add_le_add_left hj k, hQ⟩
  refine ends_bind (ends_mono (need_stable h hs) (fun _ _ ht => ht) (hmiss (by decide : 1 ≤ 4))) fun lo s1 h1 => ?_
  refine ends_bind (ends_mono (need_stable h h1.1) (fun _ _ ht => ht) (hmiss (by decide : 2 ≤ 4))) fun hi s2 h2 => ?_
  have hcnt := h.register _ s2 s2.remaining (wordLe lo hi) s2.fsize h2.1
  refine ends_bind (ends_mono (need_stable h hcnt) (fun _ _ ht => ht) (hmiss (by decide : 3 ≤ 4))) fun b1 s3 h3 => ?_
  refine ends_bind (ends_mono (need_stable h h3.1) (fun _ _ ht => ht) (hmiss (by decide : 4 ≤ 4))) fun b2 s4 h4 => ?_
  have htgt4 : s4.tgt = s.tgt := by
    rw [h4.2.1.2.2.2, h3.2.1.2.2.2]
    exact h2.2.1.2.2.2.trans h1.2.1.2.2.2
  exact hshort _ _ _ (repeatPair_stable h hlim b1 b2 _ h4.1 (htgt4 ▸ htgt))

/-! ### Blocks -/

theorem emitFragment_stable (n j : Nat) {k : Nat} {s : State} (hs : P k s) (hw : s.w.toNat + n ≤ lim) :
    P k (emitFragment n j s) ∧ Steady s (emitFragment n j s) ∧ (emitFragment n j s).w.toNat = s.w.toNat + n := by
  induction n generalizing j s with
  | zero => exact ⟨hs, steady_refl s, rfl⟩
  | succ n ih =>
    obtain ⟨hemit, hw'⟩ := emit_stable h hlim (s.fragRead j) hs (by omega)
    obtain ⟨hend, hsteady, hwend⟩ := ih (j + 1) hemit (by omega)
    exact ⟨hend, steady_trans (steady_refl s) hsteady, by rw [emitFragment, hwend]; omega⟩

theorem repeatFragment_stable (n : Nat) {k : Nat} {s : State} (hs : P k s) (hw : s.w.toNat + s.remaining.toNat ≤ lim) :
    P k (repeatFragment n s) ∧ (repeatFragment n s).w.toNat + (repeatFragment n s).remaining.toNat ≤ lim := by
  induction n generalizing s with
  | zero => exact ⟨hs, hw⟩
  | succ n ih =>
    unfold repeatFragment
    split
    case isTrue => exact ⟨hs, hw⟩
    case isFalse hge =>
      obtain ⟨hemit, ⟨hrem, hfsize, -, -⟩, hw'⟩ := emitFragment_stable h hlim s.fsize 0 hs (by omega)
      generalize emitFragment s.fsize 0 s = u at hemit hrem hfsize hw' ⊢
      have hlt := s.remaining.isLt
      have hofn : (BitVec.ofNat 14 s.fsize).toNat = s.fsize := Nat.mod_eq_of_lt (by omega)
      have hsub : (u.remaining - BitVec.ofNat 14 u.fsize).toNat = s.remaining.toNat - s.fsize := by
        rw [hrem, hfsize, BitVec.toNat_sub_of_le (by rw [BitVec.le_def, hofn]; omega), hofn]
      refine ih (h.register _ u _ u.cnt u.fsize hemit) ?_
      show u.w.toNat + (u.remaining - BitVec.ofNat 14 u.fsize).toNat ≤ lim
      omega

/-- A literal block keeps its room: what it emits it takes off what remains. -/
theorem blkLiteral_stable {k : Nat} {s : State} (hs : P k s) (hw : s.w.toNat + s.remaining.toNat ≤ lim) :
    Ends (fun _ t => (∃ j, k < j ∧ P j t) ∧ t.w.toNat + t.remaining.toNat ≤ lim) (fun e t => ∃ j, Q j e t)
      (blkLiteral s) := by
  refine ends_bind (ends_mono (need_stable h hs) (fun _ _ ht => ht) fun _ _ hQ => ⟨_, hQ⟩) fun c s1 h1 => ?_
  obtain ⟨hs1, ⟨hrem, -, -, -⟩, hw1⟩ := h1
  have hn : min c.toNat s1.remaining.toNat ≤ s1.remaining.toNat := Nat.min_le_right _ _
  generalize min c.toNat s1.remaining.toNat = n at hn ⊢
  have hcopy := copyThrough_stable h hlim (h.register _ s1 s1.remaining (BitVec.ofNat 16 n) s1.fsize hs1)
    (show s1.w.toNat + n ≤ lim by rw [hrem] at hn; rw [hw1]; omega)
  refine ends_bind (ends_mono hcopy (fun _ _ ht => ht) fun _ _ hQ => ⟨_, hQ.choose_spec.2⟩) fun _ s2 h2 => ?_
  obtain ⟨hs2, ⟨hrem2, -, -, -⟩, hw2⟩ := h2
  replace hrem2 : s2.remaining = s1.remaining := hrem2
  replace hw2 : s2.w.toNat = s1.w.toNat + n := hw2
  refine ⟨⟨_, by omega, h.register _ s2 (s2.remaining - BitVec.ofNat 14 n) s2.cnt s2.fsize hs2⟩, ?_⟩
  have hlt := s1.remaining.isLt
  have hofn : (BitVec.ofNat 14 n).toNat = n := Nat.mod_eq_of_lt (by omega)
  show s2.w.toNat + (s2.remaining - BitVec.ofNat 14 n).toNat ≤ lim
  rw [hrem2, BitVec.toNat_sub_of_le (by rw [BitVec.le_def, hofn]; omega), hofn, hw2, hw1, hrem]
  rw [hrem] at hn
  omega

theorem blkFragment_stable (bt : BitVec 8) {k : Nat} {s : State} (hs : P k s)
    (hw : s.w.toNat + s.remaining.toNat ≤ lim) :
    Ends (fun _ t => (∃ j, k < j ∧ P j t) ∧ t.w.toNat + t.remaining.toNat ≤ lim) (fun e t => ∃ j, Q j e t)
      (blkFragment bt s) := by
  have hsize := h.register _ s s.remaining s.cnt (1 <<< bt.toNat) hs
  refine ends_bind (ends_mono (need_stable h hsize) (fun _ _ ht => ht) fun _ _ hQ => ⟨_, hQ⟩) fun c s1 h1 => ?_
  obtain ⟨hs1, ⟨hrem1, -, -, -⟩, hw1⟩ := h1
  have hread := readFragment_stable h s1.fsize 0 (h.register _ s1 s1.remaining (c.setWidth 16) s1.fsize hs1)
  refine ends_bind (ends_mono hread (fun _ _ ht => ht) fun _ _ hQ => hQ) fun _ s2 h2 => ?_
  obtain ⟨hs2, ⟨hrem2, -, -, -⟩, hw2⟩ := h2
  obtain ⟨hend, hroom⟩ := repeatFragment_stable h hlim s2.cnt.toNat hs2 (by
    rw [hw2, hrem2]
    show s1.w.toNat + s1.remaining.toNat ≤ lim
    rw [hw1, hrem1]
    exact hw)
  exact ⟨⟨_, by omega, hend⟩, hroom⟩

/-- A block of either type. -/
theorem block_stable (bt : BitVec 8) {k : Nat} {s : State} (hs : P k s) (hw : s.w.toNat + s.remaining.toNat ≤ lim) :
    Ends (fun _ t => (∃ j, k < j ∧ P j t) ∧ t.w.toNat + t.remaining.toNat ≤ lim) (fun e t => ∃ j, Q j e t)
      (if bt = 0 then blkLiteral s else blkFragment bt s) := by
  split
  · exact blkLiteral_stable h hlim hs hw
  · exact blkFragment_stable h hlim bt hs hw

end

/-! ### The loop of method 2 -/

theorem blocks_done {n : Nat} {s : State} (h : s.remaining.toNat = 0) : blocks n s = .ok () s := by
  unfold blocks
  exact if_pos h

theorem blocks_zero {s : State} (h : s.remaining.toNat ≠ 0) : blocks 0 s = .raise .treeInvariantViolation s := by
  unfold blocks
  exact if_neg h

theorem blocks_type_raises {n : Nat} {s t : State} {e : Err} (h : s.remaining.toNat ≠ 0) (hbt : need s = .raise e t) :
    blocks (n + 1) s = .raise e t := by
  rw [blocks, if_neg h, hbt]

theorem blocks_block_raises {n : Nat} {s s1 t : State} {bt : BitVec 8} {e : Err} (h : s.remaining.toNat ≠ 0)
    (hbt : need s = .ok bt s1) (hblk : (if bt = 0 then blkLiteral s1 else blkFragment bt s1) = .raise e t) :
    blocks (n + 1) s = .raise e t := by
  rw [blocks, if_neg h, hbt]
  simp only [hblk]

theorem blocks_block {n : Nat} {s s1 s2 : State} {bt : BitVec 8} (h : s.remaining.toNat ≠ 0)
    (hbt : need s = .ok bt s1) (hblk : (if bt = 0 then blkLiteral s1 else blkFragment bt s1) = .ok () s2) :
    blocks (n + 1) s = blocks n s2 := by
  rw [blocks, if_neg h, hbt]
  simp only [hblk]

section
variable {lim N : Nat} {P : Nat → State → Prop} {Q : Nat → Err → State → Prop} (h : PayloadStable lim N P Q)
  (hlim : lim ≤ 8192)
include h hlim

/-- Blocks keep what a payload keeps; every block makes a byte request, so the bound on the blocks runs out only after
that many. -/
theorem blocks_stable {n k : Nat} {s : State} (hs : P k s) (hw : s.w.toNat + s.remaining.toNat ≤ lim) (hn : N ≤ n + k) :
    Ends (fun _ t => ∃ j, P j t) (fun e t => ∃ j, Q j e t) (blocks n s) := by
  induction n generalizing k s with
  | zero =>
    by_cases hr : s.remaining.toNat = 0
    · rw [blocks_done hr]
      exact ⟨k, hs⟩
    · rw [blocks_zero hr]
      exact ⟨k, h.bound k s (by omega) hs⟩
  | succ n ih =>
    by_cases hr : s.remaining.toNat = 0
    · rw [blocks_done hr]
      exact ⟨k, hs⟩
    · have hneed := need_stable h hs
      cases hbt : need s with
      | raise e t =>
        rw [hbt] at hneed
        rw [blocks_type_raises hr hbt]
        exact ⟨_, hneed⟩
      | ok bt s1 =>
        rw [hbt] at hneed
        obtain ⟨hs1, ⟨hrem, -, -, -⟩, hw1⟩ := hneed
        have hblock := block_stable h hlim bt hs1 (by rw [hrem, hw1]; exact hw)
        cases hblk : (if bt = 0 then blkLiteral s1 else blkFragment bt s1) with
        | raise e t =>
          rw [hblk] at hblock
          rw [blocks_block_raises hr hbt hblk]
          exact hblock
        | ok a s2 =>
          rw [hblk] at hblock
          obtain ⟨⟨j, hj, hs2⟩, hw2⟩ := hblock
          rw [blocks_block hr hbt hblk]
          exact ih hs2 hw2 (by omega)

theorem method2_stable {k : Nat} {s : State} (hs : P k s) (hw : s.w.toNat + s.tgt.toNat ≤ lim)
    (hn : N ≤ byteBudget s + 1 + k) :
    Ends (fun _ t => ∃ j, P j t) (fun e t => ∃ j, Q j e t) (method2 s) :=
  blocks_stable h hlim (h.register k s s.tgt s.cnt s.fsize hs) hw hn

end

end Sys2Proof.Proofs
end

section
/-! SUPPORT. What whole instructions keep: a fact of the state that byte requests, the payload's steps and the result
registers keep is kept by every command but INIT and by every payload token. -/

namespace Sys2Proof.Proofs

open Sys2Proof.Config Sys2Proof.Machine Sys2Proof.Safety Sys2Proof.Laws

/-! ### Kinds of instructions -/

/-- The READ and DECODE commands, the methods and the blocks: they work by byte requests. -/
def requestsBytes : Instr → Bool
  | .readByte | .readWordLe | .decodeSector _ _ | .decodeLen _ _ | .raw | .repeat2 | .blockRle | .blkLiteral
  | .blkFragment _ => true
  | _ => false

theorem instr_kinds (i : Instr) :
    isInit i = true ∨ requestsBytes i = true ∨ (∃ b, i = .lit b) ∨ (∃ k, i = .lzMatch k) ∨
      ∃ lead, encode i = .pos8x lead := by
  cases i with
  | init c => exact .inl rfl
  | readByte | readWordLe | decodeSector | decodeLen | raw | repeat2 | blockRle | blkLiteral | blkFragment =>
    exact .inr (.inl rfl)
  | lit b => exact .inr (.inr (.inl ⟨b, rfl⟩))
  | lzMatch k => exact .inr (.inr (.inr (.inl ⟨k, rfl⟩)))
  | posE1 | posE2Lo | posE2Hi | posE3Lo | posE3Mid | posE3Hi | posE4Lo | posE4Hi | posE5Lo | posE5Hi | posE6 =>
    exact .inr (.inr (.inr (.inr ⟨_, rfl⟩)))

/-! ### Facts of the state that instructions keep -/

/-- The state in which a payload with target size `target` starts its method (R200). -/
def payloadStart (target : Nat) (s : State) : State :=
  { s with outbuf := s.outbuf.clearBelow target, w := 0, tgt := BitVec.ofNat 14 target, short := false }

/-- A fact of the state that byte requests, the payload's steps and the result registers keep. -/
structure CoreStable (P : State → Prop) : Prop where
  request : ∀ s, P s → Ends (fun _ => P) (fun _ => P) (byteIn s)
  start : ∀ s target, P s → P (payloadStart target s)
  output : ∀ s b, P s → P (emit b s)
  register : ∀ s remaining cnt fsize, P s → P { s with remaining := remaining, cnt := cnt, fsize := fsize }
  short : ∀ s short, P s → P { s with short := short }
  fragment : ∀ s j b, P s → P (s.fragWrite j b)
  raised : ∀ s e, P s → P (raiseErr e s)
  code : ∀ s e, P s → P { s with err := e }
  value : ∀ s v, P s → P { s with data := v }
  result : ∀ s outlen shortFill, outlen.toNat ≤ OUTBUF_SIZE → P s → P { s with outlen := outlen, shortFill := shortFill }

/-- What a byte request keeps, a request that must deliver keeps. -/
theorem need_ends {P : State → Prop} {Q : Err → State → Prop} {s : State} (h : Ends (fun _ => P) Q (byteIn s))
    (hend : ∀ t, P t → Q .streamExhausted t) : Ends (fun _ => P) Q (need s) :=
  ends_bind h fun b t ht => match b with
    | some _ => ht
    | none => hend t ht

theorem method_cases {m : BitVec 8} (h : m.toNat ≤ 2) : m = 0 ∨ m = 1 ∨ m = 2 := by
  obtain h | h | h : m.toNat = 0 ∨ m.toNat = 1 ∨ m.toNat = 2 := by omega
  · exact .inl (BitVec.eq_of_toNat_eq h)
  · exact .inr (.inl (BitVec.eq_of_toNat_eq h))
  · exact .inr (.inr (BitVec.eq_of_toNat_eq h))

theorem payloadStart_tgt {target : Nat} (h : target ≤ MAX_TARGET) (s : State) :
    (payloadStart target s).tgt.toNat = target := Nat.mod_eq_of_lt (by simp only [MAX_TARGET] at h; omega)

/-- At the start of a payload the whole target is still to write. -/
theorem payloadStart_room {target : Nat} (h : target ≤ MAX_TARGET) (s : State) :
    (payloadStart target s).w.toNat + (payloadStart target s).tgt.toNat = target := by
  rw [payloadStart_tgt h]
  exact Nat.zero_add target

theorem targetOfSizeCode_eq (sc : BitVec 8) : targetOfSizeCode sc = 128 * 2 ^ sc.toNat := Nat.shiftLeft_eq ..

theorem targetOfSizeCode_le {sc : BitVec 8} (h : sc.toNat ≤ 6) : targetOfSizeCode sc ≤ MAX_TARGET := by
  rw [targetOfSizeCode_eq]
  exact Nat.mul_le_mul_left 128 (Nat.pow_le_pow_right (by decide) h)

section
variable {P : State → Prop} (h : CoreStable P)
include h

theorem CoreStable.payload (lim : Nat) : PayloadStable lim 0 (fun _ => P) (fun _ _ => P) where
  request _ s hs := need_ends (h.request s hs) fun _ ht => ht
  output _ s b hs _ := h.output s b hs
  register _ := h.register
  fragment _ := h.fragment
  bound _ _ _ hs := hs

theorem accept_keeps {body : State → State} {s : State} (hs : P s) (hbody : P (body s)) : P (accept body s) := by
  obtain ⟨-, he⟩ | ⟨-, -, he⟩ | ⟨-, -, he⟩ := accept_cases body s <;> rw [he]
  · exact h.raised s _ hs
  · exact h.code s _ hs
  · exact hbody

theorem finishRead_keeps {x : Res (Option (BitVec 16))} (hx : Ends (fun _ => P) (fun _ => P) x) : P (finishRead x) := by
  cases x with
  | raise e t => exact h.raised _ e (h.value t 0 hx)
  | ok v t =>
    cases v with
    | none => exact h.raised _ _ (h.value t 0 hx)
    | some v => exact h.code _ _ (h.value t v hx)

theorem readByte_keeps {s : State} (hs : P s) : P (readByte s) :=
  finishRead_keeps h (ends_bind (h.request s hs) fun _ _ ht => ht)

theorem readWordLe_keeps {s : State} (hs : P s) : P (readWordLe s) :=
  finishRead_keeps h (ends_bind (h.request s hs) fun lo t ht => match lo with
    | none => ht
    | some _ => ends_bind (h.request t ht) fun hi _ hu => match hi with
      | none => hu
      | some _ => hu)

theorem method0_keeps {s : State} (hs : P s) (hroom : s.w.toNat + s.tgt.toNat ≤ OUTBUF_SIZE) :
    Ends (fun _ => P) (fun _ => P) (method0 s) :=
  ends_mono (method0_stable (h.payload _) hroom (k := 0) hs (le_refl _)) (fun _ _ ht => ht) fun _ _ ⟨_, _, ht⟩ => ht

theorem method1_keeps {s : State} (hs : P s) (hroom : s.w.toNat + s.tgt.toNat ≤ OUTBUF_SIZE) :
    Ends (fun _ => P) (fun _ => P) (method1 s) :=
  ends_mono (method1_stable (h.payload _) hroom (fun _ => h.short) (k := 0) hs (Nat.le_add_left _ _)) (fun _ _ ht => ht)
    fun _ _ ⟨_, _, ht⟩ => ht

theorem method2_keeps {s : State} (hs : P s) (hroom : s.w.toNat + s.tgt.toNat ≤ OUTBUF_SIZE) :
    Ends (fun _ => P) (fun _ => P) (method2 s) :=
  ends_mono (method2_stable (h.payload _) hroom (k := 0) hs (le_refl _) (Nat.zero_le _)) (fun _ _ ⟨_, ht⟩ => ht)
    fun _ _ ⟨_, ht⟩ => ht

theorem decodePayload_keeps {m : BitVec 8} (hm : m.toNat ≤ 2) {target : Nat} (htarget : target ≤ MAX_TARGET) {s : State}
    (hs : P s) : Ends (fun _ => P) (fun _ => P) (decodePayload m target s) := by
  have hstart := h.start s target hs
  have hroom := (payloadStart_room htarget s).trans_le htarget
  obtain rfl | rfl | rfl := method_cases hm
  · exact method0_keeps h hstart hroom
  · exact method1_keeps h hstart hroom
  · exact method2_keeps h hstart hroom

theorem decodeCommand_keeps (m : BitVec 8) {target : Nat} (htarget : target ≤ MAX_TARGET) {s : State} (hs : P s) :
    P (decodeCommand m target s) := by
  by_cases hm : m.toNat ≤ 2
  · have hp := decodePayload_keeps h hm htarget hs
    unfold decodeCommand
    cases hd : decodePayload m target s with
    | raise e t => rw [hd] at hp; exact h.raised t e hp
    | ok a t =>
      rw [hd] at hp
      have hlen : (BitVec.ofNat 14 target).toNat ≤ OUTBUF_SIZE :=
        (Nat.mod_eq_of_lt (by simp only [MAX_TARGET] at htarget; omega)).trans_le htarget
      exact h.code _ _ (h.result t _ t.short hlen hp)
  · rw [decodeCommand_unknown (Nat.lt_of_not_le hm)]
    exact h.raised s _ hs

theorem decodeLen_keeps (m : BitVec 8) (n : BitVec 16) {s : State} (hs : P s) : P (decodeLen m n s) := by
  have hclear := h.result s 0 false (Nat.zero_le _) hs
  by_cases hn : n.toNat ≤ MAX_TARGET
  · rw [decodeLen_of_le hn]
    exact decodeCommand_keeps h m hn hclear
  · rw [decodeLen_of_lt (Nat.lt_of_not_le hn)]
    exact h.raised _ _ hclear

theorem decodeSector_keeps (m sc : BitVec 8) {s : State} (hs : P s) : P (decodeSector m sc s) := by
  have hclear := h.result s 0 false (Nat.zero_le _) hs
  by_cases hsc : sc.toNat ≤ 6
  · rw [decodeSector_of_le hsc]
    exact decodeCommand_keeps h m (targetOfSizeCode_le hsc) hclear
  · rw [decodeSector_of_lt (Nat.lt_of_not_le hsc)]
    exact h.raised _ _ hclear

theorem settle_keeps {x : Res Unit} (hx : Ends (fun _ => P) (fun _ => P) x) : P x.settle := by
  cases x with
  | ok a t => exact hx
  | raise e t => exact h.raised t e hx

theorem runPayload_keeps {room : Nat} {f : State → Res Unit} {s t : State}
    (hf : s.w.toNat + room ≤ OUTBUF_SIZE → Ends (fun _ => P) (fun _ => P) (f s)) (ht : runPayload room f s = .next t) :
    P t := by
  obtain ⟨hroom, hrun⟩ | ⟨-, hrun⟩ := runPayload_cases room f s <;> rw [hrun] at ht <;> cases ht
  exact settle_keeps h (hf hroom)

/-- Every command but INIT, and every payload token, keeps such a fact. -/
theorem exec_keeps {i : Instr} {s t : State} (hi : requestsBytes i = true) (hs : P s) (ht : exec i s = .next t) :
    P t := by
  have hblock : ∀ {x : Res Unit}, Ends (fun _ t => (∃ j, 0 < j ∧ P t) ∧ t.w.toNat + t.remaining.toNat ≤ OUTBUF_SIZE)
      (fun _ t => ∃ _ : Nat, P t) x → Ends (fun _ => P) (fun _ => P) x :=
    fun hx => ends_mono hx (fun _ _ ⟨⟨_, _, ht⟩, _⟩ => ht) fun _ _ ⟨_, ht⟩ => ht
  cases i with
  | readByte => cases ht; exact accept_keeps h hs (readByte_keeps h hs)
  | readWordLe => cases ht; exact accept_keeps h hs (readWordLe_keeps h hs)
  | decodeSector m sc => cases ht; exact accept_keeps h hs (decodeSector_keeps h m sc hs)
  | decodeLen m n => cases ht; exact accept_keeps h hs (decodeLen_keeps h m n hs)
  | raw => exact runPayload_keeps h (method0_keeps h hs) ht
  | repeat2 => exact runPayload_keeps h (method1_keeps h hs) ht
  | blockRle => exact runPayload_keeps h (method2_keeps h hs) ht
  | blkLiteral =>
    exact runPayload_keeps h (fun hroom => hblock (blkLiteral_stable (h.payload _) (le_refl _) (k := 0) hs hroom)) ht
  | blkFragment bt =>
    exact runPayload_keeps h (fun hroom => hblock (blkFragment_stable (h.payload _) (le_refl _) bt (k := 0) hs hroom)) ht
  | _ => cases hi

end

end Sys2Proof.Proofs
end

section
/-! The rules of the whole machine: mode and fault flags (10_state.md R21-R23), raw mode (43_decompressor.md R186), the
source and its end (R24, R42, 40_bitstream.md R111), and that every command answers. The statements RawModeIsolation,
EveryCommandAnswers, OnlyInitChangesTheMode, EofStaysUntilInit and SourceIsReadForward. -/

namespace Sys2Proof.Proofs

open Sys2Proof.Config Sys2Proof.Machine Sys2Proof.Safety Sys2Proof.Laws

/-! ### Fields no byte request changes -/

/-- A fact kept over what a byte request may change is kept by one. -/
theorem byteIn_ends_of_onlyDatapath {P : State → Prop} (h : ∀ s t, OnlyDatapath s t → P s → P t) {s : State} (hs : P s) :
    Ends (fun _ => P) (fun _ => P) (byteIn s) := by
  obtain ⟨t, ht, ⟨b, hb⟩ | hb⟩ := byteIn_frame s <;> rw [hb] <;> exact h s t ht hs

/-- The mode stays and a fault stays. -/
def SameMode (s t : State) : Prop :=
  t.inited = s.inited ∧ t.compressed = s.compressed ∧ (s.faulted = true → t.faulted = true)

theorem sameMode_of_onlyDatapath {s t u : State} (h : OnlyDatapath t u) (hs : SameMode s t) : SameMode s u := by
  rw [h]
  exact hs

theorem coreStable_sameMode (s : State) : CoreStable (SameMode s) where
  request _ := byteIn_ends_of_onlyDatapath fun _ _ => sameMode_of_onlyDatapath
  start _ _ hs := hs
  output _ _ hs := hs
  register _ _ _ _ hs := hs
  short _ _ hs := hs
  fragment _ _ _ hs := hs
  raised t e hs := ⟨hs.1, hs.2.1, fun hf => by simp [hs.2.2 hf]⟩
  code _ _ hs := hs
  value _ _ hs := hs
  result _ _ _ _ hs := hs

/-- Settles O54: no byte request, payload step or result touches INITED or COMPRESSED, and a raise only sets FAULTED. -/
theorem onlyInitChangesTheMode : Obligations.OnlyInitChangesTheMode := by
  intro i s t hinit ht
  have hrefl : SameMode s s := ⟨rfl, rfl, id⟩
  obtain h | h | ⟨b, rfl⟩ | ⟨k, rfl⟩ | ⟨lead, h⟩ := instr_kinds i
  · simp [hinit] at h
  · exact exec_keeps (coreStable_sameMode s) h hrefl ht
  · cases ht
    exact hrefl
  · by_cases hk : k.toNat < 58
    · rw [exec_lzMatch hk] at ht
      cases ht
      exact sameMode_of_onlyDatapath (matchEntry_onlyDatapath k s) hrefl
    · rw [exec_lzMatch_of_ge (Nat.le_of_not_lt hk)] at ht
      cases ht
      exact (coreStable_sameMode s).raised s _ hrefl
  · rw [exec_of_encode_pos8x h] at ht
    cases ht
    exact sameMode_of_onlyDatapath (positionFrom_onlyDatapath lead s) hrefl

/-- The source's bytes and the model's own inputs and answers stay. -/
def SameHost (s t : State) : Prop := t.src = s.src ∧ t.inputs = s.inputs ∧ t.resp = s.resp ∧ t.draws = s.draws

theorem coreStable_sameHost (s : State) : CoreStable (SameHost s) where
  request _ := byteIn_ends_of_onlyDatapath fun _ _ h hs => by rw [h]; exact hs
  start _ _ hs := hs
  output _ _ hs := hs
  register _ _ _ _ hs := hs
  short _ _ hs := hs
  fragment _ _ _ hs := hs
  raised _ _ hs := hs
  code _ _ hs := hs
  value _ _ hs := hs
  result _ _ _ _ hs := hs

theorem requestsBytes_of_isCommand {i : Instr} (hi : isCommand i = true) (hinit : isInit i = false) :
    requestsBytes i = true := by
  cases i with
  | readByte | readWordLe | decodeSector | decodeLen => rfl
  | init => cases hinit
  | _ => cases hi

/-- Settles O41: a command is total by its definition, and nothing it does touches what the host owns. -/
theorem everyCommandAnswers : Obligations.EveryCommandAnswers := by
  intro i s hi
  cases hinit : isInit i with
  | true =>
    cases i with
    | init c => exact ⟨initStream c s, rfl, rfl, rfl, rfl, rfl⟩
    | _ => cases hinit
  | false =>
    obtain ⟨body, hexec⟩ := exec_eq_accept hi hinit
    exact ⟨_, hexec s, exec_keeps (coreStable_sameHost s) (requestsBytes_of_isCommand hi hinit) ⟨rfl, rfl, rfl, rfl⟩ (hexec s)⟩

/-! ### Raw mode -/

/-- Raw mode with the compressed datapath as it was. -/
def RawIdle (s t : State) : Prop :=
  t.compressed = false ∧ t.tree = s.tree ∧ t.win = s.win ∧ t.r = s.r ∧ t.bitbuf = s.bitbuf ∧ t.bitcnt = s.bitcnt ∧
  t.mstate = s.mstate ∧ t.msrc = s.msrc ∧ t.mlen = s.mlen ∧ t.copied = s.copied

theorem rawIdle_rawByte {s t : State} (hs : RawIdle s t) : RawIdle s (rawByte t).2 := by
  obtain ⟨b, -, -, h⟩ | ⟨-, h⟩ | ⟨-, -, h⟩ := rawByte_cases t <;> rw [h] <;> exact hs

theorem coreStable_rawIdle (s : State) : CoreStable (RawIdle s) where
  request t hs := by
    rw [byteIn_raw hs.1]
    exact rawIdle_rawByte hs
  start _ _ hs := hs
  output _ _ hs := hs
  register _ _ _ _ hs := hs
  short _ _ hs := hs
  fragment _ _ _ hs := hs
  raised _ _ hs := hs
  code _ _ hs := hs
  value _ _ hs := hs
  result _ _ _ _ hs := hs

/-- Settles O33: a byte request in raw mode is one source byte. -/
theorem rawModeIsolation : Obligations.RawModeIsolation := by
  intro i s t hi hinit hmode ht
  exact (exec_keeps (coreStable_rawIdle s) (requestsBytes_of_isCommand hi hinit)
    ⟨hmode, rfl, rfl, rfl, rfl, rfl, rfl, rfl, rfl, rfl⟩ ht).2

/-! ### The source -/

/-- A fact of the source, its cursor and the end flag alone that reading one source byte keeps. -/
structure SourceStable (P : State → Prop) : Prop where
  depends : ∀ {s t}, P s → t.src = s.src → t.spos = s.spos → t.eof = s.eof → P t
  byte : ∀ s, P s → P (rawByte s).2

section
variable {P : State → Prop} (h : SourceStable P)
include h

theorem SourceStable.refill {s : State} (hs : P s) : P (refill s) := by
  refine refill_induction (fun t ht _ => ?_) hs
  obtain ⟨hpos, heof⟩ := refillOnce_cursor t
  have hsrc : (refillOnce t).src = (rawByte t).2.src := by rw [refillOnce_onlyBits t, rawByte_onlyBits t]
  exact h.depends (h.byte t ht) hsrc hpos heof

theorem SourceStable.nextBit {s : State} (hs : P s) : P (nextBit s).2 := h.depends (h.refill hs) rfl rfl rfl

theorem SourceStable.nextBits8 {s : State} (hs : P s) : P (nextBits8 s).2 := h.depends (h.refill hs) rfl rfl rfl

theorem SourceStable.foldBits (n v : Nat) {s : State} (hs : P s) : P (foldBits n v s).2 := by
  induction n generalizing v s with
  | zero => exact hs
  | succ n ih => exact ih _ (h.nextBit hs)

theorem SourceStable.positionFrom (lead : BitVec 8) {s : State} (hs : P s) : P (positionFrom lead s) :=
  h.depends (h.foldBits (extra lead) lead.toNat hs) rfl rfl rfl

theorem SourceStable.matchEntry (k : BitVec 8) {s : State} (hs : P s) : P (matchEntry k s) := by
  have hpos : P (decodePosition (withMatchLength k s)) :=
    h.positionFrom _ (h.nextBits8 (h.depends hs rfl rfl rfl))
  exact h.depends hpos rfl rfl rfl

theorem SourceStable.byteStable : ByteStable P where
  bit _ := h.nextBit
  counted _ _ _ hs _ _ _ := h.depends hs rfl rfl rfl
  breach _ _ _ hs _ _ _ := h.depends hs rfl rfl rfl
  raw := h.byte
  idle _ hs := h.depends hs rfl rfl rfl
  literal _ _ hs := h.depends hs rfl rfl rfl
  copy _ hs _ := h.depends hs rfl rfl rfl
  entry _ k hs _ := h.matchEntry k hs

theorem SourceStable.coreStable : CoreStable P where
  request _ hs := ends_mono (byteIn_keeps h.byteStable hs) (fun _ _ ht => ht) fun _ _ ht => ht.2
  start _ _ hs := h.depends hs rfl rfl rfl
  output _ _ hs := h.depends hs rfl rfl rfl
  register _ _ _ _ hs := h.depends hs rfl rfl rfl
  short _ _ hs := h.depends hs rfl rfl rfl
  fragment _ _ _ hs := h.depends hs rfl rfl rfl
  raised _ _ hs := h.depends hs rfl rfl rfl
  code _ _ hs := h.depends hs rfl rfl rfl
  value _ _ hs := h.depends hs rfl rfl rfl
  result _ _ _ _ hs := h.depends hs rfl rfl rfl

/-- Every instruction but INIT keeps such a fact. -/
theorem exec_keeps_source {i : Instr} {s t : State} (hinit : isInit i = false) (hs : P s) (ht : exec i s = .next t) :
    P t := by
  obtain hi | hi | ⟨b, rfl⟩ | ⟨k, rfl⟩ | ⟨lead, hi⟩ := instr_kinds i
  · simp [hinit] at hi
  · exact exec_keeps h.coreStable hi hs ht
  · cases ht
    exact h.depends hs rfl rfl rfl
  · by_cases hk : k.toNat < 58
    · rw [exec_lzMatch hk] at ht
      cases ht
      exact h.matchEntry k hs
    · rw [exec_lzMatch_of_ge (Nat.le_of_not_lt hk)] at ht
      cases ht
      exact h.depends hs rfl rfl rfl
  · rw [exec_of_encode_pos8x hi] at ht
    cases ht
    exact h.positionFrom lead hs

end

theorem sourceStable_ended (pos : Nat) : SourceStable fun t => t.eof = true ∧ t.spos = pos where
  depends hs _ hpos heof := by rw [heof, hpos]; exact hs
  byte s hs := by
    obtain ⟨b, heof, -, -⟩ | ⟨-, hraw⟩ | ⟨heof, -, -⟩ := rawByte_cases s
    · simp [heof] at hs
    · rw [hraw]; exact hs
    · simp [heof] at hs

/-- Settles O55: with EOF set a source byte is not read and EOF stays. -/
theorem eofStaysUntilInit : Obligations.EofStaysUntilInit := by
  intro i s t hinit heof ht
  exact exec_keeps_source (sourceStable_ended s.spos) hinit ⟨heof, rfl⟩ ht

/-- The source is that of `s`, read on from where `s` was and not past its end. -/
def ReadOn (s t : State) : Prop := t.src = s.src ∧ s.spos ≤ t.spos ∧ (s.spos ≤ s.src.size → t.spos ≤ s.src.size)

theorem sourceStable_readOn (s : State) : SourceStable (ReadOn s) where
  depends ht hsrc hpos _ := by
    unfold ReadOn
    rw [hsrc, hpos]
    exact ht
  byte t ht := by
    obtain ⟨hsrc, hle, hend⟩ := ht
    obtain ⟨b, -, hb, hraw⟩ | ⟨-, hraw⟩ | ⟨-, -, hraw⟩ := rawByte_cases t <;> rw [hraw]
    · have hlt : t.spos < s.src.size := hsrc ▸ (Array.getElem?_eq_some_iff.mp hb).1
      exact ⟨hsrc, Nat.le_succ_of_le hle, fun _ => hlt⟩
    · exact ⟨hsrc, hle, hend⟩
    · exact ⟨hsrc, hle, hend⟩

/-- Settles O56: one source byte moves the cursor on by at most one, and INIT does not move it. -/
theorem sourceIsReadForward : Obligations.SourceIsReadForward := by
  intro i s t ht
  have hrefl : ReadOn s s := ⟨rfl, le_refl _, id⟩
  cases hinit : isInit i with
  | false => exact exec_keeps_source (sourceStable_readOn s) hinit hrefl ht
  | true =>
    cases i with
    | init c => cases ht; exact hrefl
    | _ => cases hinit

end Sys2Proof.Proofs
end

section
/-! What instructions push into the window (42_lzss.md R161, 43_decompressor.md R180-R186): a command or a payload token
moves the datapath as byte requests do, and requests push what they deliver. The statements WindowChangesOnlyByPushes and
ReadFrame. -/

namespace Sys2Proof.Proofs

open Sys2Proof.Config Sys2Proof.Machine Sys2Proof.Safety Sys2Proof.Laws

/-! ### States with one datapath -/

/-- `t` has the mode and all of the datapath of `u`. -/
def Follows (u t : State) : Prop :=
  SameDatapath u t ∧ t.compressed = u.compressed ∧ t.dist = u.dist ∧ t.outByte = u.outByte

theorem follows_refl (s : State) : Follows s s :=
  ⟨⟨rfl, rfl, rfl, rfl, rfl, rfl, rfl, rfl, rfl, rfl, rfl, rfl, rfl⟩, rfl, rfl, rfl⟩

theorem follows_onto (p u : State) : Follows u (onto p u) :=
  ⟨⟨rfl, rfl, rfl, rfl, rfl, rfl, rfl, rfl, rfl, rfl, rfl, rfl, rfl⟩, rfl, rfl, rfl⟩

theorem onto_of_follows {u t : State} (h : Follows u t) : onto t u = t := by
  obtain ⟨⟨h1, h2, h3, h4, h5, h6, h7, h8, h9, h10, h11, h12, h13⟩, h14, h15, h16⟩ := h
  unfold onto
  rw [← h1, ← h2, ← h3, ← h4, ← h5, ← h6, ← h7, ← h8, ← h9, ← h10, ← h11, ← h12, ← h13, ← h14, ← h15, ← h16]

/-- A byte request does the same from both. -/
theorem byteIn_of_follows {u t : State} (h : Follows u t) : byteIn t = mapState (onto t) (byteIn u) := by
  rw [← byteIn_onto, onto_of_follows h]

/-! ### Runs of byte requests -/

theorem requests_end {n : Nat} {s u u' : State} {bs : List (BitVec 8)} (h : requests n s = (bs, u))
    (hlen : bs.length = n) (hend : byteIn u = .ok none u' ∨ ∃ e, byteIn u = .raise e u') :
    requests (n + 1) s = (bs, u') := by
  induction n generalizing s bs with
  | zero =>
    cases h
    obtain h | ⟨e, h⟩ := hend
    · exact requests_none 0 h
    · exact requests_raise 0 h
  | succ n ih =>
    cases hb : byteIn s with
    | raise e s1 => rw [requests_raise n hb] at h; cases h; cases hlen
    | ok b s1 =>
      cases b with
      | none => rw [requests_none n hb] at h; cases h; cases hlen
      | some b =>
        rw [requests_some n hb] at h
        cases h
        rw [requests_some _ hb, ih rfl (Nat.succ.inj hlen)]

theorem requests_snoc {n : Nat} {s u u' : State} {bs : List (BitVec 8)} {b : Byte} (h : requests n s = (bs, u))
    (hlen : bs.length = n) (hb : byteIn u = .ok (some b) u') : requests (n + 1) s = (bs ++ [b], u') := by
  induction n generalizing s bs with
  | zero =>
    cases h
    rw [List.eq_nil_of_length_eq_zero hlen]
    exact requests_some 0 hb
  | succ n ih =>
    cases hb' : byteIn s with
    | raise e s1 => rw [requests_raise n hb'] at h; cases h; cases hlen
    | ok b' s1 =>
      cases b' with
      | none => rw [requests_none n hb'] at h; cases h; cases hlen
      | some b' =>
        rw [requests_some n hb'] at h
        cases h
        rw [requests_some _ hb', ih rfl (Nat.succ.inj hlen)]
        rfl

/-- `t` has the datapath that `n` byte requests from `s` leave. -/
def Requested (s : State) (n : Nat) (t : State) : Prop := ∃ bs u, requests n s = (bs, u) ∧ Follows u t

/-- And all of them delivered a byte. -/
def Delivered (s : State) (n : Nat) (t : State) : Prop :=
  ∃ bs u, requests n s = (bs, u) ∧ bs.length = n ∧ Follows u t

theorem Delivered.requested {s t : State} {n : Nat} (h : Delivered s n t) : Requested s n t := by
  obtain ⟨bs, u, hreq, -, ht⟩ := h
  exact ⟨bs, u, hreq, ht⟩

theorem delivered_zero {s t : State} (h : Follows s t) : Delivered s 0 t := ⟨[], s, rfl, rfl, h⟩

/-- One more request. -/
theorem Delivered.byteIn {s t : State} {n : Nat} (h : Delivered s n t) :
    Ends (fun b u => Requested s (n + 1) u ∧ (b ≠ none → Delivered s (n + 1) u)) (fun _ => Requested s (n + 1))
      (byteIn t) := by
  obtain ⟨bs, u, hreq, hlen, ht⟩ := h
  rw [byteIn_of_follows ht]
  cases hb : Machine.byteIn u with
  | raise e u' => exact ⟨bs, u', requests_end hreq hlen (.inr ⟨e, hb⟩), follows_onto t u'⟩
  | ok b u' =>
    cases b with
    | none => exact ⟨⟨bs, u', requests_end hreq hlen (.inl hb), follows_onto t u'⟩, fun h => absurd rfl h⟩
    | some b =>
      have hmore : Delivered s (n + 1) (onto t u') :=
        ⟨bs ++ [b], u', requests_snoc hreq hlen hb, by simp [hlen], follows_onto t u'⟩
      exact ⟨hmore.requested, fun _ => hmore⟩

theorem payloadStable_delivered (s : State) (lim : Nat) :
    PayloadStable lim 0 (Delivered s) (fun n _ => Requested s n) where
  request _ _ ht := ends_bind ht.byteIn fun b _ hu => match b with
    | some _ => hu.2 (Option.some_ne_none _)
    | none => hu.1
  output _ _ _ ht _ := ht
  register _ _ _ _ _ ht := ht
  fragment _ _ _ _ ht := ht
  bound _ _ _ ht := ht.requested

/-! ### Instructions by byte requests -/

theorem follows_trans {s t u : State} (h : Follows s t) (h' : Follows t u) : Follows s u := by
  have he := onto_of_follows h'
  rw [← he]
  exact h

theorem Requested.trans {s t u : State} {n : Nat} (h : Requested s n t) (h' : Follows t u) : Requested s n u := by
  obtain ⟨bs, v, hreq, hv⟩ := h
  exact ⟨bs, v, hreq, follows_trans hv h'⟩

theorem requested_zero {s t : State} (h : Follows s t) : Requested s 0 t := ⟨[], s, rfl, h⟩

/-- How a READ command ends does not touch the datapath. -/
theorem finishRead_requested {s : State} {N : Nat} {x : Res (Option (BitVec 16))}
    (hx : Ends (fun _ t => ∃ n, n ≤ N ∧ Requested s n t) (fun _ t => ∃ n, n ≤ N ∧ Requested s n t) x) :
    ∃ n, n ≤ N ∧ Requested s n (finishRead x) := by
  cases x with
  | raise e t => exact hx
  | ok v t => cases v <;> exact hx

theorem readByte_requested {s t : State} (h : Follows s t) : ∃ n, n ≤ 1 ∧ Requested s n (readByte t) :=
  finishRead_requested (ends_bind (ends_mono (delivered_zero h).byteIn (fun _ _ hu => hu)
    fun _ _ hu => ⟨1, le_refl _, hu⟩) fun _ _ hu => ⟨1, le_refl _, hu.1⟩)

theorem readWordLe_requested {s t : State} (h : Follows s t) : ∃ n, n ≤ 2 ∧ Requested s n (readWordLe t) := by
  refine finishRead_requested (ends_bind (ends_mono (delivered_zero h).byteIn (fun _ _ hu => hu)
    fun _ _ hu => ⟨1, by decide, hu⟩) fun lo u hu => ?_)
  cases lo with
  | none => exact ⟨1, by decide, hu.1⟩
  | some lo =>
    refine ends_bind (ends_mono (hu.2 (Option.some_ne_none lo)).byteIn (fun _ _ hv => hv)
      fun _ _ hv => ⟨2, le_refl _, hv⟩) fun hi v hv => ?_
    cases hi <;> exact ⟨2, le_refl _, hv.1⟩

/-- A DECODE of method `m` and size `target` makes some number of requests: at most one a byte for method 0, and at most
four for method 1. -/
def DecodeRequested (m : BitVec 8) (target : Nat) (s t : State) : Prop :=
  ∃ n, Requested s n t ∧ (m = 0 → n ≤ target) ∧ (m = 1 → n ≤ 4)

theorem DecodeRequested.trans {m : BitVec 8} {target : Nat} {s t u : State} (h : DecodeRequested m target s t)
    (h' : Follows t u) : DecodeRequested m target s u := by
  obtain ⟨n, hn, hbound⟩ := h
  exact ⟨n, hn.trans h', hbound⟩

theorem decodeRequested_refl (m : BitVec 8) (target : Nat) {s t : State} (h : Follows s t) :
    DecodeRequested m target s t := ⟨0, requested_zero h, fun _ => Nat.zero_le _, fun _ => Nat.zero_le _⟩

theorem method0_requested {s t : State} (h : Follows s t) (hroom : t.w.toNat + t.tgt.toNat ≤ OUTBUF_SIZE) :
    Ends (fun _ u => ∃ n, n ≤ t.tgt.toNat ∧ Requested s n u) (fun _ u => ∃ n, n ≤ t.tgt.toNat ∧ Requested s n u)
      (method0 t) := by
  have hmethod := method0_stable (payloadStable_delivered s _) hroom (delivered_zero h) (le_refl _)
  rw [Nat.zero_add] at hmethod
  exact ends_mono hmethod (fun _ _ hu => ⟨_, le_refl _, hu.requested⟩) fun _ _ hu => hu

theorem method1_requested {s t : State} (h : Follows s t) (hroom : t.w.toNat + t.tgt.toNat ≤ OUTBUF_SIZE) :
    Ends (fun _ u => ∃ n, n ≤ 4 ∧ Requested s n u) (fun _ u => ∃ n, n ≤ 4 ∧ Requested s n u) (method1 t) := by
  have hmethod := method1_stable (payloadStable_delivered s _) hroom (fun _ _ _ hu => hu) (delivered_zero h)
    (Nat.le_add_left _ _)
  exact ends_mono hmethod (fun _ _ hu => ⟨_, le_refl _, hu.requested⟩) fun _ _ hu => hu

theorem method2_requested {s t : State} (h : Follows s t) (hroom : t.w.toNat + t.tgt.toNat ≤ OUTBUF_SIZE) :
    Ends (fun _ u => ∃ n, Requested s n u) (fun _ u => ∃ n, Requested s n u) (method2 t) :=
  ends_mono (method2_stable (payloadStable_delivered s _) hroom (delivered_zero h) (le_refl _) (Nat.zero_le _))
    (fun _ _ ⟨n, hu⟩ => ⟨n, hu.requested⟩) fun _ _ hu => hu

theorem decodePayload_requested {m : BitVec 8} (hm : m.toNat ≤ 2) {target : Nat} (htarget : target ≤ MAX_TARGET)
    {s t : State} (h : Follows s t) :
    Ends (fun _ => DecodeRequested m target s) (fun _ => DecodeRequested m target s) (decodePayload m target t) := by
  have hroom := (payloadStart_room htarget t).trans_le htarget
  have hstart : Follows s (payloadStart target t) := h
  obtain rfl | rfl | rfl := method_cases hm
  · have hle := (payloadStart_tgt htarget t).le
    have hend : ∀ u, (∃ n, n ≤ (payloadStart target t).tgt.toNat ∧ Requested s n u) → DecodeRequested 0 target s u :=
      fun u ⟨n, hn, hu⟩ => ⟨n, hu, fun _ => hn.trans hle, by simp⟩
    exact ends_mono (method0_requested hstart hroom) (fun _ => hend) fun _ => hend
  · have hend : ∀ u, (∃ n, n ≤ 4 ∧ Requested s n u) → DecodeRequested 1 target s u :=
      fun u ⟨n, hn, hu⟩ => ⟨n, hu, by simp, fun _ => hn⟩
    exact ends_mono (method1_requested hstart hroom) (fun _ => hend) fun _ => hend
  · have hend : ∀ u, (∃ n, Requested s n u) → DecodeRequested 2 target s u := fun u ⟨n, hu⟩ => ⟨n, hu, by simp, by simp⟩
    exact ends_mono (method2_requested hstart hroom) (fun _ => hend) fun _ => hend

theorem decodeCommand_requested (m : BitVec 8) {target : Nat} (htarget : target ≤ MAX_TARGET) {s t : State}
    (h : Follows s t) : DecodeRequested m target s (decodeCommand m target t) := by
  by_cases hm : m.toNat ≤ 2
  · have hp := decodePayload_requested hm htarget h
    unfold decodeCommand
    cases hd : decodePayload m target t with
    | ok a u => rw [hd] at hp; exact hp
    | raise e u => rw [hd] at hp; exact hp
  · rw [decodeCommand_unknown (Nat.lt_of_not_le hm)]
    exact decodeRequested_refl m target h

theorem decodeLen_requested (m : BitVec 8) (n : BitVec 16) (s : State) :
    DecodeRequested m n.toNat s (decodeLen m n s) := by
  by_cases hn : n.toNat ≤ MAX_TARGET
  · rw [decodeLen_of_le hn]
    exact decodeCommand_requested m hn (follows_refl s)
  · rw [decodeLen_of_lt (Nat.lt_of_not_le hn)]
    exact decodeRequested_refl m _ (follows_refl s)

theorem decodeSector_requested (m sc : BitVec 8) (s : State) : ∃ n, Requested s n (decodeSector m sc s) := by
  by_cases hsc : sc.toNat ≤ 6
  · rw [decodeSector_of_le hsc]
    obtain ⟨n, hn, -⟩ := decodeCommand_requested m (targetOfSizeCode_le hsc) (s := s)
      (t := { s with shortFill := false, outlen := 0 }) (follows_refl s)
    exact ⟨n, hn⟩
  · rw [decodeSector_of_lt (Nat.lt_of_not_le hsc)]
    exact ⟨0, requested_zero (follows_refl s)⟩

/-- A command that is not accepted makes no request. -/
theorem accept_requested {body : State → State} {s : State} {P : Nat → Prop} (h0 : P 0)
    (hbody : ∃ n, P n ∧ Requested s n (body s)) : ∃ n, P n ∧ Requested s n (accept body s) := by
  obtain ⟨-, he⟩ | ⟨-, -, he⟩ | ⟨-, -, he⟩ := accept_cases body s <;> rw [he]
  · exact ⟨0, h0, requested_zero (follows_refl s)⟩
  · exact ⟨0, h0, requested_zero (follows_refl s)⟩
  · exact hbody

theorem runPayload_requested {room : Nat} {f : State → Res Unit} {s t : State} {P : Nat → Prop}
    (hf : s.w.toNat + room ≤ OUTBUF_SIZE →
      Ends (fun _ u => ∃ n, P n ∧ Requested s n u) (fun _ u => ∃ n, P n ∧ Requested s n u) (f s))
    (ht : runPayload room f s = .next t) : ∃ n, P n ∧ Requested s n t := by
  obtain ⟨hroom, hrun⟩ | ⟨-, hrun⟩ := runPayload_cases room f s <;> rw [hrun] at ht <;> cases ht
  have hends := hf hroom
  cases hx : f s with
  | ok a u => rw [hx] at hends; exact hends
  | raise e u => rw [hx] at hends; exact hends

/-- The number of requests an instruction may make, where WindowChangesOnlyByPushes bounds it. -/
def RequestBound (i : Instr) (s : State) (n : Nat) : Prop :=
  (i = .readByte → n ≤ 1) ∧ (i = .readWordLe → n ≤ 2) ∧ (i = .raw → n ≤ s.tgt.toNat) ∧ (i = .repeat2 → n ≤ 4) ∧
    (∀ size, i = .decodeLen 0 size → n ≤ size.toNat) ∧ (∀ size, i = .decodeLen 1 size → n ≤ 4)

theorem requestBound_zero (i : Instr) (s : State) : RequestBound i s 0 :=
  ⟨fun _ => Nat.zero_le _, fun _ => Nat.zero_le _, fun _ => Nat.zero_le _, fun _ => Nat.zero_le _,
    fun _ _ => Nat.zero_le _, fun _ _ => Nat.zero_le _⟩

theorem exec_requested {i : Instr} {s t : State} (hi : requestsBytes i = true) (ht : exec i s = .next t) :
    ∃ n, RequestBound i s n ∧ Requested s n t := by
  cases i with
  | readByte =>
    cases ht
    obtain ⟨n, hn, hs⟩ := readByte_requested (follows_refl s)
    exact accept_requested (requestBound_zero _ s) ⟨n, ⟨fun _ => hn, nofun, nofun, nofun, nofun, nofun⟩, hs⟩
  | readWordLe =>
    cases ht
    obtain ⟨n, hn, hs⟩ := readWordLe_requested (follows_refl s)
    exact accept_requested (requestBound_zero _ s) ⟨n, ⟨nofun, fun _ => hn, nofun, nofun, nofun, nofun⟩, hs⟩
  | decodeSector m sc =>
    cases ht
    obtain ⟨n, hs⟩ := decodeSector_requested m sc s
    exact accept_requested (requestBound_zero _ s) ⟨n, ⟨nofun, nofun, nofun, nofun, nofun, nofun⟩, hs⟩
  | decodeLen m size =>
    cases ht
    obtain ⟨n, hs, h0, h1⟩ := decodeLen_requested m size s
    exact accept_requested (requestBound_zero _ s)
      ⟨n, ⟨nofun, nofun, nofun, nofun, fun _ h => by cases h; exact h0 rfl, fun _ h => by cases h; exact h1 rfl⟩, hs⟩
  | raw =>
    obtain ⟨n, hn, hs⟩ := runPayload_requested (method0_requested (follows_refl s)) ht
    exact ⟨n, ⟨nofun, nofun, fun _ => hn, nofun, nofun, nofun⟩, hs⟩
  | repeat2 =>
    obtain ⟨n, hn, hs⟩ := runPayload_requested (method1_requested (follows_refl s)) ht
    exact ⟨n, ⟨nofun, nofun, nofun, fun _ => hn, nofun, nofun⟩, hs⟩
  | blockRle =>
    refine runPayload_requested (fun hroom => ends_mono (method2_requested (follows_refl s) hroom) ?_ ?_) ht
    · exact fun _ _ ⟨n, hs⟩ => ⟨n, ⟨nofun, nofun, nofun, nofun, nofun, nofun⟩, hs⟩
    · exact fun _ _ ⟨n, hs⟩ => ⟨n, ⟨nofun, nofun, nofun, nofun, nofun, nofun⟩, hs⟩
  | blkLiteral =>
    refine runPayload_requested (fun hroom => ends_mono (blkLiteral_stable (payloadStable_delivered s _) (le_refl _)
      (delivered_zero (follows_refl s)) hroom) ?_ ?_) ht
    · exact fun _ _ ⟨⟨n, _, hs⟩, _⟩ => ⟨n, ⟨nofun, nofun, nofun, nofun, nofun, nofun⟩, hs.requested⟩
    · exact fun _ _ ⟨n, hs⟩ => ⟨n, ⟨nofun, nofun, nofun, nofun, nofun, nofun⟩, hs⟩
  | blkFragment bt =>
    refine runPayload_requested (fun hroom => ends_mono (blkFragment_stable (payloadStable_delivered s _) (le_refl _) bt
      (delivered_zero (follows_refl s)) hroom) ?_ ?_) ht
    · exact fun _ _ ⟨⟨n, _, hs⟩, _⟩ => ⟨n, ⟨nofun, nofun, nofun, nofun, nofun, nofun⟩, hs.requested⟩
    · exact fun _ _ ⟨n, hs⟩ => ⟨n, ⟨nofun, nofun, nofun, nofun, nofun, nofun⟩, hs⟩
  | _ => cases hi

/-! ### Pushes -/

theorem matchEntry_win_wf (k : BitVec 8) {s : State} (h : s.win.wf FILL) : (matchEntry k s).win.wf FILL := by
  rw [matchEntry_eq k rfl]
  refine pushLiteral_win_wf _ ?_
  obtain ⟨hwin, -⟩ := decodePosition_frame (withMatchLength k s)
  show (decodePosition (withMatchLength k s)).win.wf FILL
  rw [hwin]
  exact h

theorem byteStable_win_wf : ByteStable fun s => s.win.wf FILL where
  bit s hs := by rw [nextBit_onlyBits s]; exact hs
  counted _ _ _ hs _ _ _ := hs
  breach _ _ _ hs _ _ _ := hs
  raw s hs := by rw [rawByte_onlyBits s]; exact hs
  idle _ hs := hs
  literal _ b hs := pushLiteral_win_wf b hs
  copy s hs _ := pushLiteral_win_wf _ (s := { s with copied := s.copied + 1 }) hs
  entry _ k hs _ := matchEntry_win_wf k hs

theorem byteIn_mode {s t : State} {b : Option Byte} (h : byteIn s = .ok b t) : t.compressed = s.compressed := by
  rw [onlyDatapath_of_byteIn_ok h]

/-- In compressed mode a run of requests pushes what it delivers. -/
theorem requests_push {n : Nat} {s u : State} {bs : List (BitVec 8)} (hwin : s.win.wf FILL)
    (h : requests n s = (bs, u)) : Pushed (if s.compressed then bs else []) s u := by
  induction n generalizing s bs with
  | zero =>
    cases h
    rw [ite_self]
    exact pushed_nil rfl rfl
  | succ n ih =>
    have hpush := byteIn_pushes hwin
    have hwf := byteIn_keeps byteStable_win_wf hwin
    cases hb : byteIn s with
    | raise e s1 =>
      rw [requests_raise n hb] at h
      rw [hb] at hpush
      cases h
      rw [ite_self]
      exact hpush
    | ok b s1 =>
      rw [hb] at hpush hwf
      cases b with
      | none =>
        rw [requests_none n hb] at h
        cases h
        exact hpush
      | some b =>
        rw [requests_some n hb] at h
        cases h
        have happend := pushed_append hpush (ih hwf rfl)
        rw [byteIn_mode hb] at happend
        cases hmode : s.compressed <;> rw [hmode] at happend <;> exact happend

theorem pushed_of_follows {bs : List (BitVec 8)} {s u t : State} (h : Pushed bs s u) (ht : Follows u t) :
    Pushed bs s t := by
  obtain ⟨⟨-, -, -, -, -, hwin, hr, -⟩, -⟩ := ht
  have happend := pushed_append h (pushed_nil (s := u) (t := t) hwin hr)
  rwa [List.append_nil] at happend

theorem requested_push {n : Nat} {s t : State} (hwin : s.win.wf FILL) (h : Requested s n t) :
    ∃ bs u, requests n s = (bs, u) ∧ SameDatapath u t ∧ Pushed (if s.compressed then bs else []) s t := by
  obtain ⟨bs, u, hreq, ht⟩ := h
  exact ⟨bs, u, hreq, ht.1, pushed_of_follows (requests_push hwin hreq) ht⟩

theorem matchEntry_pushes (k : BitVec 8) {s : State} (hwin : s.win.wf FILL) :
    Pushed [s.winRead (matchEntry k s).msrc.toNat] s (matchEntry k s) := by
  obtain ⟨hw, hr, -, -⟩ := decodePosition_frame (withMatchLength k s)
  have hentry := matchEntry_eq k (s := s) rfl
  generalize decodePosition (withMatchLength k s) = u at hentry hw hr
  have hread : u.winRead = s.winRead := funext fun a => congrArg (Memory.read FILL · a) hw
  rw [hentry, hread]
  exact pushed_of_sameWindow (t := { u with msrc := matchSource u.r u.dist, copied := 1, mstate := .copyingMatch })
    ⟨hw, hr⟩ (pushed_pushLiteral _ (hw ▸ hwin))

theorem positionFrom_pushes (lead : BitVec 8) (s : State) : Pushed [] s (positionFrom lead s) := by
  obtain ⟨hwin, hr⟩ := sameWindow_of_onlyBits (foldBits_onlyBits (extra lead) lead.toNat s)
  exact pushed_nil hwin hr

/-- Settles O30: commands and payload tokens work by byte requests, which push what they deliver; a symbol and a position
code push as they do inside a request. -/
theorem windowChangesOnlyByPushes : Obligations.WindowChangesOnlyByPushes := by
  intro i s t hinit hwin ht
  have hcommand : requestsBytes i = true → ∃ (n : Nat) (bs : List (BitVec 8)) (u : State), requests n s = (bs, u) ∧
      SameDatapath u t ∧ Pushed (if s.compressed then bs else []) s t ∧ RequestBound i s n := fun hi => by
    obtain ⟨n, hbound, hreq⟩ := exec_requested hi ht
    obtain ⟨bs, u, hrun, hsame, hpush⟩ := requested_push hwin hreq
    exact ⟨n, bs, u, hrun, hsame, hpush, hbound⟩
  have hposition : ∀ lead, encode i = .pos8x lead → Pushed [] s t := fun lead hi => by
    rw [exec_of_encode_pos8x hi] at ht
    cases ht
    exact positionFrom_pushes lead s
  cases i with
  | init c => cases hinit
  | readByte | readWordLe | decodeSector | decodeLen | raw | repeat2 | blockRle | blkLiteral | blkFragment =>
    exact hcommand rfl
  | lit b =>
    cases ht
    exact pushed_pushLiteral b hwin
  | lzMatch k =>
    by_cases hk : k.toNat < 58
    · rw [exec_lzMatch hk] at ht
      cases ht
      exact (if_pos hk).mpr (matchEntry_pushes k hwin)
    · rw [exec_lzMatch_of_ge (Nat.le_of_not_lt hk)] at ht
      cases ht
      exact (if_neg hk).mpr (pushed_nil rfl rfl)
  | posE1 | posE2Lo | posE2Hi | posE3Lo | posE3Mid | posE3Hi | posE4Lo | posE4Hi | posE5Lo | posE5Hi | posE6 =>
    exact hposition _ rfl

/-! ### The frame of the READ commands -/

/-- `t` differs from `s` at most where a READ command may change it. -/
def OnlyRead (s t : State) : Prop := OnlyDatapath { s with data := t.data, err := t.err, faulted := t.faulted } t

theorem onlyRead_of_onlyDatapath {s u : State} (h : OnlyDatapath s u) (data : BitVec 16) (err : Err) (faulted : Bool) :
    OnlyRead s { u with data := data, err := err, faulted := faulted } := by
  unfold OnlyRead OnlyDatapath
  rw [h]

theorem finishRead_onlyRead {s u : State} {x : Res (Option (BitVec 16))} (h : OnlyDatapath s u)
    (hx : (∃ v, x = .ok v u) ∨ x = .raise .treeInvariantViolation u) : OnlyRead s (finishRead x) := by
  have hread := onlyRead_of_onlyDatapath h
  obtain ⟨_ | v, rfl⟩ | rfl := hx
  · exact hread _ _ _
  · exact hread v .success u.faulted
  · exact hread _ _ _

theorem accept_onlyRead {body : State → State} {s : State} (h : OnlyRead s (body s)) : OnlyRead s (accept body s) := by
  obtain ⟨-, he⟩ | ⟨-, -, he⟩ | ⟨-, -, he⟩ := accept_cases body s <;> rw [he]
  · exact onlyRead_of_onlyDatapath (onlyDatapath_refl s) s.data _ _
  · exact onlyRead_of_onlyDatapath (onlyDatapath_refl s) s.data _ s.faulted
  · exact h

theorem readByte_onlyRead (s : State) : OnlyRead s (readByte s) := by
  obtain ⟨t, ht, ⟨b, hb⟩ | hb⟩ := byteIn_frame s
  · exact finishRead_onlyRead ht (.inl ⟨_, by rw [hb]; rfl⟩)
  · exact finishRead_onlyRead ht (.inr (by rw [hb]; rfl))

theorem readWordLe_onlyRead (s : State) : OnlyRead s (readWordLe s) := by
  obtain ⟨t, ht, hx⟩ := wordIn_frame s
  exact finishRead_onlyRead ht hx

theorem length_requests_le {n : Nat} {s u : State} {bs : List (BitVec 8)} (h : requests n s = (bs, u)) :
    bs.length ≤ n := by
  induction n generalizing s bs with
  | zero => cases h; exact le_refl 0
  | succ n ih =>
    cases hb : byteIn s with
    | raise e s1 => rw [requests_raise n hb] at h; cases h; exact Nat.zero_le _
    | ok b s1 =>
      cases b with
      | none => rw [requests_none n hb] at h; cases h; exact Nat.zero_le _
      | some b => rw [requests_some n hb] at h; cases h; exact Nat.succ_le_succ (ih rfl)

/-- Up to `n` requests leave every window byte but the `n` from `r` on. -/
theorem winRead_of_requested {n : Nat} {s t : State} (hwin : s.win.wf FILL) (h : Requested s n t) {a : Nat}
    (ha : ∀ j, j < n → (s.r.toNat + j) % SBSIZE ≠ a) : t.winRead a = s.winRead a := by
  obtain ⟨bs, u, hrun, -, hpush⟩ := requested_push hwin h
  have hlen := length_requests_le hrun
  refine hpush.kept a fun j hj => ha j ?_
  split at hj
  · exact hj.trans_le hlen
  · exact absurd hj (Nat.not_lt_zero j)

/-- Settles O46: a READ command makes one or two requests and puts their answer in DATA, ERR and FAULTED. -/
theorem readFrame : Obligations.ReadFrame := by
  intro s t hwin
  have hfirst : (s.r.toNat + 0) % SBSIZE = s.r.toNat := Nat.mod_eq_of_lt s.r.isLt
  refine ⟨fun ht => ⟨?_, fun a ha => ?_⟩, fun ht => ⟨?_, fun a ha ha' => ?_⟩⟩
  · cases ht
    exact accept_onlyRead (readByte_onlyRead s)
  · obtain ⟨n, hbound, hreq⟩ := exec_requested (i := .readByte) rfl ht
    refine winRead_of_requested hwin hreq fun j hj => ?_
    obtain rfl : j = 0 := by have := hbound.1 rfl; omega
    rw [hfirst]
    exact ha.symm
  · cases ht
    exact accept_onlyRead (readWordLe_onlyRead s)
  · obtain ⟨n, hbound, hreq⟩ := exec_requested (i := .readWordLe) rfl ht
    refine winRead_of_requested hwin hreq fun j hj => ?_
    obtain rfl | rfl : j = 0 ∨ j = 1 := by have := hbound.2.1 rfl; omega
    · rw [hfirst]
      exact ha.symm
    · have hsecond : (s.r + 1).toNat = (s.r.toNat + 1) % SBSIZE := BitVec.toNat_add ..
      rw [← hsecond]
      exact ha'.symm

end Sys2Proof.Proofs
end

section
/-! SUPPORT. What counting keeps in any tree, good or not: the sentinel behind the weights (10_state.md R33), and
back-links that are slots (R35). -/

namespace Sys2Proof.Proofs

open Sys2Proof.Config Sys2Proof.Machine Sys2Proof.Safety Sys2Proof.Laws

/-- The weights end at the sentinel, and every back-link is a slot. -/
structure Fenced (t : Tree) : Prop where
  sentinel : t.freqAt 627 = 65535
  parent : ∀ x, t.parentAt x ≤ 626

theorem fenced_setFreq {t : Tree} {x : Nat} (h : Fenced t) (hx : x ≤ 626) (v : Nat) : Fenced (t.setFreq x v) :=
  ⟨by rw [freqAt_setFreq, if_neg (by omega)]; exact h.sentinel, h.parent⟩

theorem fenced_setSon {t : Tree} (h : Fenced t) (x v : Nat) : Fenced (t.setSon x v) := ⟨h.sentinel, h.parent⟩

theorem fenced_setParent {t : Tree} {p : Nat} (h : Fenced t) (x : Nat) (hp : p ≤ 626) : Fenced (t.setParent x p) :=
  ⟨h.sentinel, fun y => by
    have := h.parent y
    rw [parentAt_setParent]
    split <;> omega⟩

theorem fenced_linkTo {t : Tree} {p : Nat} (h : Fenced t) (i : Nat) (hp : p ≤ 626) : Fenced (t.linkTo i p) := by
  unfold Tree.linkTo
  split
  · exact fenced_setParent (fenced_setParent h i hp) (i + 1) hp
  · exact fenced_setParent h i hp

/-! ### The update -/

theorem fenced_exchange {t : Tree} {c l : Nat} (h : Fenced t) (hc : c ≤ 626) (hl : l ≤ 626) (k : Nat) :
    Fenced (t.exchange c l k) := by
  have hweights := fenced_setFreq (fenced_setFreq h hc (t.freqAt l)) hl k
  exact fenced_setSon (fenced_linkTo (fenced_setSon (fenced_linkTo hweights _ hl) l _) _ hc) c _

/-- The scan cannot pass the sentinel. -/
theorem fenced_count {t : Tree} {c : Nat} (h : Fenced t) (hc : c ≤ 626) :
    Fenced (t.count c).1 ∧ (t.count c).2 ≤ 626 := by
  have hset := fenced_setFreq h hc (t.freqAt c + 1)
  have hweight := freqAt_lt (t.setFreq c (t.freqAt c + 1)) c
  unfold Tree.count
  generalize t.setFreq c (t.freqAt c + 1) = u at hset hweight ⊢
  simp only
  split
  case isTrue hgt =>
    have hc' : c ≠ 626 := fun he => by
      subst he
      rw [hset.sentinel] at hgt
      omega
    have hscan := scanFrom_spec (t := u) (k := u.freqAt c) (by rw [hset.sentinel]; omega) (n := TSIZE) (l := c + 1)
      (by omega) (show 626 ≤ c + 1 + 627 by omega)
    exact ⟨fenced_exchange hset hc hscan.2.1 _, hscan.2.1⟩
  case isFalse => exact ⟨hset, hc⟩

/-- However a tree operation ends, the tree is fenced. -/
def EndsFenced (r : TreeRes) : Prop := ∀ u, r = .ok u ∨ r = .breach u → Fenced u

theorem endsFenced_ok {t : Tree} (h : Fenced t) : EndsFenced (.ok t) := by
  rintro u (hu | hu) <;> cases hu
  exact h

theorem endsFenced_breach {t : Tree} (h : Fenced t) : EndsFenced (.breach t) := by
  rintro u (hu | hu) <;> cases hu
  exact h

theorem fenced_updateLoop {n c : Nat} {t : Tree} (h : Fenced t) (hc : c ≤ 626) : EndsFenced (updateLoop n t c) := by
  induction n generalizing t c with
  | zero => exact endsFenced_breach (fenced_count h hc).1
  | succ n ih =>
    have hcount := fenced_count h hc
    obtain ⟨⟨t', l⟩, hp⟩ : ∃ p, t.count c = p := ⟨_, rfl⟩
    rw [hp] at hcount
    rw [updateLoop_succ n hp]
    split
    · exact endsFenced_ok hcount.1
    · exact ih hcount.1 (hcount.1.parent l)

/-! ### The rebuild -/

theorem fenced_gather {t : Tree} {j : Nat} (h : Fenced t) (hj : j ≤ 626) (i : Nat) :
    Fenced (t.gather j i).1 ∧ (t.gather j i).2 ≤ j + 1 := by
  unfold Tree.gather
  split
  · exact ⟨fenced_setSon (fenced_setFreq h hj _) j _, le_refl _⟩
  · exact ⟨h, Nat.le_succ j⟩

theorem fenced_gatherLeaves {t : Tree} (h : Fenced t) : Fenced (gatherLeaves t).1 := by
  have hloop := foldl_range_induction (n := 627) (a := (t, 0)) (f := fun p i => p.1.gather p.2 i)
    (P := fun i (p : Tree × Nat) => Fenced p.1 ∧ p.2 ≤ i) ⟨h, le_refl 0⟩ fun i p hi hp => by
      obtain ⟨hfenced, hj⟩ := fenced_gather hp.1 (show p.2 ≤ 626 by omega) i
      exact ⟨hfenced, by omega⟩
  exact hloop.1

theorem fenced_shiftUp {n k : Nat} {t : Tree} (h : Fenced t) (hn : k + n ≤ 626) : Fenced (t.shiftUp k n) := by
  induction n generalizing t with
  | zero => exact h
  | succ n ih => exact ih (fenced_setSon (fenced_setFreq h (by omega) _) _ _) (by omega)

theorem fenced_pairInto {t : Tree} {j : Nat} (h : Fenced t) (hj : 1 ≤ j) (hj' : j ≤ 626) : Fenced (t.pairInto j) := by
  unfold Tree.pairInto
  simp only
  generalize 2 * (j - N_CHAR) = i
  have hk := (insertionPoint_spec t (t.freqAt i + t.freqAt (i + 1)) (j - 1)).1
  generalize t.insertionPoint (t.freqAt i + t.freqAt (i + 1)) (j - 1) = k at hk ⊢
  exact fenced_setSon (fenced_setFreq (fenced_shiftUp h (by omega)) (by omega) _) k i

theorem fenced_pairAll {t : Tree} (h : Fenced t) : Fenced (pairAll t) := by
  have hloop := foldl_range_induction (n := 313) (f := fun u m => u.pairInto (314 + m)) (P := fun _ => Fenced) h
    fun m _ _ hu => fenced_pairInto hu (by omega) (by omega)
  exact hloop

theorem fenced_relink {t : Tree} (h : Fenced t) : Fenced (relink t) := by
  have hloop := foldl_range_induction (n := 627) (f := fun u i => u.linkTo (u.sonAt i) i) (P := fun _ => Fenced) h
    fun i _ _ hu => fenced_linkTo hu _ (by omega)
  exact hloop

theorem rebuild_eq {t g : Tree} {j : Nat} (h : gatherLeaves t = (g, j)) :
    rebuild t = if j = N_CHAR then .ok (relink (pairAll g)) else .breach g := by
  rw [rebuild, h]

theorem fenced_rebuild {t : Tree} (h : Fenced t) : EndsFenced (rebuild t) := by
  have hg := fenced_gatherLeaves h
  generalize hp : gatherLeaves t = p at hg
  obtain ⟨g, j⟩ := p
  rw [rebuild_eq hp]
  by_cases hj : j = N_CHAR
  · rw [if_pos hj]
    exact endsFenced_ok (fenced_relink (fenced_pairAll hg))
  · rw [if_neg hj]
    exact endsFenced_breach hg

theorem update_of_max_breach {t t1 : Tree} (sym : Nat) (h : t.freqAt ROOT = MAX_FREQ) (h1 : rebuild t = .breach t1) :
    update t sym = .breach t1 := by
  rw [update, if_pos h, h1]

theorem fenced_update {t : Tree} (h : Fenced t) (sym : Nat) : EndsFenced (update t sym) := by
  by_cases hmax : t.freqAt ROOT = MAX_FREQ
  · have hr := fenced_rebuild h
    generalize hb : rebuild t = r at hr
    cases r with
    | breach u =>
      rw [update_of_max_breach sym hmax hb]
      exact hr
    | ok u =>
      have hu := hr u (.inl rfl)
      rw [update_of_max sym hmax hb]
      exact fenced_updateLoop hu (hu.parent _)
  · rw [update_of_ne_max sym hmax]
    exact fenced_updateLoop h (h.parent _)

theorem fenced_hufInit : Fenced hufInit where
  sentinel := hufInit_sentinel
  parent x := by
    by_cases h : x < 941
    · rw [hufInit_parentAt h]
      simp only [ROOT, N_CHAR, TSIZE]
      split_ifs <;> omega
    · simp [Tree.parentAt, Vector.getElem?_eq_none (show 941 ≤ x by omega)]

end Sys2Proof.Proofs
end

section
/-! The invariant of every step (10_state.md sections 4 to 6, 20_memory.md section 1): the statement
InvKeptByEveryStep. -/

namespace Sys2Proof.Proofs

open Sys2Proof.Config Sys2Proof.Machine Sys2Proof.Safety Sys2Proof.Laws

/-! ### The invariant, register by register -/

/-- The invariant speaks of the memories, the bit buffer, OUTLEN, the match registers, the mode and the tree, and of
nothing else. -/
theorem inv_frame {s t : State} (h : Inv s)
    (ht : t = { s with
      inited := t.inited, faulted := t.faulted, eof := t.eof, shortFill := t.shortFill, err := t.err, data := t.data
      r := t.r, msrc := t.msrc, remaining := t.remaining, w := t.w, fsize := t.fsize, cnt := t.cnt, tgt := t.tgt
      short := t.short, dist := t.dist, outByte := t.outByte, padbits := t.padbits, src := t.src, spos := t.spos
      inputs := t.inputs, resp := t.resp, draws := t.draws }) : Inv t := by
  rw [ht]
  exact ⟨h.win_wf, h.win_below, h.outbuf_wf, h.outbuf_below, h.frag_wf, h.frag_below, ⟨h.bits.count, h.bits.low⟩,
    h.outlen_le, h.match_length, h.match_copied, h.sentinel, h.parents⟩

theorem inv_outlen {s : State} {outlen : BitVec 14} (h : Inv s) (hlen : outlen.toNat ≤ OUTBUF_SIZE) :
    Inv { s with outlen := outlen } :=
  ⟨h.win_wf, h.win_below, h.outbuf_wf, h.outbuf_below, h.frag_wf, h.frag_below, ⟨h.bits.count, h.bits.low⟩, hlen,
    h.match_length, h.match_copied, h.sentinel, h.parents⟩

theorem inv_outbuf {s : State} {outbuf : Memory} (h : Inv s) (hwf : outbuf.wf 0) (hbelow : outbuf.below OUTBUF_SIZE) :
    Inv { s with outbuf := outbuf } :=
  ⟨h.win_wf, h.win_below, hwf, hbelow, h.frag_wf, h.frag_below, ⟨h.bits.count, h.bits.low⟩, h.outlen_le, h.match_length,
    h.match_copied, h.sentinel, h.parents⟩

theorem inv_frag {s : State} {frag : Memory} (h : Inv s) (hwf : frag.wf 0) (hbelow : frag.below FRAG_MAX) :
    Inv { s with frag := frag } :=
  ⟨h.win_wf, h.win_below, h.outbuf_wf, h.outbuf_below, hwf, hbelow, ⟨h.bits.count, h.bits.low⟩, h.outlen_le,
    h.match_length, h.match_copied, h.sentinel, h.parents⟩

theorem inv_win {s : State} {win : Memory} (h : Inv s) (hwf : win.wf FILL) (hbelow : win.below SBSIZE) :
    Inv { s with win := win } :=
  ⟨hwf, hbelow, h.outbuf_wf, h.outbuf_below, h.frag_wf, h.frag_below, ⟨h.bits.count, h.bits.low⟩, h.outlen_le,
    h.match_length, h.match_copied, h.sentinel, h.parents⟩

theorem inv_tree {s : State} {tree : Tree} (h : Inv s) (htree : Fenced tree) : Inv { s with tree := tree } :=
  ⟨h.win_wf, h.win_below, h.outbuf_wf, h.outbuf_below, h.frag_wf, h.frag_below, ⟨h.bits.count, h.bits.low⟩,
    h.outlen_le, h.match_length, h.match_copied, fun _ => htree.sentinel, htree.parent⟩

theorem inv_match {s : State} {mstate : MState} {mlen copied : BitVec 6} (h : Inv s)
    (hmatch : mstate = .copyingMatch → (3 ≤ mlen.toNat ∧ mlen.toNat ≤ LASIZE) ∧ copied.toNat ≤ mlen.toNat) :
    Inv { s with mstate := mstate, mlen := mlen, copied := copied } :=
  ⟨h.win_wf, h.win_below, h.outbuf_wf, h.outbuf_below, h.frag_wf, h.frag_below, ⟨h.bits.count, h.bits.low⟩,
    h.outlen_le, fun hm => (hmatch hm).1, fun hm => (hmatch hm).2, h.sentinel, h.parents⟩

/-- A bit read keeps the invariant where it keeps the bit buffer's part. -/
theorem inv_bits {s t : State} (h : Inv s) (ht : OnlyBits s t) (hbits : BitsOk t) : Inv t := by
  have hinv : Inv { s with bitbuf := t.bitbuf, bitcnt := t.bitcnt } :=
    ⟨h.win_wf, h.win_below, h.outbuf_wf, h.outbuf_below, h.frag_wf, h.frag_below, ⟨hbits.count, hbits.low⟩, h.outlen_le,
      h.match_length, h.match_copied, h.sentinel, h.parents⟩
  exact inv_frame hinv (by rw [ht])

theorem inv_consumed {n : Nat} {s t : State} (h : Inv s) (ht : Consumed n s t) : Inv t := inv_bits h ht.frame ht.bits

/-! ### Byte requests -/

theorem fenced_of_inv {s : State} (h : Inv s) (hmode : s.compressed = true) : Fenced s.tree :=
  ⟨h.sentinel hmode, h.parents⟩

theorem inv_pushLiteral {s : State} (h : Inv s) (b : Byte) : Inv (pushLiteral b s) := by
  have hwin := inv_win h (write_wf s.r.toNat b h.win_wf) (write_below b s.r.isLt h.win_below)
  exact inv_frame hwin rfl

theorem inv_positionFrom {s : State} (h : Inv s) (lead : BitVec 8) : Inv (positionFrom lead s) :=
  inv_frame (inv_consumed h (foldBits_reads (extra lead) lead.toNat h.bits).2) rfl

/-- A match enters with a length of 3..60 and one byte copied, whatever match it replaces. -/
theorem inv_matchEntry {s : State} (h : Inv s) {k : BitVec 8} (hk : k.toNat < 58) : Inv (matchEntry k s) := by
  have hlen := withMatchLength_mlen hk s
  obtain ⟨-, hread⟩ := decodePosition_reads (s := withMatchLength k s) ⟨h.bits.count, h.bits.low⟩ rfl rfl
  rw [matchEntry_eq k rfl]
  generalize decodePosition (withMatchLength k s) = u at hread ⊢
  refine inv_pushLiteral (inv_bits (s := { s with
    mlen := BitVec.ofNat 6 (matchLength k), dist := u.dist, msrc := matchSource u.r u.dist, copied := 1
    mstate := .copyingMatch })
    (t := { u with msrc := matchSource u.r u.dist, copied := 1, mstate := .copyingMatch }) ?_ ?_ ⟨hread.bits.count, hread.bits.low⟩) _
  · refine inv_frame (inv_match (mstate := .copyingMatch) (mlen := BitVec.ofNat 6 (matchLength k)) (copied := 1) h
      fun _ => ?_) rfl
    have hlen' : (BitVec.ofNat 6 (matchLength k)).toNat = k.toNat + 3 := hlen
    have hone : (1 : BitVec 6).toNat = 1 := rfl
    simp only [LASIZE]
    rw [hlen', hone]
    omega
  · have hframe := hread.frame
    unfold OnlyBits at hframe ⊢
    rw [hframe]
    rfl

theorem inv_copyStep {s : State} (h : Inv s) (hpend : s.copyPending = true) : Inv (copyStep s) := by
  obtain ⟨hm, hlt⟩ : s.mstate = .copyingMatch ∧ s.copied.toNat < s.mlen.toNat := by
    simpa [State.copyPending] using hpend
  obtain ⟨hlow, hhigh⟩ := h.match_length hm
  simp only [LASIZE] at hhigh
  have hnext : (s.copied + 1).toNat = s.copied.toNat + 1 := copied_succ_toNat (by omega)
  exact inv_pushLiteral (s := { s with copied := s.copied + 1 }) (inv_match h fun _ => ⟨⟨hlow, hhigh⟩, by omega⟩) _

theorem byteStable_inv : ByteStable Inv where
  bit s hs := inv_consumed hs (consumed_nextBit hs.bits)
  counted _ sym tree hs hmode _ htree :=
    inv_tree hs (fenced_update (fenced_of_inv hs hmode) sym tree (.inl htree))
  breach _ sym tree hs hmode _ htree := inv_tree hs (fenced_update (fenced_of_inv hs hmode) sym tree (.inr htree))
  raw s hs := by
    obtain ⟨b, -, -, h⟩ | ⟨-, h⟩ | ⟨-, -, h⟩ := rawByte_cases s <;> rw [h]
    · exact inv_frame hs rfl
    · exact hs
    · exact inv_frame hs rfl
  idle _ hs := inv_match (mstate := .idle) hs nofun
  literal _ b hs := inv_pushLiteral hs b
  copy _ hs hpend := inv_copyStep hs hpend
  entry _ k hs hk := inv_matchEntry hs hk

/-! ### Instructions and inputs -/

theorem inv_emit {s : State} (h : Inv s) (b : Byte) : Inv (emit b s) := by
  have hbelow : (emit b s).outbuf.below OUTBUF_SIZE := by
    rw [emit_outbuf]
    split
    case isTrue hlt => exact write_below b hlt h.outbuf_below
    case isFalse => exact h.outbuf_below
  exact inv_frame (inv_outbuf h (emit_outbuf_wf b h.outbuf_wf) hbelow) rfl

theorem inv_fragWrite {s : State} (h : Inv s) (j : Nat) (b : Byte) : Inv (s.fragWrite j b) := by
  unfold State.fragWrite
  split
  case isTrue hlt => exact inv_frag h (write_wf j b h.frag_wf) (write_below b hlt h.frag_below)
  case isFalse => exact h

theorem coreStable_inv : CoreStable Inv where
  request _ hs := ends_mono (byteIn_keeps byteStable_inv hs) (fun _ _ ht => ht) fun _ _ ht => ht.2
  start _ target hs :=
    inv_frame (inv_outbuf hs (clearBelow_wf target hs.outbuf_wf) (clearBelow_below target hs.outbuf_below)) rfl
  output _ b hs := inv_emit hs b
  register _ _ _ _ hs := inv_frame hs rfl
  short _ _ hs := inv_frame hs rfl
  fragment _ j b hs := inv_fragWrite hs j b
  raised _ _ hs := inv_frame hs rfl
  code _ _ hs := inv_frame hs rfl
  value _ _ hs := inv_frame hs rfl
  result _ _ _ hlen hs := inv_frame (inv_outlen hs hlen) rfl

theorem inv_initStream (c : Bool) {s : State} (h : Inv s) : Inv (initStream c s) :=
  ⟨wf_nil, below_nil _, wf_nil, below_nil _, h.frag_wf, h.frag_below, initStream_bitsOk c s, Nat.zero_le _, nofun, nofun,
    fun _ => fenced_hufInit.sentinel, fenced_hufInit.parent⟩

theorem inv_exec {i : Instr} {s t : State} (h : Inv s) (ht : exec i s = .next t) : Inv t := by
  obtain hi | hi | ⟨b, rfl⟩ | ⟨k, rfl⟩ | ⟨lead, hi⟩ := instr_kinds i
  · cases i with
    | init c => cases ht; exact inv_initStream c h
    | _ => cases hi
  · exact exec_keeps coreStable_inv hi h ht
  · cases ht
    exact inv_pushLiteral h b
  · by_cases hk : k.toNat < 58
    · rw [exec_lzMatch hk] at ht
      cases ht
      exact inv_matchEntry h hk
    · rw [exec_lzMatch_of_ge (Nat.le_of_not_lt hk)] at ht
      cases ht
      exact inv_frame h rfl
  · rw [exec_of_encode_pos8x hi] at ht
    cases ht
    exact inv_positionFrom h lead

theorem inv_runCodeWord {c : CodeWord} {s t : State} (h : Inv s) (ht : runCodeWord c s = .next t) : Inv t := by
  cases hd : decode c with
  | ok i =>
    rw [runCodeWord_of_ok hd] at ht
    exact inv_exec h ht
  | error e =>
    rw [runCodeWord_of_error hd] at ht
    cases ht
    cases e <;> exact inv_frame h rfl

theorem inv_drawn {s : State} (h : Inv s) : Inv s.drawn := by
  unfold State.drawn
  split
  · exact h
  · exact inv_frame h rfl

theorem inv_stepInput {x : Input} {s t : State} (h : Inv s) (ht : stepInput x s = .next t) : Inv t := by
  cases x with
  | write32 offset word =>
    simp only [stepInput] at ht
    split_ifs at ht
    · exact inv_runCodeWord h ht
    · cases ht
      exact inv_frame h rfl
  | read32 offset =>
    simp only [stepInput] at ht
    split_ifs at ht
    · cases ht
      exact inv_frame (inv_drawn h) rfl
    · cases ht
      exact inv_frame h rfl
  | read8 offset =>
    simp only [stepInput] at ht
    split_ifs at ht
    cases ht
    exact inv_frame (inv_drawn h) rfl
  | attach src spos =>
    cases ht
    exact inv_frame h rfl
  | powerOn =>
    cases ht
    exact inv_frame (inv_outlen (outlen := 0) h (Nat.zero_le _)) rfl
  | token word => exact inv_runCodeWord h ht

/-- Settles O3: a step is one input, and every instruction keeps the invariant because every primitive does. -/
theorem invKeptByEveryStep : Obligations.InvKeptByEveryStep := by
  intro s t h ht
  cases hin : s.inputs with
  | nil =>
    rw [step, hin] at ht
    cases ht
    exact h
  | cons x rest =>
    rw [step_of_inputs hin] at ht
    exact inv_stepInput (s := { s with inputs := rest }) (inv_frame h rfl) ht

end Sys2Proof.Proofs
end

section
/-! No command breaks a good tree (41_huffman.md R137, R139): a byte request in a good tree delivers a byte or ends the
stream, and uses up a budget, so that the bound on the blocks of method 2 (log 9) never shows. The statement
CommandsNeverBreakTheTree. -/

namespace Sys2Proof.Proofs

open Sys2Proof.Config Sys2Proof.Machine Sys2Proof.Safety Sys2Proof.Laws

/-! ### The bits left -/

/-- One more than the real bits still to come, and 0 once the end has been read past. -/
def bitsLeft (s : State) : Nat := if s.eof then 0 else s.bitcnt.toNat + 8 * (s.src.size - s.spos) + 1

theorem bitsLeft_ended {s : State} (h : s.eof = true) : bitsLeft s = 0 := if_pos h

theorem bitsLeft_running {s : State} (h : s.eof = false) :
    bitsLeft s = s.bitcnt.toNat + 8 * (s.src.size - s.spos) + 1 := by simp [bitsLeft, h]

/-- Loading a byte moves eight bits from the source to the buffer. -/
theorem bitsLeft_refillOnce {s : State} (hcnt : s.bitcnt.toNat ≤ 8) : bitsLeft (refillOnce s) ≤ bitsLeft s := by
  obtain ⟨hpos, heof'⟩ := refillOnce_cursor s
  have hcnt' : (refillOnce s).bitcnt.toNat = s.bitcnt.toNat + 8 := by rw [refillOnce_bitcnt, bitcnt_add_eight hcnt]
  have hsrc : (refillOnce s).src = s.src := by rw [refillOnce_onlyBits s]
  obtain ⟨b, heof, hb, hraw⟩ | ⟨heof, hraw⟩ | ⟨heof, -, hraw⟩ := rawByte_cases s <;> rw [hraw] at hpos heof'
  · have hlt : s.spos < s.src.size := (Array.getElem?_eq_some_iff.mp hb).1
    rw [bitsLeft_running (heof'.trans heof), bitsLeft_running heof, hcnt', hsrc, hpos]
    simp only
    omega
  · rw [bitsLeft_ended (heof'.trans heof)]
    exact Nat.zero_le _
  · rw [bitsLeft_ended heof']
    exact Nat.zero_le _

theorem bitsLeft_refill (s : State) : bitsLeft (refill s) ≤ bitsLeft s :=
  refill_induction (P := fun t => bitsLeft t ≤ bitsLeft s)
    (fun _ ht hcnt => (bitsLeft_refillOnce hcnt).trans ht) (le_refl _)

theorem bitsLeft_takeBits {n : Nat} {s : State} (hn : n ≤ s.bitcnt.toNat) :
    bitsLeft (takeBits n s) ≤ bitsLeft s - n := by
  cases heof : s.eof with
  | true => exact (bitsLeft_ended (s := takeBits n s) heof).trans_le (Nat.zero_le _)
  | false =>
    rw [bitsLeft_running (s := takeBits n s) heof, bitsLeft_running heof, takeBits_bitcnt hn]
    show s.bitcnt.toNat - n + 8 * (s.src.size - s.spos) + 1 ≤ _
    omega

theorem bitsLeft_nextBit (s : State) : bitsLeft (nextBit s).2 ≤ bitsLeft s - 1 :=
  (bitsLeft_takeBits (Nat.le_trans (by decide) (nine_le_refill_bitcnt s))).trans (Nat.sub_le_sub_right (bitsLeft_refill s) 1)

theorem bitsLeft_nextBits8 (s : State) : bitsLeft (nextBits8 s).2 ≤ bitsLeft s :=
  (bitsLeft_takeBits (Nat.le_trans (by decide) (nine_le_refill_bitcnt s))).trans
    ((Nat.sub_le _ 8).trans (bitsLeft_refill s))

theorem bitsLeft_foldBits (n v : Nat) (s : State) : bitsLeft (foldBits n v s).2 ≤ bitsLeft s := by
  induction n generalizing v s with
  | zero => exact le_refl _
  | succ n ih => exact (ih _ _).trans ((bitsLeft_nextBit s).trans (Nat.sub_le _ 1))

theorem bitsLeft_decodePosition (s : State) : bitsLeft (decodePosition s) ≤ bitsLeft s :=
  (bitsLeft_foldBits _ _ (nextBits8 s).2).trans (bitsLeft_nextBits8 s)

theorem bitsLeft_matchEntry (k : BitVec 8) (s : State) : bitsLeft (matchEntry k s) ≤ bitsLeft s := by
  rw [matchEntry_eq k rfl]
  exact bitsLeft_decodePosition (withMatchLength k s)

theorem bitsLeft_deliverSymbol (sym : Nat) (s : State) : bitsLeft (deliverSymbol sym s) ≤ bitsLeft s := by
  unfold deliverSymbol
  generalize BitVec.ofNat 8 (sym - 256) = k
  split
  · exact le_refl _
  · exact bitsLeft_matchEntry k s

theorem deliverSymbol_tree (sym : Nat) (s : State) : (deliverSymbol sym s).tree = s.tree := by
  unfold deliverSymbol
  generalize BitVec.ofNat 8 (sym - 256) = k
  split
  · rfl
  · rw [matchEntry_eq k rfl]
    exact (decodePosition_frame (withMatchLength k s)).2.2.2

/-! ### Symbols in a good tree -/

/-- The root of a good tree is a pair. -/
theorem Shape.root_pair {t : Tree} (h : Shape t) : t.sonAt ROOT < 627 := by
  obtain ⟨hlt, hp, hson⟩ := h.lt_parent (x := 625) (by decide)
  obtain hroot : t.parentAt 625 = 626 := by omega
  rw [hroot] at hson
  exact hson

/-- A walk from the root of a good tree reads at least one bit. -/
theorem walk_root_reads {s : State} (h : Shape s.tree) {c : Nat} {t : State}
    (hwalk : walk TSIZE (s.tree.sonAt ROOT) s = .ok c t) : OnlyBits s t ∧ bitsLeft t ≤ bitsLeft s - 1 := by
  have hkeeps := walk_keeps (P := fun u => OnlyBits s u ∧ bitsLeft u ≤ bitsLeft s - 1)
    (fun u hu => ⟨onlyBits_trans hu.1 (nextBit_onlyBits u),
      (bitsLeft_nextBit u).trans ((Nat.sub_le _ 1).trans hu.2)⟩) 626
    (s.tree.sonAt (s.tree.sonAt ROOT + (nextBit s).1.toNat)) (s := (nextBit s).2) ⟨nextBit_onlyBits s, bitsLeft_nextBit s⟩
  rw [← walk_pair 626 s h.root_pair] at hkeeps
  rw [show walk (626 + 1) (s.tree.sonAt ROOT) s = .ok c t from hwalk] at hkeeps
  exact hkeeps

theorem decodeSymbol_good {s : State} (h : TreeInv s.tree) :
    ∃ sym t tree, decodeSymbol s = .ok sym { t with tree := tree } ∧ TreeInv tree ∧ OnlyBits s t ∧
      bitsLeft t ≤ bitsLeft s - 1 := by
  have hshape := (weighed_of_treeInv h).shape
  obtain ⟨c, t, hwalk, hc, hc'⟩ := walk_ends (fuel := TSIZE) hshape (show ROOT < 627 by decide) (by decide)
  obtain ⟨sym, rfl⟩ : ∃ sym, c = 627 + sym := ⟨c - 627, by omega⟩
  obtain ⟨hbits, hleft⟩ := walk_root_reads hshape hwalk
  have htree : t.tree = s.tree := by rw [hbits]
  obtain ⟨tree, hupdate, hgood⟩ := update_treeInv (sym := sym) (htree ▸ h) (show sym < 314 by omega)
  refine ⟨sym, t, tree, ?_, hgood, hbits, hleft⟩
  rw [decodeSymbol_of_walk_ok hwalk (Nat.add_sub_cancel_left 627 sym).symm]
  exact countLeaf_of_update (show sym < 314 by omega) hupdate

/-! ### The budget of byte requests -/

theorem byteBudget_eq (s : State) :
    byteBudget s = if s.eof then 0 else 64 * bitsLeft s + (s.mlen.toNat - s.copied.toNat) := by
  cases heof : s.eof <;> simp [byteBudget, bitsLeft, heof, eofAtFirstFailedRead]

/-- Using up a bit leaves room for the longest match. -/
theorem byteBudget_lt_of_bit {s t : State} (heof : s.eof = false) (h : bitsLeft t ≤ bitsLeft s - 1) :
    byteBudget t < byteBudget s := by
  have hmlen := t.mlen.isLt
  have hpos := bitsLeft_running heof
  rw [byteBudget_eq, byteBudget_eq, heof]
  simp only [Bool.false_eq_true, if_false]
  split <;> omega

theorem byteBudget_lt_of_copy {s : State} (heof : s.eof = false) (hpend : s.copyPending = true) :
    byteBudget (copyStep s) < byteBudget s := by
  obtain ⟨-, hlt⟩ : s.mstate = .copyingMatch ∧ s.copied.toNat < s.mlen.toNat := by
    simpa [State.copyPending] using hpend
  have hmlen := s.mlen.isLt
  have hnext : (copyStep s).copied.toNat = s.copied.toNat + 1 := copied_succ_toNat (by omega)
  have hleft : bitsLeft (copyStep s) = bitsLeft s := rfl
  rw [byteBudget_eq, byteBudget_eq, show (copyStep s).eof = s.eof from rfl, heof, hnext, hleft]
  simp only [Bool.false_eq_true, if_false]
  show 64 * bitsLeft s + (s.mlen.toNat - (s.copied.toNat + 1)) < _
  omega

theorem byteBudget_lt_of_rawByte {s : State} {b : Byte} (heof : s.eof = false) (hb : s.src[s.spos]? = some b) :
    byteBudget { s with spos := s.spos + 1 } < byteBudget s := by
  have hlt : s.spos < s.src.size := (Array.getElem?_eq_some_iff.mp hb).1
  refine byteBudget_lt_of_bit heof ?_
  rw [bitsLeft_running (s := { s with spos := s.spos + 1 }) heof, bitsLeft_running heof]
  simp only
  omega

/-- In a good tree a request delivers a byte, using up budget, or ends the stream; it never raises. -/
theorem byteIn_good {s : State} (h : TreeGood s) :
    Ends (fun b t => TreeGood t ∧ (b ≠ none → byteBudget t < byteBudget s)) (fun _ _ => False) (byteIn s) := by
  cases hmode : s.compressed with
  | false =>
    have hgood : ∀ {t : State}, OnlyBits s t → TreeGood t := fun ht => by
      rw [ht]
      exact fun hc => by simp [hmode] at hc
    rw [byteIn_raw hmode]
    obtain ⟨b, heof, hb, hraw⟩ | ⟨-, hraw⟩ | ⟨-, -, hraw⟩ := rawByte_cases s <;>
      refine ⟨hgood (rawByte_onlyBits s), ?_⟩ <;> rw [hraw]
    · exact fun _ => byteBudget_lt_of_rawByte heof hb
    · exact fun hne => absurd rfl hne
    · exact fun hne => absurd rfl hne
  | true =>
    rw [byteIn_compressed hmode]
    unfold decNextByte
    split
    case isTrue => exact ⟨h, fun hne => absurd rfl hne⟩
    case isFalse hstop =>
      have heof : s.eof = false := by simpa [eofStops_eq_eof] using hstop
      split
      case isTrue hpend => exact ⟨h, fun _ => byteBudget_lt_of_copy heof hpend⟩
      case isFalse =>
        obtain ⟨sym, t, tree, hsym, htree, -, hleft⟩ := decodeSymbol_good (s := { s with mstate := .idle }) (h hmode)
        rw [hsym]
        refine ⟨fun _ => ?_, fun _ => byteBudget_lt_of_bit heof ((bitsLeft_deliverSymbol sym _).trans hleft)⟩
        rw [deliverSymbol_tree]
        exact htree

/-! ### Payloads in a good tree -/

/-- No fault, and a good tree in compressed mode. -/
def Calm (s : State) : Prop := s.faulted = false ∧ TreeGood s

theorem byteIn_calm {s : State} (h : Calm s) :
    Ends (fun b t => Calm t ∧ (b ≠ none → byteBudget t < byteBudget s)) (fun _ _ => False) (byteIn s) := by
  have hgood := byteIn_good h.2
  obtain ⟨t, ht, ⟨b, hb⟩ | hb⟩ := byteIn_frame s <;> rw [hb] at hgood ⊢
  · exact ⟨⟨by rw [ht]; exact h.1, hgood.1⟩, hgood.2⟩
  · exact hgood

theorem need_calm {s : State} (h : Calm s) :
    Ends (fun _ t => Calm t ∧ byteBudget t < byteBudget s) (fun e t => e = .streamExhausted ∧ Calm t) (need s) :=
  ends_bind (ends_mono (byteIn_calm h) (fun _ _ ht => ht) fun _ _ ht => ht.elim) fun b _ ht => match b with
    | some _ => ⟨ht.1, ht.2 (Option.some_ne_none _)⟩
    | none => ⟨rfl, ht.1⟩

/-- A state in which `k` byte requests have been paid from the budget `B`. -/
def Paid (B k : Nat) (s : State) : Prop := Calm s ∧ byteBudget s + k ≤ B

theorem paid_refl {s : State} (h : Calm s) : Paid (byteBudget s) 0 s := ⟨h, le_refl _⟩

theorem payloadStable_paid (B lim : Nat) :
    PayloadStable lim (B + 1) (Paid B) fun _ e t => e = .streamExhausted ∧ Calm t where
  request k s hs := by
    refine ends_mono (need_calm hs.1) (fun _ t ht => ⟨ht.1, ?_⟩) fun _ _ ht => ht
    have := hs.2
    have := ht.2
    omega
  output _ _ _ hs _ := hs
  register _ _ _ _ _ hs := hs
  fragment _ _ _ _ hs := hs
  bound k s hk hs := by
    have := hs.2
    omega

theorem decodePayload_calm {m : BitVec 8} (hm : m.toNat ≤ 2) {target : Nat} (htarget : target ≤ MAX_TARGET) {s : State}
    (hs : Calm s) : Ends (fun _ => Calm) (fun e t => e = .streamExhausted ∧ Calm t) (decodePayload m target s) := by
  have hroom := (payloadStart_room htarget s).trans_le htarget
  have hstart : Calm (payloadStart target s) := hs
  have hstable := payloadStable_paid (byteBudget (payloadStart target s)) OUTBUF_SIZE
  have hpaid := paid_refl hstart
  obtain rfl | rfl | rfl := method_cases hm
  · exact ends_mono (method0_stable hstable (le_refl _) hpaid hroom) (fun _ _ ht => ht.1) fun _ _ ⟨_, _, ht⟩ => ht
  · exact ends_mono (method1_stable hstable (le_refl _) (fun _ _ _ ht => ht) hpaid (le_trans (Nat.le_add_left _ _) hroom))
      (fun _ _ ht => ht.1) fun _ _ ⟨_, _, ht⟩ => ht
  · exact ends_mono (method2_stable hstable (le_refl _) hpaid hroom (le_refl _)) (fun _ _ ⟨_, ht⟩ => ht.1)
      fun _ _ ⟨_, ht⟩ => ht

/-! ### Commands in a good tree -/

/-- How a command ends in a good tree. -/
def EndsCalm (s : State) : Prop := s.faulted = false ∧ s.err ≠ .treeInvariantViolation ∧ TreeGood s

theorem success_ne_violation : Err.success ≠ .treeInvariantViolation := by decide

theorem endsCalm_raiseErr {e : Err} {s : State} (he : e ≠ .treeInvariantViolation) (h : Calm s) :
    EndsCalm (raiseErr e s) := by
  rw [raiseErr_of_ne he]
  exact ⟨h.1, he, h.2⟩

theorem endsCalm_finishRead {x : Res (Option (BitVec 16))} (h : Ends (fun _ => Calm) (fun _ _ => False) x) :
    EndsCalm (finishRead x) := by
  cases x with
  | raise e t => exact absurd h id
  | ok v t =>
    cases v with
    | none => exact endsCalm_raiseErr (s := { t with data := 0 }) (by decide) h
    | some v => exact ⟨h.1, success_ne_violation, h.2⟩

theorem readByte_endsCalm {s : State} (h : Calm s) : EndsCalm (readByte s) :=
  endsCalm_finishRead (ends_bind (byteIn_calm h) fun _ _ ht => ht.1)

theorem readWordLe_endsCalm {s : State} (h : Calm s) : EndsCalm (readWordLe s) :=
  endsCalm_finishRead (ends_bind (byteIn_calm h) fun lo _ ht => match lo with
    | none => ht.1
    | some _ => ends_bind (byteIn_calm ht.1) fun hi _ hu => match hi with
      | none => hu.1
      | some _ => hu.1)

theorem decodeCommand_endsCalm (m : BitVec 8) {target : Nat} (htarget : target ≤ MAX_TARGET) {s : State} (h : Calm s) :
    EndsCalm (decodeCommand m target s) := by
  by_cases hm : m.toNat ≤ 2
  · have hp := decodePayload_calm hm htarget h
    unfold decodeCommand
    cases hd : decodePayload m target s with
    | ok a t => rw [hd] at hp; exact ⟨hp.1, success_ne_violation, hp.2⟩
    | raise e t =>
      rw [hd] at hp
      obtain ⟨rfl, ht⟩ := hp
      exact endsCalm_raiseErr (by decide) ht
  · rw [decodeCommand_unknown (Nat.lt_of_not_le hm)]
    exact endsCalm_raiseErr (by decide) h

theorem decodeLen_endsCalm (m : BitVec 8) (n : BitVec 16) {s : State} (h : Calm s) : EndsCalm (decodeLen m n s) := by
  have hclear : Calm { s with shortFill := false, outlen := 0 } := h
  by_cases hn : n.toNat ≤ MAX_TARGET
  · rw [decodeLen_of_le hn]
    exact decodeCommand_endsCalm m hn hclear
  · rw [decodeLen_of_lt (Nat.lt_of_not_le hn)]
    exact endsCalm_raiseErr (by decide) hclear

theorem decodeSector_endsCalm (m sc : BitVec 8) {s : State} (h : Calm s) : EndsCalm (decodeSector m sc s) := by
  have hclear : Calm { s with shortFill := false, outlen := 0 } := h
  by_cases hsc : sc.toNat ≤ 6
  · rw [decodeSector_of_le hsc]
    exact decodeCommand_endsCalm m (targetOfSizeCode_le hsc) hclear
  · rw [decodeSector_of_lt (Nat.lt_of_not_le hsc)]
    exact endsCalm_raiseErr (by decide) hclear

theorem accept_endsCalm {body : State → State} {s : State} (h : Calm s) (hbody : EndsCalm (body s)) :
    EndsCalm (accept body s) := by
  obtain ⟨-, he⟩ | ⟨-, hf, -⟩ | ⟨-, -, he⟩ := accept_cases body s
  · rw [he]
    exact endsCalm_raiseErr (by decide) h
  · simp [h.1] at hf
  · rw [he]
    exact hbody

/-- Settles O23: no byte request raises in a good tree, and its budget keeps the loop of method 2 within its bound. -/
theorem commandsNeverBreakTheTree : Obligations.CommandsNeverBreakTheTree := by
  intro i s hi hfault htree
  have h : Calm s := ⟨hfault, htree⟩
  cases i with
  | init c => exact ⟨initStream c s, rfl, rfl, success_ne_violation, fun _ => hufInit_treeInv⟩
  | readByte => exact ⟨_, rfl, accept_endsCalm h (readByte_endsCalm h)⟩
  | readWordLe => exact ⟨_, rfl, accept_endsCalm h (readWordLe_endsCalm h)⟩
  | decodeSector m sc => exact ⟨_, rfl, accept_endsCalm h (decodeSector_endsCalm m sc h)⟩
  | decodeLen m n => exact ⟨_, rfl, accept_endsCalm h (decodeLen_endsCalm m n h)⟩
  | _ => cases hi

end Sys2Proof.Proofs
end

section
/-! What payloads write: OUTBUF from where they begin up to their room, and nothing of the rest of the core but the
payload's own state; how a DECODE command ends. The statements PayloadTokensAnswer, DecodeFrame, DecodeOutcome and
SizeCodeIsATargetSize. -/

namespace Sys2Proof.Proofs

open Sys2Proof.Config Sys2Proof.Machine Sys2Proof.Safety Sys2Proof.Laws

/-! ### OUTBUF -/

/-- From `s` to `t` only OUTBUF's bytes from `s.w` up to `t.w`, no further than `lim`, may have changed. -/
structure Written (s : State) (lim : Nat) (t : State) : Prop where
  from_ : s.w.toNat ≤ t.w.toNat
  to_ : t.w.toNat ≤ lim
  wf : s.outbuf.wf 0 → t.outbuf.wf 0
  kept : s.outbuf.wf 0 → ∀ a, ¬ (s.w.toNat ≤ a ∧ a < t.w.toNat) → t.outRead a = s.outRead a

theorem written_refl {s : State} {lim : Nat} (hw : s.w.toNat ≤ lim) : Written s lim s :=
  ⟨le_refl _, hw, id, fun _ _ _ => rfl⟩

theorem written_of_same {s t u : State} {lim : Nat} (h : Written s lim t) (hw : u.w = t.w) (hout : u.outbuf = t.outbuf) :
    Written s lim u := by
  obtain ⟨hfrom, hto, hwf, hkept⟩ := h
  refine ⟨hw ▸ hfrom, hw ▸ hto, hout ▸ hwf, fun hs a ha => ?_⟩
  rw [hw] at ha
  rw [State.outRead, hout]
  exact hkept hs a ha

theorem written_emit {s t : State} {lim : Nat} (h : Written s lim t) (b : Byte) (hlim : lim ≤ OUTBUF_SIZE)
    (hw : t.w.toNat < lim) : Written s lim (emit b t) := by
  obtain ⟨hfrom, hto, hwf, hkept⟩ := h
  have hlt := hw.trans_le hlim
  have hnext := emit_w_toNat b hlt
  refine ⟨by omega, by omega, fun hs => emit_outbuf_wf b (hwf hs), fun hs a ha => ?_⟩
  rw [outRead_emit b (hwf hs) hlt, if_neg (by omega)]
  exact hkept hs a (by omega)

/-- A fact of OUTBUF, its index and fields no payload touches is kept by byte requests. -/
theorem need_ends_of_onlyDatapath {P : State → Prop} (h : ∀ s t, OnlyDatapath s t → P s → P t) {s : State} (hs : P s) :
    Ends (fun _ => P) (fun _ => P) (need s) :=
  need_ends (byteIn_ends_of_onlyDatapath h hs) fun _ ht => ht

theorem payloadStable_written (s : State) {lim : Nat} (hlim : lim ≤ OUTBUF_SIZE) :
    PayloadStable lim 0 (fun _ => Written s lim) fun _ _ => Written s lim where
  request _ _ ht := need_ends_of_onlyDatapath (P := Written s lim)
    (fun _ _ h hu => written_of_same hu (by rw [h]) (by rw [h])) ht
  output _ _ b ht hw := written_emit ht b hlim hw
  register _ _ _ _ _ ht := written_of_same ht rfl rfl
  fragment _ _ _ _ ht := written_of_same ht rfl rfl
  bound _ _ _ ht := ht

theorem method_written {s : State} (f : State → Res Unit) (hf : f ∈ [method0, method1, method2])
    (hroom : s.w.toNat + s.tgt.toNat ≤ OUTBUF_SIZE) :
    Ends (fun _ => Written s (s.w.toNat + s.tgt.toNat)) (fun _ => Written s (s.w.toNat + s.tgt.toNat)) (f s) := by
  have hstable := payloadStable_written s hroom
  have hstart := written_refl (Nat.le_add_right s.w.toNat s.tgt.toNat)
  simp only [List.mem_cons, List.not_mem_nil, or_false] at hf
  obtain rfl | rfl | rfl := hf
  · exact ends_mono (method0_stable hstable hroom (k := 0) hstart (le_refl _)) (fun _ _ ht => ht) fun _ _ ⟨_, _, ht⟩ => ht
  · exact ends_mono (method1_stable hstable hroom (fun _ _ _ ht => written_of_same ht rfl rfl) (k := 0) hstart
      (Nat.le_add_left _ _)) (fun _ _ ht => ht) fun _ _ ⟨_, _, ht⟩ => ht
  · exact ends_mono (method2_stable hstable hroom (k := 0) hstart (le_refl _) (Nat.zero_le _)) (fun _ _ ⟨_, ht⟩ => ht)
      fun _ _ ⟨_, ht⟩ => ht

theorem block_written {s : State} (f : State → Res Unit) (bt : BitVec 8) (hf : f ∈ [blkLiteral, blkFragment bt])
    (hroom : s.w.toNat + s.remaining.toNat ≤ OUTBUF_SIZE) :
    Ends (fun _ => Written s (s.w.toNat + s.remaining.toNat)) (fun _ => Written s (s.w.toNat + s.remaining.toNat))
      (f s) := by
  have hstable := payloadStable_written s hroom
  have hstart := written_refl (Nat.le_add_right s.w.toNat s.remaining.toNat)
  simp only [List.mem_cons, List.not_mem_nil, or_false] at hf
  obtain rfl | rfl := hf
  · exact ends_mono (blkLiteral_stable hstable hroom (k := 0) hstart (le_refl _)) (fun _ _ ⟨⟨_, _, ht⟩, _⟩ => ht)
      fun _ _ ⟨_, ht⟩ => ht
  · exact ends_mono (blkFragment_stable hstable hroom bt (k := 0) hstart (le_refl _)) (fun _ _ ⟨⟨_, _, ht⟩, _⟩ => ht)
      fun _ _ ⟨_, ht⟩ => ht

/-! ### The payload tokens -/

theorem onlyPayload_raised {s t : State} (h : OnlyPayload s t) (err : Err) (faulted : Bool) :
    OnlyPayload { s with err := err, faulted := faulted } { t with err := err, faulted := faulted } := by
  unfold OnlyPayload
  rw [h]

theorem settle_onlyPayload {s : State} {x : Res Unit} (h : PayloadEnds s x) :
    OnlyPayload { s with err := x.settle.err, faulted := x.settle.faulted } x.settle := by
  obtain ⟨t, ht, ⟨a, rfl⟩ | rfl | rfl⟩ := h
  · exact onlyPayload_raised ht t.err t.faulted
  · exact onlyPayload_raised ht _ _
  · exact onlyPayload_raised ht _ _

theorem written_settle {s : State} {lim : Nat} {x : Res Unit}
    (h : Ends (fun _ => Written s lim) (fun _ => Written s lim) x) : Written s lim x.settle := by
  cases x with
  | ok a t => exact h
  | raise e t => exact written_of_same h rfl rfl

/-- What a payload token with room in OUTBUF leaves. -/
theorem runPayload_answers {room : Nat} {f : State → Res Unit} {s : State} (hroom : s.w.toNat + room ≤ OUTBUF_SIZE)
    (hwf : s.outbuf.wf 0)
    (hf : PayloadEnds s (f s))
    (hw : Ends (fun _ => Written s (s.w.toNat + room)) (fun _ => Written s (s.w.toNat + room)) (f s)) :
    ∃ t, runPayload room f s = .next t ∧ OnlyPayload { s with err := t.err, faulted := t.faulted } t ∧
      ∀ a, ¬ (s.w.toNat ≤ a ∧ a < s.w.toNat + room) → t.outRead a = s.outRead a := by
  have hwritten := written_settle hw
  refine ⟨(f s).settle, if_pos hroom, settle_onlyPayload hf, fun a ha => hwritten.kept hwf a fun hin => ha ?_⟩
  exact ⟨hin.1, hin.2.trans_le hwritten.to_⟩

/-- Settles O39: a token with room runs its payload, which writes only below its room. -/
theorem payloadTokensAnswer : Obligations.PayloadTokensAnswer := by
  intro s bt hwf
  refine ⟨fun hroom i hi => ?_, fun hroom i hi => ?_⟩ <;> simp only [List.mem_cons, List.not_mem_nil, or_false] at hi
  · obtain rfl | rfl | rfl := hi
    · exact runPayload_answers hroom hwf (method0_payloadEnds s) (method_written method0 (by simp) hroom)
    · exact runPayload_answers hroom hwf (method1_payloadEnds s) (method_written method1 (by simp) hroom)
    · exact runPayload_answers hroom hwf (method2_payloadEnds s) (method_written method2 (by simp) hroom)
  · obtain rfl | rfl := hi
    · exact runPayload_answers hroom hwf (blkLiteral_payloadEnds s) (block_written blkLiteral bt (by simp) hroom)
    · exact runPayload_answers hroom hwf (blkFragment_payloadEnds bt s) (block_written (blkFragment bt) bt (by simp) hroom)

/-! ### The DECODE commands -/

/-- `t` differs from `s` at most where a DECODE command may change it, and in no byte of OUTBUF from `target` on. -/
def OnlyDecode (target : Nat) (s t : State) : Prop :=
  OnlyPayload { s with outlen := t.outlen, shortFill := t.shortFill, err := t.err, faulted := t.faulted } t ∧
    ∀ a, target ≤ a → t.outRead a = s.outRead a

/-- The results and the fault flag may change beside what a payload changes. -/
theorem onlyDecode_of_onlyPayload {target : Nat} {s t : State} (h : OnlyPayload s t)
    (hout : ∀ a, target ≤ a → t.outRead a = s.outRead a) (outlen : BitVec 14) (shortFill : Bool) (err : Err)
    (faulted : Bool) :
    OnlyDecode target s { t with outlen := outlen, shortFill := shortFill, err := err, faulted := faulted } := by
  refine ⟨?_, hout⟩
  unfold OnlyPayload
  rw [h]

theorem outRead_payloadStart (target : Nat) (s : State) (a : Nat) :
    (payloadStart target s).outRead a = if a < target then 0 else s.outRead a := read_clearBelow s.outbuf target a

theorem decodePayload_written {m : BitVec 8} (hm : m.toNat ≤ 2) {target : Nat} (htarget : target ≤ MAX_TARGET) (s : State) :
    Ends (fun _ => Written (payloadStart target s) target) (fun _ => Written (payloadStart target s) target)
      (decodePayload m target s) := by
  have hroom := payloadStart_room htarget s
  have hmethod := method_written (s := payloadStart target s)
  rw [hroom] at hmethod
  obtain rfl | rfl | rfl := method_cases hm
  · exact hmethod method0 (by simp) htarget
  · exact hmethod method1 (by simp) htarget
  · exact hmethod method2 (by simp) htarget

/-- A payload's writes end at its target. -/
theorem Written.beyond {target : Nat} {s t : State} (h : Written (payloadStart target s) target t)
    (hwf : s.outbuf.wf 0) {a : Nat}
    (ha : target ≤ a) : t.outRead a = s.outRead a := by
  rw [h.kept (clearBelow_wf target hwf) a fun hin => absurd (hin.2.trans_le h.to_) (Nat.not_lt.mpr ha), outRead_payloadStart,
    if_neg (Nat.not_lt.mpr ha)]

theorem decodeCommand_onlyDecode (m : BitVec 8) {target : Nat} (htarget : target ≤ MAX_TARGET) {s : State}
    (hwf : s.outbuf.wf 0) : OnlyDecode target s (decodeCommand m target s) := by
  obtain ⟨-, hp⟩ | ⟨hm, t, ht, hp⟩ := decodePayload_cases m target s
  · rw [decodeCommand, hp]
    exact onlyDecode_of_onlyPayload (onlyPayload_refl s) (fun _ _ => rfl) s.outlen s.shortFill _ _
  · have hwritten := decodePayload_written hm htarget s
    have hframe := onlyDecode_of_onlyPayload (target := target) ht
    obtain ⟨a, hp⟩ | hp | hp := hp <;> rw [hp] at hwritten <;> rw [decodeCommand, hp]
    · exact hframe (fun _ => hwritten.beyond hwf) _ _ _ t.faulted
    · exact hframe (fun _ => hwritten.beyond hwf) t.outlen t.shortFill _ _
    · exact hframe (fun _ => hwritten.beyond hwf) t.outlen t.shortFill _ _

/-- Clearing the results first makes no difference to the frame. -/
theorem onlyDecode_of_cleared {target : Nat} {s t : State}
    (h : OnlyDecode target { s with shortFill := false, outlen := 0 } t) : OnlyDecode target s t := h

theorem onlyDecode_raised (target : Nat) (s : State) (e : Err) :
    OnlyDecode target s (raiseErr e { s with shortFill := false, outlen := 0 }) :=
  onlyDecode_of_onlyPayload (onlyPayload_refl s) (fun _ _ => rfl) 0 false e _

theorem decodeLen_onlyDecode (m : BitVec 8) (n : BitVec 16) {s : State} (hwf : s.outbuf.wf 0) :
    OnlyDecode n.toNat s (decodeLen m n s) := by
  by_cases hn : n.toNat ≤ MAX_TARGET
  · rw [decodeLen_of_le hn]
    exact onlyDecode_of_cleared (decodeCommand_onlyDecode m hn hwf)
  · rw [decodeLen_of_lt (Nat.lt_of_not_le hn)]
    exact onlyDecode_raised _ s _

theorem decodeSector_onlyDecode (m sc : BitVec 8) {s : State} (hwf : s.outbuf.wf 0) :
    OnlyDecode (128 * 2 ^ sc.toNat) s (decodeSector m sc s) := by
  by_cases hsc : sc.toNat ≤ 6
  · rw [decodeSector_of_le hsc, ← targetOfSizeCode_eq]
    exact onlyDecode_of_cleared (decodeCommand_onlyDecode m (targetOfSizeCode_le hsc) hwf)
  · rw [decodeSector_of_lt (Nat.lt_of_not_le hsc)]
    exact onlyDecode_raised _ s _

theorem accept_onlyDecode {target : Nat} {body : State → State} {s : State} (h : OnlyDecode target s (body s)) :
    OnlyDecode target s (accept body s) := by
  obtain ⟨-, he⟩ | ⟨-, -, he⟩ | ⟨-, -, he⟩ := accept_cases body s <;> rw [he]
  · exact onlyDecode_of_onlyPayload (onlyPayload_refl s) (fun _ _ => rfl) s.outlen s.shortFill _ _
  · exact onlyDecode_of_onlyPayload (onlyPayload_refl s) (fun _ _ => rfl) s.outlen s.shortFill _ s.faulted
  · exact h

/-- Settles O53: the results are cleared, the payload writes below its target, and the end sets the results. -/
theorem decodeFrame : Obligations.DecodeFrame := by
  intro m sc n s t hwf
  refine ⟨fun ht => ?_, fun ht => ?_⟩ <;> cases ht
  · exact accept_onlyDecode (decodeLen_onlyDecode m n hwf)
  · exact accept_onlyDecode (decodeSector_onlyDecode m sc hwf)

/-! ### How a DECODE command ends -/

/-- The two ends of R236. -/
def DecodeEnds (m : BitVec 8) (target : Nat) (t : State) : Prop :=
  (t.err = .success ∧ t.outlen.toNat = target ∧ (t.shortFill = true → m = 1)) ∨
    (t.err ≠ .success ∧ t.outlen = 0 ∧ t.shortFill = false)

theorem payloadStable_notShort (lim : Nat) :
    PayloadStable lim 0 (fun _ t => t.short = false) fun _ _ t => t.short = false where
  request _ _ ht := need_ends_of_onlyDatapath (P := fun t => t.short = false) (fun _ _ h hu => by rw [h]; exact hu) ht
  output _ _ _ ht _ := ht
  register _ _ _ _ _ ht := ht
  fragment _ _ _ _ ht := ht
  bound _ _ _ ht := ht

/-- Only method 1 can leave its target short. -/
theorem decodePayload_short {m : BitVec 8} (hm : m.toNat ≤ 2) (hm1 : m ≠ 1) {target : Nat} (htarget : target ≤ MAX_TARGET)
    (s : State) : Ends (fun _ t => t.short = false) (fun _ t => t.short = false) (decodePayload m target s) := by
  have hroom := payloadStart_room htarget s
  have hstable := payloadStable_notShort target
  obtain rfl | rfl | rfl := method_cases hm
  · exact ends_mono (method0_stable hstable htarget (k := 0) rfl hroom.le) (fun _ _ ht => ht) fun _ _ ⟨_, _, ht⟩ => ht
  · exact absurd rfl hm1
  · exact ends_mono (method2_stable hstable htarget (k := 0) rfl hroom.le (Nat.zero_le _)) (fun _ _ ⟨_, ht⟩ => ht)
      fun _ _ ⟨_, ht⟩ => ht

theorem decodeEnds_raiseErr (m : BitVec 8) (target : Nat) {e : Err} {t : State} (he : e ≠ .success) (hlen : t.outlen = 0)
    (hshort : t.shortFill = false) : DecodeEnds m target (raiseErr e t) := .inr ⟨he, hlen, hshort⟩

theorem decodeCommand_ends (m : BitVec 8) {target : Nat} (htarget : target ≤ MAX_TARGET) {s : State} (hlen : s.outlen = 0)
    (hshort : s.shortFill = false) : DecodeEnds m target (decodeCommand m target s) := by
  obtain ⟨-, hp⟩ | ⟨hm, t, ht, hp⟩ := decodePayload_cases m target s
  · rw [decodeCommand, hp]
    exact decodeEnds_raiseErr m target (by decide) hlen hshort
  · have htlen : t.outlen = 0 := by rw [ht]; exact hlen
    have htshort : t.shortFill = false := by rw [ht]; exact hshort
    obtain ⟨a, hp⟩ | hp | hp := hp
    · have hflag := fun hm1 => decodePayload_short hm hm1 htarget s
      rw [hp] at hflag
      rw [decodeCommand, hp]
      refine .inl ⟨rfl, Nat.mod_eq_of_lt (by simp only [MAX_TARGET] at htarget; omega), fun hs => ?_⟩
      by_contra hm1
      exact absurd (hs.symm.trans (hflag hm1)) (by decide)
    · rw [decodeCommand, hp]
      exact decodeEnds_raiseErr m target (by decide) htlen htshort
    · rw [decodeCommand, hp]
      exact decodeEnds_raiseErr m target (by decide) htlen htshort

theorem decodeLen_ends (m : BitVec 8) (n : BitVec 16) (s : State) : DecodeEnds m n.toNat (decodeLen m n s) := by
  by_cases hn : n.toNat ≤ MAX_TARGET
  · rw [decodeLen_of_le hn]
    exact decodeCommand_ends m hn rfl rfl
  · rw [decodeLen_of_lt (Nat.lt_of_not_le hn)]
    exact decodeEnds_raiseErr m _ (by decide) rfl rfl

theorem decodeSector_ends (m sc : BitVec 8) (s : State) : DecodeEnds m (128 * 2 ^ sc.toNat) (decodeSector m sc s) := by
  by_cases hsc : sc.toNat ≤ 6
  · rw [decodeSector_of_le hsc, ← targetOfSizeCode_eq]
    exact decodeCommand_ends m (targetOfSizeCode_le hsc) rfl rfl
  · rw [decodeSector_of_lt (Nat.lt_of_not_le hsc)]
    exact decodeEnds_raiseErr m _ (by decide) rfl rfl

/-- Settles O52: the results are cleared before the payload, no raise sets them, and only method 1 sets the flag. -/
theorem decodeOutcome : Obligations.DecodeOutcome := by
  intro m sc n s hs
  exact ⟨⟨_, exec_decodeLen hs m n, decodeLen_ends m n s⟩, ⟨_, exec_decodeSector hs m sc, decodeSector_ends m sc s⟩⟩

/-- Settles O48: both commands run the same payload on the same target size. -/
theorem sizeCodeIsATargetSize : Obligations.SizeCodeIsATargetSize := by
  intro m sc s hsc
  have hle := targetOfSizeCode_le hsc
  have hsize : (BitVec.ofNat 16 (128 <<< sc.toNat)).toNat = targetOfSizeCode sc :=
    Nat.mod_eq_of_lt (Nat.lt_of_le_of_lt hle (by decide))
  have hbody : decodeSector m sc = decodeLen m (BitVec.ofNat 16 (128 <<< sc.toNat)) := funext fun t => by
    rw [decodeSector_of_le hsc, decodeLen_of_le (hsize.trans_le hle), hsize]
  exact ⟨accept (decodeSector m sc) s, rfl, by rw [hbody]; rfl⟩

end Sys2Proof.Proofs
end

section
/-! Methods 0 and 1 byte by byte (44_sector_payload.md R201-R203), alone and in a DECODE command (45_host_commands.md
R236). The statements RawTokenCopiesItsBytes, Repeat2TokenRepeatsItsPair, DecodeRaw and ExhaustedRawDecode. -/

namespace Sys2Proof.Proofs

open Sys2Proof.Config Sys2Proof.Machine Sys2Proof.Safety Sys2Proof.Laws

/-! ### Method 0 -/

/-- What stands in OUTBUF when byte requests have led from `s` to `t` and `k` bytes have been emitted. -/
theorem emitAll_effect {s t u : State} {bs : List Byte} {k : Nat} (hst : OnlyDatapath s t) (hwf : s.outbuf.wf 0)
    (hlen : bs.length = k) (hroom : s.w.toNat + k ≤ OUTBUF_SIZE) (hu : u = emitAll bs t) :
    u = { t with outbuf := u.outbuf, w := u.w } ∧ u.w.toNat = s.w.toNat + k ∧
    ∀ a, u.outRead a = if s.w.toNat ≤ a ∧ a < s.w.toNat + k then bs.getD (a - s.w.toNat) 0 else s.outRead a :=
  emitAll_setCnt_effect (v := t.cnt) hst hwf hlen hroom hu

theorem exec_raw {s : State} (h : s.w.toNat + s.tgt.toNat ≤ OUTBUF_SIZE) : exec .raw s = .next (method0 s).settle :=
  if_pos h

/-- Settles O34: the copy emits the bytes that arrive, and ends where one is missing. -/
theorem rawTokenCopiesItsBytes : Obligations.RawTokenCopiesItsBytes := by
  intro s t bs hwf hroom
  rw [exec_raw hroom]
  refine ⟨fun hbs => ?_, fun k s1 e hk hbs hmiss => ?_⟩
  · have heffect := emitAll_effect (onlyDatapath_of_reads_ok hbs) hwf (length_of_reads_ok hbs) hroom rfl
    rw [method0, copyThrough_of_reads hbs]
    exact ⟨_, rfl, heffect⟩
  · have hst := onlyDatapath_trans (onlyDatapath_of_reads_ok hbs) (onlyDatapath_of_need_raise hmiss)
    obtain ⟨hframe, hw, hread⟩ := emitAll_effect hst hwf (length_of_reads_ok hbs) (by omega) rfl
    rw [method0, copyThrough_raises hk hbs hmiss]
    refine ⟨_, rfl, ?_, hw, hread⟩
    generalize emitAll bs t = u at hframe ⊢
    rw [hframe]
    rfl

/-! ### Method 0 in a DECODE command -/

theorem decodeStart_tgt {n : Nat} (h : n ≤ MAX_TARGET) (s : State) : (decodeStart n s).tgt.toNat = n :=
  payloadStart_tgt h s

/-- A DECODE of method 0 is a copy of its target size. -/
theorem decodePayload_raw {n : Nat} (h : n ≤ MAX_TARGET) (s : State) :
    decodePayload 0 n { s with shortFill := false, outlen := 0 } = copyThrough n (decodeStart n s) := by
  have hmethod : decodePayload 0 n { s with shortFill := false, outlen := 0 } =
      copyThrough (decodeStart n s).tgt.toNat (decodeStart n s) := rfl
  rw [hmethod, decodeStart_tgt h]

theorem exec_decodeLen_of_ok {m : BitVec 8} {n : BitVec 16} {s u : State} (hs : Ready s) (hn : n.toNat ≤ MAX_TARGET)
    (h : decodePayload m n.toNat { s with shortFill := false, outlen := 0 } = .ok () u) :
    exec (.decodeLen m n) s =
      .next { u with shortFill := u.short, outlen := BitVec.ofNat 14 n.toNat, err := .success } := by
  rw [exec_decodeLen hs, decodeLen_of_le hn, decodeCommand, h]

theorem exec_decodeLen_of_raise {m : BitVec 8} {n : BitVec 16} {s u : State} {e : Err} (hs : Ready s)
    (hn : n.toNat ≤ MAX_TARGET) (h : decodePayload m n.toNat { s with shortFill := false, outlen := 0 } = .raise e u) :
    exec (.decodeLen m n) s = .next (raiseErr e u) := by
  rw [exec_decodeLen hs, decodeLen_of_le hn, decodeCommand, h]

/-- What a copy into the cleared target leaves after `k` of its `n` bytes. -/
theorem emitAll_decodeStart_effect {n k : Nat} {t u : State} {bs : List Byte} (hwf : t.outbuf.wf 0) (hn : n ≤ MAX_TARGET)
    (hlen : bs.length = k) (hk : k ≤ n) (hu : u = emitAll bs (decodeStart n t)) :
    u = { decodeStart n t with outbuf := u.outbuf, w := u.w } ∧ u.w.toNat = k ∧
    ∀ a, u.outRead a = if a < n then (if a < k then bs.getD a 0 else 0) else t.outRead a := by
  have hw0 : (decodeStart n t).w.toNat = 0 := rfl
  obtain ⟨hframe, hw, hread⟩ := emitAll_effect (onlyDatapath_refl _) (decodeStart_outbuf_wf n hwf) hlen
    (by rw [hw0]; exact (Nat.zero_add k).trans_le (hk.trans hn)) hu
  rw [hw0, Nat.zero_add] at hw hread
  refine ⟨hframe, hw, fun a => ?_⟩
  rw [hread, outRead_decodeStart, Nat.sub_zero]
  by_cases ha : a < k
  · rw [if_pos ⟨Nat.zero_le a, ha⟩, if_pos (ha.trans_le hk), if_pos ha]
  · rw [if_neg fun h => ha h.2, if_neg ha]

/-- Settles O49: the payload bytes arrive as they would outside the command, and fill the cleared target. -/
theorem decodeRaw : Obligations.DecodeRaw := by
  intro s t n bs hs hwf hn hbs
  have hst := onlyDatapath_of_reads_ok hbs
  have htwf : t.outbuf.wf 0 := by rw [hst]; exact hwf
  have htread : t.outRead = s.outRead := by rw [hst]; rfl
  have hcopy := copyThrough_of_reads (reads_ok_commutes (decodeStart_offDatapath n.toNat) hbs)
  rw [← decodePayload_raw hn] at hcopy
  have heffect := emitAll_decodeStart_effect htwf hn (length_of_reads_ok hbs) (le_refl _) rfl
  generalize emitAll bs (decodeStart n.toNat t) = u at hcopy heffect
  rw [htread] at heffect
  obtain ⟨hframe, hw, hread⟩ := heffect
  have houtlen : (BitVec.ofNat 14 n.toNat).toNat = n.toNat := decodeStart_tgt hn s
  have hw' : u.w = BitVec.ofNat 14 n.toNat := BitVec.eq_of_toNat_eq (hw.trans houtlen.symm)
  refine ⟨_, exec_decodeLen_of_ok hs hn hcopy, houtlen, ?_, fun a => ?_⟩
  · simp only [hw']
    rw [hframe]
    rfl
  · refine (hread a).trans ?_
    split <;> rfl

/-! ### The end of a raw stream -/

/-- The next `k` bytes of the source. -/
def sourceSlice (s : State) (k : Nat) : List Byte := (List.range k).map fun j => (s.src[s.spos + j]?).getD 0

theorem sourceSlice_succ (s : State) (k : Nat) :
    sourceSlice s (k + 1) = (s.src[s.spos]?).getD 0 :: sourceSlice { s with spos := s.spos + 1 } k := by
  simp only [sourceSlice, List.range_succ_eq_map, List.map_cons, List.map_map, Nat.add_zero]
  refine congrArg _ (List.map_congr_left fun j _ => ?_)
  simp only [Function.comp_apply]
  rw [show s.spos + j.succ = s.spos + 1 + j by omega]

theorem need_raw_byte {s : State} {b : Byte} (hmode : s.compressed = false) (heof : s.eof = false)
    (hb : s.src[s.spos]? = some b) : need s = .ok b { s with spos := s.spos + 1 } := by
  rw [need, byteIn_raw_byte hmode heof hb]
  rfl

/-- In raw mode the payload's bytes are the source's. -/
theorem reads_raw {k : Nat} {s : State} (hmode : s.compressed = false) (heof : s.eof = false)
    (hk : s.spos + k ≤ s.src.size) : reads k s = .ok (sourceSlice s k) { s with spos := s.spos + k } := by
  induction k generalizing s with
  | zero => rfl
  | succ k ih =>
    have hlt : s.spos < s.src.size := by omega
    have hb : s.src[s.spos]? = some s.src[s.spos] := Array.getElem?_eq_getElem hlt
    have hrest := ih (s := { s with spos := s.spos + 1 }) hmode heof (show s.spos + 1 + k ≤ s.src.size by omega)
    rw [reads, need_raw_byte hmode heof hb, sourceSlice_succ, hb]
    simp only [Res.bind, hrest, Option.getD_some]
    rw [show s.spos + 1 + k = s.spos + (k + 1) by omega]

/-- Settles O50: the bytes that are left arrive, and the next request ends the stream. -/
theorem exhaustedRawDecode : Obligations.ExhaustedRawDecode := by
  intro s n hs hmode heof hwf hn hpos hshort
  have hbs := reads_raw hmode heof (k := s.src.size - s.spos) (by omega)
  rw [show s.spos + (s.src.size - s.spos) = s.src.size by omega] at hbs
  have hmiss : need { s with spos := s.src.size } = .raise .streamExhausted { s with spos := s.src.size, eof := true } :=
    (needRaisesStreamExhausted { s with spos := s.src.size } s).2.2.2.2 hmode heof
      (Array.getElem?_eq_none_iff.mpr (le_refl _))
  have hstart := decodeStart_offDatapath n.toNat
  have hcopy := copyThrough_raises hshort (reads_ok_commutes hstart hbs) (need_raise_commutes hstart hmiss)
  rw [← decodePayload_raw hn] at hcopy
  obtain ⟨hframe, -, hread⟩ := emitAll_decodeStart_effect (t := { s with spos := s.src.size, eof := true })
    (bs := sourceSlice s (s.src.size - s.spos)) hwf hn (by simp [sourceSlice]) hshort.le rfl
  generalize emitAll _ _ = u at hcopy hframe hread
  refine ⟨_, exec_decodeLen_of_raise hs hn hcopy, rfl, ?_, ?_, ?_, ?_, fun a => (hread a).trans ?_⟩
  · rw [hframe]; rfl
  · rw [hframe]; rfl
  · rw [hframe]; rfl
  · rw [hframe]; rfl
  · split
    case isFalse => rfl
    case isTrue =>
      by_cases ha : a < s.src.size - s.spos
      · rw [if_pos ha]
        simp [sourceSlice, List.getD_eq_getElem?_getD, ha]
      · have hnone : s.src[s.spos + a]? = none := Array.getElem?_eq_none_iff.mpr (by omega)
        rw [if_neg ha, hnone]
        rfl

/-! ### Method 1 -/

theorem exec_repeat2 {s : State} (h : s.w.toNat + s.tgt.toNat ≤ OUTBUF_SIZE) :
    exec .repeat2 s = .next (method1 s).settle := if_pos h

/-- A run that raises does so at its first byte or in the rest. -/
theorem reads_succ_raise {n : Nat} {s t : State} {e : Err} (h : reads (n + 1) s = .raise e t) :
    need s = .raise e t ∨ ∃ b s1, need s = .ok b s1 ∧ reads n s1 = .raise e t := by
  unfold reads at h
  cases hn : need s with
  | raise e' s1 => rw [hn] at h; cases h; exact .inl rfl
  | ok b s1 =>
    rw [hn] at h
    refine .inr ⟨b, s1, rfl, ?_⟩
    cases hr : reads n s1 with
    | ok bs s2 => simp only [Res.bind, hr] at h; cases h
    | raise e' s2 => simp only [Res.bind, hr] at h; cases h; rfl

/-- Method 1 whose record does not arrive ends before it writes a byte (R202). -/
theorem method1_of_raise {s t : State} {e : Err} (h : reads 4 s = .raise e t) :
    ∃ v, method1 s = .raise e (setCnt v t) := by
  obtain h1 | ⟨lo, s1, h1, h⟩ := reads_succ_raise h
  · exact ⟨t.cnt, by rw [method1, h1]; rfl⟩
  obtain h2 | ⟨hi, s2, h2, h⟩ := reads_succ_raise h
  · exact ⟨t.cnt, by simp only [method1, h1, h2, Res.bind]; rfl⟩
  have hcnt := setCnt_offDatapath (wordLe lo hi)
  obtain h3 | ⟨b1, s3, h3, h⟩ := reads_succ_raise h
  · have h3' : need { s2 with cnt := wordLe lo hi } = .raise e (setCnt (wordLe lo hi) t) := need_raise_commutes hcnt h3
    exact ⟨wordLe lo hi, by simp only [method1, h1, h2, h3', Res.bind]⟩
  have h3' : need { s2 with cnt := wordLe lo hi } = .ok b1 (setCnt (wordLe lo hi) s3) := need_ok_commutes hcnt h3
  obtain h4 | ⟨b2, s4, h4, h⟩ := reads_succ_raise h
  · exact ⟨wordLe lo hi, by simp only [method1, h1, h2, h3', need_raise_commutes hcnt h4, Res.bind]⟩
  · cases h

theorem onlyDatapath_of_reads_raise {n : Nat} {s t : State} {e : Err} (h : reads n s = .raise e t) :
    OnlyDatapath s t := by
  induction n generalizing s with
  | zero => cases h
  | succ n ih =>
    obtain hn | ⟨b, s1, hn, hr⟩ := reads_succ_raise h
    · exact onlyDatapath_of_need_raise hn
    · exact onlyDatapath_trans (onlyDatapath_of_need_ok hn) (ih hr)

/-- Settles O35: the record is read before anything is written, and the loop repeats its pair. -/
theorem repeat2TokenRepeatsItsPair : Obligations.Repeat2TokenRepeatsItsPair := by
  intro s t lo hi b1 b2 n e hwf hroom hn
  rw [exec_repeat2 hroom]
  refine ⟨fun hrec => ?_, fun hrec => ?_⟩
  · have hst := onlyDatapath_of_reads_ok hrec
    have hv : (wordLe lo hi).toNat = hi.toNat * 256 + lo.toNat := wordLe_toNat lo hi
    have hw0 : (setCnt (wordLe lo hi) t).w = s.w := by rw [hst]; rfl
    have htgt : (setCnt (wordLe lo hi) t).tgt = s.tgt := by rw [hst]; rfl
    have hout : (setCnt (wordLe lo hi) t).outbuf = s.outbuf := by rw [hst]; rfl
    have hread0 : (setCnt (wordLe lo hi) t).outRead = s.outRead := by unfold State.outRead; rw [hout]
    have heffect := repeatPair_effect (b1 := b1) (b2 := b2) (n := (wordLe lo hi).toNat) (m := n)
      (s := setCnt (wordLe lo hi) t) (hout ▸ hwf) (by rw [hw0]; omega) (by rw [htgt]; omega) (by rw [hv, htgt, hw0, hn]) rfl
    have hmethod := method1_of_reads hrec rfl
    rw [hw0, hread0] at heffect
    generalize repeatPair b1 b2 (wordLe lo hi).toNat (setCnt (wordLe lo hi) t) = u at heffect hmethod
    obtain ⟨hframe, hw, hread⟩ := heffect
    rw [hmethod]
    refine ⟨_, rfl, ?_, ?_, hw, ?_, hread⟩
    · rw [hframe]; rfl
    · rw [hframe]; exact hv
    · have hutgt : u.tgt = s.tgt := by rw [hframe]; exact htgt
      show u.shortOf = _
      rw [State.shortOf, hw, hutgt]
  · have hst := onlyDatapath_of_reads_raise hrec
    obtain ⟨v, hmethod⟩ := method1_of_raise hrec
    rw [hmethod]
    exact ⟨_, rfl, rfl, by rw [hst]; rfl, by rw [hst]; rfl⟩

end Sys2Proof.Proofs
end

section
/-! A fragment block (44_sector_payload.md R206): the fragment read, and its copies. The statement
BlkFragmentTokenCopiesItsFragment. -/

namespace Sys2Proof.Proofs

open Sys2Proof.Config Sys2Proof.Machine Sys2Proof.Safety Sys2Proof.Laws

/-! ### Reading the fragment -/

/-- Stores bytes in FRAG from index `j` on. -/
def fillFrag : List Byte → Nat → State → State
  | [], _, s => s
  | b :: bs, j, s => fillFrag bs (j + 1) (s.fragWrite j b)

theorem fragWrite_offDatapath (j : Nat) (b : Byte) : OffDatapath fun s => s.fragWrite j b := by
  intro s t h
  rw [h]
  rfl

theorem fillFrag_frame (bs : List Byte) (j : Nat) (s : State) :
    fillFrag bs j s = { s with frag := (fillFrag bs j s).frag } := by
  induction bs generalizing j s with
  | nil => rfl
  | cons b bs ih => exact ih (j + 1) (s.fragWrite j b)

/-- A fragment whose bytes all arrive is stored. -/
theorem readFragment_of_reads {n : Nat} (j : Nat) {s t : State} {bs : List (BitVec 8)} (h : reads n s = .ok bs t) :
    readFragment n j s = .ok () (fillFrag bs j t) := by
  induction n generalizing j s bs t with
  | zero => cases h; rfl
  | succ n ih =>
    obtain ⟨b, bs', s1, rfl, hn, hr⟩ := reads_succ_ok h
    rw [readFragment, hn]
    exact ih (j + 1) (reads_ok_commutes (fragWrite_offDatapath j b) hr)

/-- A fragment with a byte missing ends there, with FRAG alone touched beside the requests. -/
theorem readFragment_of_raise {n : Nat} (j : Nat) {s t : State} {e : Err} (h : reads n s = .raise e t) :
    ∃ frag, readFragment n j s = .raise e { t with frag := frag } := by
  induction n generalizing j s t with
  | zero => cases h
  | succ n ih =>
    obtain hn | ⟨b, s1, hn, hr⟩ := reads_succ_raise h
    · exact ⟨t.frag, by rw [readFragment, hn]⟩
    · have hr' : reads n (s1.fragWrite j b) = .raise e (t.fragWrite j b) := by
        rw [reads_commutes (fragWrite_offDatapath j b), hr, mapState_raise]
      obtain ⟨frag, hfrag⟩ := ih (j + 1) hr'
      exact ⟨frag, by rw [readFragment, hn]; exact hfrag⟩

theorem fragRead_fragWrite {s : State} (hwf : s.frag.wf 0) (j : Nat) (b : Byte) (k : Nat) :
    (s.fragWrite j b).fragRead k = if j = k ∧ k < FRAG_MAX then b else s.fragRead k := by
  unfold State.fragWrite State.fragRead
  by_cases hj : j < FRAG_MAX
  · simp only [if_pos hj, read_write _ _ _ hwf]
    by_cases hjk : j = k
    · rw [if_pos hjk, if_pos ⟨hjk, hjk ▸ hj⟩]
    · rw [if_neg hjk, if_neg fun h => hjk h.1]
  · simp only [if_neg hj]
    rw [if_neg fun h : j = k ∧ k < FRAG_MAX => hj (h.1 ▸ h.2)]

theorem fragWrite_frag_wf {s : State} (hwf : s.frag.wf 0) (j : Nat) (b : Byte) : (s.fragWrite j b).frag.wf 0 := by
  unfold State.fragWrite
  split
  · exact write_wf j b hwf
  · exact hwf

/-- FRAG holds the stored bytes, up to its end. -/
theorem fragRead_fillFrag {bs : List Byte} {j : Nat} {s : State} (hwf : s.frag.wf 0) (k : Nat) :
    (fillFrag bs j s).fragRead k =
      if (j ≤ k ∧ k < j + bs.length) ∧ k < FRAG_MAX then bs.getD (k - j) 0 else s.fragRead k := by
  induction bs generalizing j s with
  | nil => rw [fillFrag, if_neg (by simp only [List.length_nil]; omega)]
  | cons b bs ih =>
    rw [fillFrag, ih (fragWrite_frag_wf hwf j b), fragRead_fragWrite hwf, List.length_cons]
    by_cases hjk : j = k
    · subst hjk
      rw [if_neg (by omega), Nat.sub_self, List.getD_cons_zero]
      by_cases hj : j < FRAG_MAX
      · rw [if_pos ⟨rfl, hj⟩, if_pos ⟨by omega, hj⟩]
      · rw [if_neg fun h => hj h.2, if_neg fun h => hj h.2]
    · by_cases hin : (j + 1 ≤ k ∧ k < j + 1 + bs.length) ∧ k < FRAG_MAX
      · rw [if_pos hin, if_pos ⟨by omega, hin.2⟩, show k - j = k - (j + 1) + 1 by omega, List.getD_cons_succ]
      · rw [if_neg hin, if_neg fun h => hjk h.1, if_neg fun h => hin ⟨by omega, h.2⟩]

/-! ### Copying the fragment -/

/-- The bytes of FRAG that make up the fragment. -/
def fragment (s : State) : List Byte := (List.range s.fsize).map s.fragRead

theorem emitFragment_eq_emitAll (n j : Nat) (s : State) :
    emitFragment n j s = emitAll ((List.range n).map fun i => s.fragRead (j + i)) s := by
  induction n generalizing j s with
  | zero => rfl
  | succ n ih =>
    rw [emitFragment, ih, List.range_succ_eq_map, List.map_cons, List.map_map, emitAll, Nat.add_zero]
    refine congrArg (emitAll · _) (List.map_congr_left fun i _ => ?_)
    show s.fragRead (j + 1 + i) = s.fragRead (j + i.succ)
    rw [show j + 1 + i = j + i.succ by omega]

/-- `m` copies of `bs`. -/
def copies (bs : List Byte) : Nat → List Byte
  | 0 => []
  | m + 1 => bs ++ copies bs m

theorem length_copies (bs : List Byte) (m : Nat) : (copies bs m).length = m * bs.length := by
  induction m with
  | zero => simp [copies]
  | succ m ih => simp [copies, ih, Nat.succ_mul, Nat.add_comm]

theorem getD_copies {bs : List Byte} {m k : Nat} (h : k < m * bs.length) :
    (copies bs m).getD k 0 = bs.getD (k % bs.length) 0 := by
  induction m generalizing k with
  | zero => omega
  | succ m ih =>
    rw [Nat.succ_mul] at h
    by_cases hk : k < bs.length
    · rw [copies, List.getD_append _ _ _ _ hk, Nat.mod_eq_of_lt hk]
    · rw [copies, List.getD_append_right _ _ _ _ (Nat.le_of_not_lt hk), ih (by omega),
        ← Nat.mod_eq_sub_mod (Nat.le_of_not_lt hk)]

theorem emitAll_append (bs cs : List Byte) (s : State) : emitAll (bs ++ cs) s = emitAll cs (emitAll bs s) := by
  induction bs generalizing s with
  | nil => rfl
  | cons b bs ih => exact ih (emit b s)

/-- Stores what remains. -/
def setRemaining (v : BitVec 14) (s : State) : State := { s with remaining := v }

theorem emitAll_setRemaining (bs : List Byte) (v : BitVec 14) (s : State) :
    emitAll bs (setRemaining v s) = setRemaining v (emitAll bs s) := by
  induction bs generalizing s with
  | nil => rfl
  | cons b bs ih => exact ih (emit b s)

theorem fragment_emitAll (bs : List Byte) (v : BitVec 14) (s : State) :
    fragment (setRemaining v (emitAll bs s)) = fragment s ∧ (setRemaining v (emitAll bs s)).fsize = s.fsize := by
  rw [emitAll_frame]
  exact ⟨rfl, rfl⟩

theorem repeatFragment_of_lt {n : Nat} {s : State} (h : s.remaining.toNat < s.fsize) : repeatFragment n s = s := by
  cases n with
  | zero => rfl
  | succ n => exact if_pos h

theorem repeatFragment_of_le {n : Nat} {s : State} (h : s.fsize ≤ s.remaining.toNat) :
    repeatFragment (n + 1) s =
      repeatFragment n (setRemaining (s.remaining - BitVec.ofNat 14 s.fsize) (emitAll (fragment s) s)) := by
  have hemit : emitFragment s.fsize 0 s = emitAll (fragment s) s := by
    rw [emitFragment_eq_emitAll]
    simp only [Nat.zero_add]
    rfl
  rw [repeatFragment, if_neg (Nat.not_lt.mpr h), hemit]
  simp only
  rw [emitAll_frame]
  rfl

theorem sub_ofNat_toNat {x : BitVec 14} {n : Nat} (h : n ≤ x.toNat) : (x - BitVec.ofNat 14 n).toNat = x.toNat - n := by
  have hn : (BitVec.ofNat 14 n).toNat = n := Nat.mod_eq_of_lt (h.trans_lt x.isLt)
  rw [BitVec.toNat_sub_of_le (by rw [BitVec.le_def, hn]; exact h), hn]

/-- The copy loop emits as many whole copies as the count asks for and the room takes. -/
theorem repeatFragment_eq_emitAll {c m : Nat} {s : State} (hf : 0 < s.fsize)
    (hm : m = min c (s.remaining.toNat / s.fsize)) :
    ∃ v : BitVec 14, v.toNat = s.remaining.toNat - m * s.fsize ∧
      repeatFragment c s = setRemaining v (emitAll (copies (fragment s) m) s) := by
  induction c generalizing s m with
  | zero =>
    rw [Nat.zero_min] at hm
    subst hm
    exact ⟨s.remaining, by simp, rfl⟩
  | succ c ih =>
    by_cases hlt : s.remaining.toNat < s.fsize
    · rw [Nat.div_eq_of_lt hlt, Nat.min_zero] at hm
      subst hm
      exact ⟨s.remaining, by simp, repeatFragment_of_lt hlt⟩
    · have hle := Nat.le_of_not_lt hlt
      have hsub := sub_ofNat_toNat hle
      obtain ⟨hfrag, hsize⟩ := fragment_emitAll (fragment s) (s.remaining - BitVec.ofNat 14 s.fsize) s
      have hdiv : s.remaining.toNat / s.fsize = (s.remaining.toNat - s.fsize) / s.fsize + 1 := Nat.div_eq_sub_div hf hle
      rw [repeatFragment_of_le hle]
      obtain ⟨m', rfl, hm'⟩ : ∃ m', m = m' + 1 ∧ m' = min c ((s.remaining.toNat - s.fsize) / s.fsize) :=
        ⟨_, by rw [hm, hdiv, Nat.succ_min_succ], rfl⟩
      obtain ⟨v, hv, hcopy⟩ := ih (s := setRemaining (s.remaining - BitVec.ofNat 14 s.fsize) (emitAll (fragment s) s))
        (m := m') (hsize ▸ hf) (by
          rw [hsize, hm', ← hsub]
          rfl)
      rw [hfrag, emitAll_setRemaining, ← emitAll_append] at hcopy
      rw [hsize] at hv
      refine ⟨v, hv.trans ?_, hcopy⟩
      show (s.remaining - BitVec.ofNat 14 s.fsize).toNat - m' * s.fsize = _
      rw [hsub, Nat.succ_mul]
      omega

/-! ### The block -/

/-- Stores a fragment size. -/
def setFsize (f : Nat) (s : State) : State := { s with fsize := f }

theorem setFsize_offDatapath (f : Nat) : OffDatapath (setFsize f) := by
  intro s t h
  rw [h]
  rfl

/-- The state in which a fragment block of `f` bytes and count `c` reads its fragment. -/
def fragmentStart (c : Byte) (f : Nat) (s : State) : State := setCnt (c.setWidth 16) (setFsize f s)

theorem fragmentStart_offDatapath (c : Byte) (f : Nat) : OffDatapath (fragmentStart c f) := by
  intro s t h
  rw [h]
  rfl

theorem blkFragment_of_need_raise {bt : BitVec 8} {s t : State} {e : Err} (h : need s = .raise e t) :
    blkFragment bt s = .raise e (setFsize (2 ^ bt.toNat) t) := by
  have hneed : need { s with fsize := 1 <<< bt.toNat } = .raise e (setFsize (1 <<< bt.toNat) t) :=
    need_raise_commutes (setFsize_offDatapath _) h
  rw [blkFragment, hneed, Nat.one_shiftLeft]
  rfl

theorem blkFragment_of_need_ok {bt : BitVec 8} {s s1 : State} {c : Byte} {f : Nat} (h : need s = .ok c s1)
    (hf : f = 2 ^ bt.toNat) :
    blkFragment bt s = (readFragment f 0 (fragmentStart c f s1)).bind fun _ v =>
      .ok () (repeatFragment v.cnt.toNat v) := by
  have hneed : need { s with fsize := 1 <<< bt.toNat } = .ok c (setFsize (1 <<< bt.toNat) s1) :=
    need_ok_commutes (setFsize_offDatapath _) h
  rw [blkFragment, hneed, Nat.one_shiftLeft, ← hf]
  rfl

theorem blkFragment_of_reads {bt : BitVec 8} {s s1 t : State} {c : Byte} {f : Nat} {bs : List (BitVec 8)}
    (h : need s = .ok c s1) (hf : f = 2 ^ bt.toNat) (hbs : reads f s1 = .ok bs t) :
    blkFragment bt s = .ok () (repeatFragment c.toNat (fillFrag bs 0 (fragmentStart c f t))) := by
  have hcnt : (fillFrag bs 0 (fragmentStart c f t)).cnt.toNat = c.toNat := by
    rw [fillFrag_frame]
    exact BitVec.toNat_setWidth_of_le (by decide)
  rw [blkFragment_of_need_ok h hf, readFragment_of_reads 0 (reads_ok_commutes (fragmentStart_offDatapath c f) hbs),
    ← hcnt]
  rfl

theorem blkFragment_of_raise {bt : BitVec 8} {s s1 t : State} {c : Byte} {f : Nat} {e : Err} (h : need s = .ok c s1)
    (hf : f = 2 ^ bt.toNat) (hbs : reads f s1 = .raise e t) :
    ∃ frag, blkFragment bt s = .raise e { fragmentStart c f t with frag := frag } := by
  have hmiss : reads f (fragmentStart c f s1) = .raise e (fragmentStart c f t) := by
    rw [reads_commutes (fragmentStart_offDatapath c f), hbs, mapState_raise]
  obtain ⟨frag, hfrag⟩ := readFragment_of_raise 0 hmiss
  exact ⟨frag, by rw [blkFragment_of_need_ok h hf, hfrag]; rfl⟩

/-- Where at least one copy fits, the fragment fits in FRAG and is what was read. -/
theorem copies_fragment {bs : List Byte} {f m : Nat} {s v : State} (hv : v = fillFrag bs 0 s) (hwf : s.frag.wf 0)
    (hsize : s.fsize = f) (hlen : bs.length = f) (hm : m ≠ 0 → f ≤ FRAG_MAX) :
    copies (fragment v) m = copies bs m := by
  by_cases hm0 : m = 0
  · rw [hm0]
    rfl
  · have hfits := hm hm0
    refine congrArg (copies · m) (List.ext_getElem? fun k => ?_)
    have hvsize : v.fsize = f := by rw [hv, fillFrag_frame]; exact hsize
    rw [fragment, hvsize]
    by_cases hk : k < f
    · have hread := fragRead_fillFrag (bs := bs) (j := 0) hwf k
      rw [if_pos ⟨⟨Nat.zero_le k, by omega⟩, by omega⟩, ← hv, Nat.sub_zero] at hread
      rw [List.getElem?_map, List.getElem?_range hk, Option.map_some, hread, List.getD_eq_getElem?_getD,
        List.getElem?_eq_getElem (show k < bs.length by omega)]
      rfl
    · rw [List.getElem?_eq_none (by simp; omega), List.getElem?_eq_none (by omega)]

theorem exec_blkFragment {s : State} (bt : BitVec 8) (h : s.w.toNat + s.remaining.toNat ≤ OUTBUF_SIZE) :
    exec (.blkFragment bt) s = .next (blkFragment bt s).settle := if_pos h

/-- What the copies of a fragment leave: as many as fit, from `w` on. -/
theorem repeatFragment_effect {c f m : Nat} {bs : List Byte} {s v u : State} (hv : v = fillFrag bs 0 s)
    (hwf : s.outbuf.wf 0) (hfwf : s.frag.wf 0) (hroom : s.w.toNat + s.remaining.toNat ≤ OUTBUF_SIZE)
    (hsize : s.fsize = f) (hf : 0 < f) (hlen : bs.length = f) (hm : m = min c (s.remaining.toNat / f))
    (hu : u = repeatFragment c v) :
    u = { v with outbuf := u.outbuf, w := u.w, remaining := u.remaining } ∧ u.w.toNat = s.w.toNat + m * f ∧
    u.remaining.toNat = s.remaining.toNat - m * f ∧
    ∀ a, u.outRead a =
      if s.w.toNat ≤ a ∧ a < s.w.toNat + m * f then bs.getD ((a - s.w.toNat) % f) 0 else s.outRead a := by
  have hvsize : v.fsize = f := by rw [hv, fillFrag_frame]; exact hsize
  have hvrem : v.remaining = s.remaining := by rw [hv, fillFrag_frame]
  have hvw : v.w = s.w := by rw [hv, fillFrag_frame]
  have hvout : v.outbuf = s.outbuf := by rw [hv, fillFrag_frame]
  have hvread : v.outRead = s.outRead := by unfold State.outRead; rw [hvout]
  have hmf : m * f ≤ s.remaining.toNat :=
    (Nat.mul_le_mul_right f (hm.trans_le (Nat.min_le_right _ _))).trans (Nat.div_mul_le_self _ f)
  have hfit : m ≠ 0 → f ≤ FRAG_MAX := fun hm0 => by
    have hone := Nat.le_mul_of_pos_left f (Nat.pos_of_ne_zero hm0)
    simp only [FRAG_MAX, OUTBUF_SIZE] at hroom ⊢
    omega
  obtain ⟨r, hr, hcopy⟩ := repeatFragment_eq_emitAll (c := c) (m := m) (s := v) (hvsize ▸ hf) (by rw [hvrem, hvsize, hm])
  rw [copies_fragment hv hfwf hsize hlen hfit, ← hu] at hcopy
  have hbytes : (copies bs m).length = m * f := by rw [length_copies, hlen]
  have hspace : v.w.toNat + (copies bs m).length ≤ OUTBUF_SIZE := by rw [hbytes, hvw]; omega
  have hw := emitAll_w_toNat hspace
  have hread := outRead_emitAll (hvout ▸ hwf) hspace
  have hframe := emitAll_frame (copies bs m) v
  generalize emitAll (copies bs m) v = x at hcopy hw hread hframe
  rw [hbytes, hvw] at hw hread
  subst hcopy
  refine ⟨by rw [hframe]; rfl, hw, by rw [← hvsize, ← hvrem]; exact hr, fun a => (hread a).trans ?_⟩
  rw [hvread]
  by_cases ha : s.w.toNat ≤ a ∧ a < s.w.toNat + m * f
  · rw [if_pos ha, if_pos ha, getD_copies (by rw [hlen]; omega), hlen]
  · rw [if_neg ha, if_neg ha]

/-- Settles O37: the fragment is read whole, kept up to the end of FRAG, and copied as often as it fits. -/
theorem blkFragmentTokenCopiesItsFragment : Obligations.BlkFragmentTokenCopiesItsFragment := by
  intro bt s t hwf hfwf hroom
  rw [exec_blkFragment bt hroom]
  refine ⟨fun e h => ⟨_, rfl, by rw [blkFragment_of_need_raise h]; rfl⟩,
    fun s1 c bs f m hc hf hm => ⟨fun hbs => ?_, fun e hbs => ?_⟩⟩
  · have hst := onlyDatapath_trans (onlyDatapath_of_need_ok hc) (onlyDatapath_of_reads_ok hbs)
    have hw : (fragmentStart c f t).w = s.w := by rw [hst]; rfl
    have hrem : (fragmentStart c f t).remaining = s.remaining := by rw [hst]; rfl
    have hout : (fragmentStart c f t).outbuf = s.outbuf := by rw [hst]; rfl
    have hfrag : (fragmentStart c f t).frag = s.frag := by rw [hst]; rfl
    have hread : (fragmentStart c f t).outRead = s.outRead := by unfold State.outRead; rw [hout]
    have hfread : (fragmentStart c f t).fragRead = s.fragRead := by unfold State.fragRead; rw [hfrag]
    have hlen := length_of_reads_ok hbs
    have heffect := repeatFragment_effect (c := c.toNat) (f := f) (m := m) (s := fragmentStart c f t) rfl (hout ▸ hwf) (hfrag ▸ hfwf)
      (by rw [hw, hrem]; exact hroom) rfl (hf ▸ Nat.two_pow_pos bt.toNat) hlen (by rw [hrem]; exact hm) rfl
    rw [blkFragment_of_reads hc hf hbs]
    have hfill := fun k => fragRead_fillFrag (bs := bs) (j := 0) (s := fragmentStart c f t) (hfrag ▸ hfwf) k
    have hfillFrame := fillFrag_frame bs 0 (fragmentStart c f t)
    generalize fillFrag bs 0 (fragmentStart c f t) = v at heffect hfill hfillFrame ⊢
    generalize repeatFragment c.toNat v = u at heffect ⊢
    rw [hw, hrem, hread] at heffect
    obtain ⟨hframe, hw', hrem', hread'⟩ := heffect
    refine ⟨u, rfl, ?_, ?_, hw', hrem', fun k => ?_, hread'⟩
    · rw [hframe, hfillFrame]
      rfl
    · rw [hframe, hfillFrame]
      exact BitVec.toNat_setWidth_of_le (by decide)
    · have hk := hfill k
      rw [hlen, Nat.zero_add, Nat.sub_zero, hfread] at hk
      have huv : u.fragRead k = v.fragRead k := by rw [hframe]; rfl
      rw [huv, hk]
      simp only [Nat.zero_le, true_and]
  · obtain ⟨frag, hblk⟩ := blkFragment_of_raise hc hf hbs
    exact ⟨_, rfl, by rw [hblk]; rfl⟩

end Sys2Proof.Proofs
end

section
/-! The loop of method 2 (44_sector_payload.md R204), alone and in a DECODE command (45_host_commands.md R236), and
tokens inside their commands. The statements BlockRleRunsItsBlocks, DecodeBlockRle and TokensRunInsideTheirCommands. -/

namespace Sys2Proof.Proofs

open Sys2Proof.Config Sys2Proof.Machine Sys2Proof.Safety Sys2Proof.Laws

/-! ### Blocks in a good tree -/

/-- A good tree, with `k` byte requests paid from the budget `B`. -/
def TreePaid (B k : Nat) (s : State) : Prop := TreeGood s ∧ byteBudget s + k ≤ B

theorem need_good {s : State} (h : TreeGood s) :
    Ends (fun _ t => TreeGood t ∧ byteBudget t < byteBudget s) (fun e _ => e = .streamExhausted) (need s) :=
  ends_bind (ends_mono (byteIn_good h) (fun _ _ ht => ht) fun _ _ ht => ht.elim) fun b _ ht => match b with
    | some _ => ⟨ht.1, ht.2 (Option.some_ne_none _)⟩
    | none => rfl

theorem payloadStable_treePaid (B lim : Nat) :
    PayloadStable lim (B + 1) (TreePaid B) fun _ e _ => e = .streamExhausted where
  request k s hs := by
    refine ends_mono (need_good hs.1) (fun _ t ht => ⟨ht.1, ?_⟩) fun _ _ ht => ht
    have := hs.2
    have := ht.2
    omega
  output _ _ _ hs _ := hs
  register _ _ _ _ _ hs := hs
  fragment _ _ _ _ hs := hs
  bound k s hk hs := by
    have := hs.2
    omega

/-- In a good tree a block's type byte uses up budget. -/
theorem type_good {s s1 : State} {bt : BitVec 8} (h : TreeGood s) (hroom : s.w.toNat + s.remaining.toNat ≤ OUTBUF_SIZE)
    (hbt : need s = .ok bt s1) :
    TreeGood s1 ∧ byteBudget s1 < byteBudget s ∧ s1.w.toNat + s1.remaining.toNat ≤ OUTBUF_SIZE := by
  have hgood := need_good h
  rw [hbt] at hgood
  obtain ⟨⟨hrem, -, -, -⟩, hw⟩ := steady_of_onlyDatapath (onlyDatapath_of_need_ok hbt)
  exact ⟨hgood.1, hgood.2, by rw [hw, hrem]; exact hroom⟩

/-- A block that ends well keeps the tree good, its room, and leaves no more budget. -/
theorem block_good {s s2 : State} {bt : BitVec 8} (h : TreeGood s) (hroom : s.w.toNat + s.remaining.toNat ≤ OUTBUF_SIZE)
    (hblk : (if bt = 0 then blkLiteral s else blkFragment bt s) = .ok () s2) :
    TreeGood s2 ∧ byteBudget s2 ≤ byteBudget s ∧ s2.w.toNat + s2.remaining.toNat ≤ OUTBUF_SIZE := by
  have hblock := block_stable (payloadStable_treePaid (byteBudget s) OUTBUF_SIZE) (le_refl _) bt (k := 0)
    ⟨h, le_refl _⟩ hroom
  rw [hblk] at hblock
  obtain ⟨⟨j, -, hgood, hbudget⟩, hroom2⟩ := hblock
  exact ⟨hgood, by omega, hroom2⟩

/-- Blocks that run until nothing remains are what the loop runs, whatever bound above the budget it has. -/
theorem blocks_of_blocksTo {n : Nat} {s t : State} (h : BlocksTo s t) (htree : TreeGood s)
    (hroom : s.w.toNat + s.remaining.toNat ≤ OUTBUF_SIZE) (hn : byteBudget s < n) : blocks n s = .ok () t := by
  induction h generalizing n with
  | done s hdone => exact blocks_done hdone
  | block s s1 s2 t bt hrem hbt hblk _ ih =>
    obtain ⟨hgood1, hbudget1, hroom1⟩ := type_good htree hroom hbt
    obtain ⟨hgood2, hbudget2, hroom2⟩ := block_good hgood1 hroom1 hblk
    obtain ⟨n, rfl⟩ : ∃ m, n = m + 1 := ⟨n - 1, by omega⟩
    rw [blocks_block hrem hbt hblk]
    exact ih hgood2 hroom2 (by omega)

/-- The loop raises where a block does. -/
theorem blocks_of_blocksRaise {n : Nat} {s t : State} {e : Err} (h : BlocksRaise s e t) (htree : TreeGood s)
    (hroom : s.w.toNat + s.remaining.toNat ≤ OUTBUF_SIZE) (hn : byteBudget s < n) : blocks n s = .raise e t := by
  induction h generalizing n with
  | type s t e hrem hbt =>
    obtain ⟨n, rfl⟩ : ∃ m, n = m + 1 := ⟨n - 1, by omega⟩
    exact blocks_type_raises hrem hbt
  | inside s s1 t bt e hrem hbt hblk =>
    obtain ⟨n, rfl⟩ : ∃ m, n = m + 1 := ⟨n - 1, by omega⟩
    exact blocks_block_raises hrem hbt hblk
  | later s s1 s2 t bt e hrem hbt hblk _ ih =>
    obtain ⟨hgood1, hbudget1, hroom1⟩ := type_good htree hroom hbt
    obtain ⟨hgood2, hbudget2, hroom2⟩ := block_good hgood1 hroom1 hblk
    obtain ⟨n, rfl⟩ : ∃ m, n = m + 1 := ⟨n - 1, by omega⟩
    rw [blocks_block hrem hbt hblk]
    exact ih hgood2 hroom2 (by omega)

theorem blocks_written {n : Nat} {s : State} (hroom : s.w.toNat + s.remaining.toNat ≤ OUTBUF_SIZE) :
    Ends (fun _ => Written s (s.w.toNat + s.remaining.toNat)) (fun _ => Written s (s.w.toNat + s.remaining.toNat))
      (blocks n s) :=
  ends_mono (blocks_stable (payloadStable_written s hroom) hroom (k := 0) (written_refl (Nat.le_add_right _ _)) (le_refl _)
    (Nat.zero_le _)) (fun _ _ ⟨_, ht⟩ => ht) fun _ _ ⟨_, ht⟩ => ht

theorem onlyPayload_of_blocks_raise {n : Nat} {s t : State} {e : Err} (h : blocks n s = .raise e t) :
    OnlyPayload s t := by
  obtain ⟨u, hu, ⟨a, hb⟩ | hb | hb⟩ := blocks_payloadEnds n s <;> rw [hb] at h <;> cases h <;> exact hu

theorem raiseErr_faulted_of_ne {e : Err} (h : e ≠ .treeInvariantViolation) (s : State) :
    (raiseErr e s).faulted = s.faulted := by rw [raiseErr_of_ne h]

theorem exec_blockRle {s : State} (h : s.w.toNat + s.tgt.toNat ≤ OUTBUF_SIZE) :
    exec .blockRle s = .next (blocks (byteBudget s + 1) { s with remaining := s.tgt }).settle := if_pos h

/-- Settles O38: the budget of byte requests bounds the blocks, so the loop ends where they do. -/
theorem blockRleRunsItsBlocks : Obligations.BlockRleRunsItsBlocks := by
  intro s t htree hroom
  have hloop : ∀ u, BlocksTo { s with remaining := s.tgt } u → exec .blockRle s = .next u := fun u h => by
    rw [exec_blockRle hroom, blocks_of_blocksTo h htree hroom (Nat.lt_succ_self (byteBudget s))]
    rfl
  refine ⟨hloop t, fun h0 => ?_, fun e h => ?_⟩
  · have hdone := hloop _ (.done { s with remaining := s.tgt } (by rw [h0]; rfl))
    rw [hdone, h0]
  · have hraise := blocks_of_blocksRaise h htree hroom (Nat.lt_succ_self (byteBudget s))
    have hwritten := blocks_written (n := byteBudget s + 1) (s := { s with remaining := s.tgt }) hroom
    rw [hraise] at hwritten
    have hframe := onlyPayload_of_blocks_raise hraise
    refine ⟨raiseErr e t, by rw [exec_blockRle hroom, hraise]; rfl, rfl, fun he => ?_, hwritten.from_, hwritten.to_,
      hwritten.kept⟩
    rw [raiseErr_faulted_of_ne he, hframe]

/-! ### Method 2 in a DECODE command -/

theorem blocks_short {n : Nat} {s : State} (h : s.short = false) (hroom : s.w.toNat + s.remaining.toNat ≤ OUTBUF_SIZE) :
    Ends (fun _ t => t.short = false) (fun _ t => t.short = false) (blocks n s) :=
  ends_mono (blocks_stable (payloadStable_notShort OUTBUF_SIZE) (le_refl _) (k := 0) h hroom (Nat.zero_le _))
    (fun _ _ ⟨_, ht⟩ => ht) fun _ _ ⟨_, ht⟩ => ht

/-- Settles O59: a DECODE of method 2 is the loop on the cleared target. -/
theorem decodeBlockRle : Obligations.DecodeBlockRle := by
  rintro s s0 t n hs htree hwf hn hs0
  have hrem : s0.remaining.toNat = n.toNat := by rw [hs0]; exact decodeStart_tgt hn s
  have hw0 : s0.w.toNat = 0 := by rw [hs0]; rfl
  have hroom : s0.w.toNat + s0.remaining.toNat ≤ OUTBUF_SIZE := by rw [hw0, hrem, Nat.zero_add]; exact hn
  have htree0 : TreeGood s0 := by rw [hs0]; exact htree
  have hmethod : decodePayload 2 n.toNat { s with shortFill := false, outlen := 0 } = blocks (byteBudget s0 + 1) s0 := by
    rw [hs0]
    rfl
  refine ⟨fun h => ?_, fun e h => ?_⟩
  · have hloop := blocks_of_blocksTo h htree0 hroom (Nat.lt_succ_self _)
    have hshort := blocks_short (n := byteBudget s0 + 1) (show s0.short = false by rw [hs0]) hroom
    rw [hloop] at hshort
    rw [exec_decodeLen_of_ok hs hn (hmethod.trans hloop), show t.short = false from hshort]
  · have hloop := blocks_of_blocksRaise h htree0 hroom (Nat.lt_succ_self _)
    have hwritten := blocks_written (n := byteBudget s0 + 1) hroom
    rw [hloop, hw0, hrem, Nat.zero_add] at hwritten
    have hframe := onlyPayload_of_blocks_raise hloop
    have hkept : ∀ a, t.w.toNat ≤ a → t.outRead a = if a < n.toNat then 0 else s.outRead a := fun a ha => by
      have hread0 : s0.outRead a = if a < n.toNat then 0 else s.outRead a := by
        rw [hs0]
        exact outRead_decodeStart n.toNat s a
      rw [hwritten.kept (by rw [hs0]; exact clearBelow_wf _ hwf) a (by omega), hread0]
    refine ⟨_, exec_decodeLen_of_raise hs hn (hmethod.trans hloop), rfl, fun he => ?_, ?_, ?_, hwritten.to_,
      fun a ha han => (hkept a ha).trans (if_pos han),
      fun a ha => (hkept a (hwritten.to_.trans ha)).trans (if_neg (Nat.not_lt.mpr ha))⟩
    · rw [raiseErr_faulted_of_ne he, hframe, hs0]
      exact hs.2
    · rw [raiseErr_outlen, hframe, hs0]
    · rw [raiseErr_shortFill, hframe, hs0]

/-! ### Tokens inside their commands -/

theorem deliverSymbol_lit {sym : Nat} (h : sym < 256) (s : State) :
    deliverSymbol sym s = pushLiteral (BitVec.ofNat 8 sym) s := if_pos h

theorem deliverSymbol_match (k : Nat) (s : State) : deliverSymbol (256 + k) s = matchEntry (BitVec.ofNat 8 k) s := by
  rw [deliverSymbol, if_neg (by omega), Nat.add_sub_cancel_left]

/-- The token of a symbol delivers it as a byte request does (R182, R183). -/
theorem exec_symbol {sym : Nat} (h : sym < N_CHAR) (t : State) :
    ∃ i, decode (.sym9 (BitVec.ofNat 9 sym)) = .ok i ∧ exec i t = .next (deliverSymbol sym t) := by
  have hsym : sym < 314 := h
  by_cases hlit : sym < 256
  · have hword : BitVec.ofNat 9 sym = (BitVec.ofNat 8 sym).setWidth 9 := BitVec.eq_of_toNat_eq (by
      rw [BitVec.toNat_setWidth_of_le (by decide), BitVec.toNat_ofNat, BitVec.toNat_ofNat]
      omega)
    exact ⟨_, hword ▸ decode_sym9_setWidth _, by rw [exec_lit, deliverSymbol_lit hlit]⟩
  · obtain ⟨k, rfl⟩ : ∃ k, sym = 256 + k := ⟨sym - 256, by omega⟩
    have hk : (BitVec.ofNat 8 k).toNat = k := Nat.mod_eq_of_lt (by omega)
    have hword : BitVec.ofNat 9 (256 + k) = 1#1 ++ BitVec.ofNat 8 k := BitVec.eq_of_toNat_eq (by
      have htop : (1#1).toNat = 1 := rfl
      rw [append_toNat, hk, BitVec.toNat_ofNat, htop]
      omega)
    have hk58 : (BitVec.ofNat 8 k).toNat < 58 := by rw [hk]; omega
    exact ⟨.lzMatch (BitVec.ofNat 8 k), by rw [hword]; exact (decodeSym_match _).trans (if_pos hk58),
      by rw [exec_lzMatch hk58, deliverSymbol_match]⟩

theorem symbols_inside {s : State} (hstop : s.eofStops = false) (hpend : s.copyPending = false) :
    (∀ (sym : Nat) (t : State), decodeSymbol { s with mstate := .idle } = .ok sym t →
      ∃ i u, decode (.sym9 (BitVec.ofNat 9 sym)) = .ok i ∧ exec i t = .next u ∧
        decNextByte s = .ok (some u.outByte) u) ∧
    ∀ (e : Err) (t : State), decodeSymbol { s with mstate := .idle } = .raise e t → decNextByte s = .raise e t := by
  have hnext : decNextByte s = (decodeSymbol { s with mstate := .idle }).bind fun sym s1 =>
      .ok (some (deliverSymbol sym s1).outByte) (deliverSymbol sym s1) := by
    simp only [decNextByte, hstop, hpend, Bool.false_eq_true, if_false]
  refine ⟨fun sym t hd => ?_, fun e t hd => by rw [hnext, hd]; rfl⟩
  have hsym : sym < N_CHAR := by
    obtain ⟨sym', t', hd', hlt, -⟩ | ⟨t', hd', -⟩ := decodeSymbol_cases { s with mstate := .idle } <;>
      rw [hd] at hd' <;> cases hd'
    exact hlt
  obtain ⟨i, hi, hexec⟩ := exec_symbol hsym t
  exact ⟨i, _, hi, hexec, by rw [hnext, hd]; rfl⟩

theorem positions_inside {s t : State} {lead : BitVec 8} (h : nextBits8 s = (lead, t)) :
    ∃ i, decode (.pos8x lead) = .ok i ∧ exec i t = .next (decodePosition s) := by
  refine ⟨_, rfl, ?_⟩
  rw [exec_of_encode_pos8x (encode_decodePos lead).2, decodePosition, h]

/-- The method of a tag. -/
theorem decodeMethod_cases (m : BitVec 8) :
    (2 < m.toNat ∧ decodeMethod m = .error .unknownMethod) ∨ (m = 0 ∧ decodeMethod m = .ok .raw) ∨
      (m = 1 ∧ decodeMethod m = .ok .repeat2) ∨ (m = 2 ∧ decodeMethod m = .ok .blockRle) := by
  by_cases hm : m.toNat ≤ 2
  · obtain rfl | rfl | rfl := method_cases hm
    · exact .inr (.inl ⟨rfl, rfl⟩)
    · exact .inr (.inr (.inl ⟨rfl, rfl⟩))
    · exact .inr (.inr (.inr ⟨rfl, rfl⟩))
  · refine .inl ⟨Nat.lt_of_not_le hm, ?_⟩
    revert hm
    revert m
    decide

/-- The token of a known method is what DecodePayload runs. -/
theorem exec_method {m : BitVec 8} {i : Instr} (h : decode (.method8 m) = .ok i) {target : Nat}
    (htarget : target ≤ MAX_TARGET) (s : State) :
    exec i (payloadStart target s) = .next (decodePayload m target s).settle := by
  have hroom := (payloadStart_room htarget s).trans_le htarget
  obtain ⟨-, hm⟩ | ⟨rfl, hm⟩ | ⟨rfl, hm⟩ | ⟨rfl, hm⟩ := decodeMethod_cases m <;>
    rw [show decode (.method8 _) = decodeMethod _ from rfl, hm] at h <;> cases h
  · exact exec_raw hroom
  · exact exec_repeat2 hroom
  · exact exec_blockRle hroom

theorem methods_inside {s s1 : State} {m : BitVec 8} {target : BitVec 16} (hs : Ready s)
    (htarget : target.toNat ≤ MAX_TARGET) (hs1 : s1 = { s with shortFill := false, outlen := 0 }) :
    (∀ r, decode (.method8 m) = .error r →
      decodePayload m target.toNat s1 = .raise .unknownCompressionMethod s1 ∧
      exec (.decodeLen m target) s = .next (rejected r s1)) ∧
    ∀ i s2, decode (.method8 m) = .ok i →
      s2 = { s1 with
        outbuf := s1.outbuf.clearBelow target.toNat
        w := 0
        tgt := BitVec.ofNat 14 target.toNat
        short := false } →
      (∀ u, decodePayload m target.toNat s1 = .ok () u → exec i s2 = .next u ∧
        exec (.decodeLen m target) s = .next { u with
          shortFill := u.short, outlen := BitVec.ofNat 14 target.toNat, err := .success }) ∧
      ∀ e u, decodePayload m target.toNat s1 = .raise e u → exec i s2 = .next (raiseErr e u) ∧
        exec (.decodeLen m target) s = .next (raiseErr e u) := by
  subst hs1
  refine ⟨fun r hr => ?_, fun i s2 hi hs2 => ?_⟩
  · obtain ⟨hm, hunknown⟩ | ⟨-, hok⟩ | ⟨-, hok⟩ | ⟨-, hok⟩ := decodeMethod_cases m
    · have hr' : (.error r : Except Reject Instr) = .error .unknownMethod := hr.symm.trans hunknown
      cases hr'
      obtain ⟨-, hp⟩ | ⟨hm', -⟩ := decodePayload_cases m target.toNat { s with shortFill := false, outlen := 0 }
      · exact ⟨hp, exec_decodeLen_of_raise hs htarget hp⟩
      · omega
    all_goals exact absurd (hr.symm.trans hok) (by simp)
  · have hexec := exec_method hi htarget { s with shortFill := false, outlen := 0 }
    rw [show payloadStart target.toNat { s with shortFill := false, outlen := 0 } = s2 from hs2.symm] at hexec
    refine ⟨fun u hu => ⟨by rw [hexec, hu]; rfl, exec_decodeLen_of_ok hs htarget hu⟩,
      fun e u hu => ⟨by rw [hexec, hu]; rfl, exec_decodeLen_of_raise hs htarget hu⟩⟩

/-- The token of a block is what the loop of method 2 runs. -/
theorem exec_block {bt : BitVec 8} {s : State} (hroom : s.w.toNat + s.remaining.toNat ≤ OUTBUF_SIZE) :
    exec (decodeBlk bt) s = .next (if bt = 0 then blkLiteral s else blkFragment bt s).settle := by
  unfold decodeBlk
  split
  · exact exec_blkLiteral hroom
  · exact exec_blkFragment bt hroom

theorem blocks_inside {n : Nat} {s s1 : State} (hrem : s.remaining.toNat ≠ 0)
    (hroom : s.w.toNat + s.remaining.toNat ≤ OUTBUF_SIZE) :
    (∀ e, need s = .raise e s1 → blocks (n + 1) s = .raise e s1) ∧
    ∀ bt i, need s = .ok bt s1 → decode (.blk8 bt) = .ok i →
      ∃ u, (exec i s1 = .next u ∧ blocks (n + 1) s = blocks n u) ∨
        ∃ e, exec i s1 = .next (raiseErr e u) ∧ blocks (n + 1) s = .raise e u := by
  refine ⟨fun e h => blocks_type_raises hrem h, fun bt i hbt hi => ?_⟩
  cases hi
  obtain ⟨⟨hrem1, -, -, -⟩, hw1⟩ := steady_of_onlyDatapath (onlyDatapath_of_need_ok hbt)
  have hexec := exec_block (bt := bt) (s := s1) (by rw [hw1, hrem1]; exact hroom)
  cases hblk : (if bt = 0 then blkLiteral s1 else blkFragment bt s1) with
  | ok a u =>
    rw [hblk] at hexec
    exact ⟨u, .inl ⟨hexec, blocks_block hrem hbt hblk⟩⟩
  | raise e u =>
    rw [hblk] at hexec
    exact ⟨u, .inr ⟨e, hexec, blocks_block_raises hrem hbt hblk⟩⟩

/-- Settles O40: each unit runs inside its command what its token runs alone. -/
theorem tokensRunInsideTheirCommands : Obligations.TokensRunInsideTheirCommands :=
  ⟨fun _ => symbols_inside, fun _ _ _ => positions_inside, fun _ _ _ _ => methods_inside, fun _ _ _ => blocks_inside⟩

end Sys2Proof.Proofs
end

section
/-! The command-local registers (10_state.md R41): two states that differ only there answer alike. The statement
CommandLocalsAreNeverRead. -/

namespace Sys2Proof.Proofs

open Sys2Proof.Config Sys2Proof.Machine Sys2Proof.Safety Sys2Proof.Laws

/-! ### The return registers of the datapath are written before they are read -/

/-- The model's own return registers replaced. -/
def withReturns (d : BitVec 12) (o : Byte) (s : State) : State := { s with dist := d, outByte := o }

theorem rawByte_withReturns (d : BitVec 12) (o : Byte) (s : State) :
    rawByte (withReturns d o s) = ((rawByte s).1, withReturns d o (rawByte s).2) := by
  obtain ⟨b, heof, hb, h⟩ | ⟨heof, h⟩ | ⟨heof, hb, h⟩ := rawByte_cases s
  · rw [h]; simp [rawByte, srcRead, withReturns, heof, hb]
  · rw [h]; simp [rawByte, withReturns, heof]
  · rw [h]; simp [rawByte, srcRead, withReturns, heof, hb]

theorem refillOnce_withReturns (d : BitVec 12) (o : Byte) (s : State) :
    refillOnce (withReturns d o s) = withReturns d o (refillOnce s) := by
  unfold refillOnce
  rw [rawByte_withReturns]
  obtain ⟨_ | b, t⟩ := rawByte s <;> rfl

theorem refillLoop_withReturns (d : BitVec 12) (o : Byte) (n : Nat) (s : State) :
    refillLoop n (withReturns d o s) = withReturns d o (refillLoop n s) := by
  induction n generalizing s with
  | zero => rfl
  | succ n ih =>
    have hcnt : (withReturns d o s).bitcnt = s.bitcnt := rfl
    unfold refillLoop
    rw [hcnt, refillOnce_withReturns, ih]
    split <;> rfl

theorem nextBit_withReturns (d : BitVec 12) (o : Byte) (s : State) :
    nextBit (withReturns d o s) = ((nextBit s).1, withReturns d o (nextBit s).2) := by
  have hrefill : refill (withReturns d o s) = withReturns d o (refill s) := refillLoop_withReturns d o 2 s
  rw [nextBit, hrefill]
  rfl

theorem nextBits8_withReturns (d : BitVec 12) (o : Byte) (s : State) :
    nextBits8 (withReturns d o s) = ((nextBits8 s).1, withReturns d o (nextBits8 s).2) := by
  have hrefill : refill (withReturns d o s) = withReturns d o (refill s) := refillLoop_withReturns d o 2 s
  rw [nextBits8, hrefill]
  rfl

theorem foldBits_withReturns (d : BitVec 12) (o : Byte) (n v : Nat) (s : State) :
    foldBits n v (withReturns d o s) = ((foldBits n v s).1, withReturns d o (foldBits n v s).2) := by
  induction n generalizing v s with
  | zero => rfl
  | succ n ih =>
    rw [foldBits, nextBit_withReturns]
    exact ih _ _

theorem walk_withReturns (d : BitVec 12) (o : Byte) (n c : Nat) (s : State) :
    walk n c (withReturns d o s) = mapState (withReturns d o) (walk n c s) := by
  induction n generalizing c s with
  | zero => unfold walk; split <;> rfl
  | succ n ih =>
    unfold walk
    rw [nextBit_withReturns]
    split
    · exact ih _ _
    · rfl

theorem countLeaf_withReturns (d : BitVec 12) (o : Byte) (sym : Nat) (s : State) :
    countLeaf sym (withReturns d o s) = mapState (withReturns d o) (countLeaf sym s) := by
  have htree : (withReturns d o s).tree = s.tree := rfl
  unfold countLeaf countSymbol
  rw [htree]
  split
  · cases update s.tree sym <;> rfl
  · rfl

theorem decodeSymbol_withReturns (d : BitVec 12) (o : Byte) (s : State) :
    decodeSymbol (withReturns d o s) = mapState (withReturns d o) (decodeSymbol s) := by
  have hwalk := walk_withReturns d o TSIZE (s.tree.sonAt ROOT) s
  cases hw : walk TSIZE (s.tree.sonAt ROOT) s with
  | raise e t =>
    rw [hw] at hwalk
    rw [decodeSymbol_of_walk_raise hw, decodeSymbol_of_walk_raise (s := withReturns d o s) hwalk]
    rfl
  | ok c t =>
    rw [hw] at hwalk
    rw [decodeSymbol_of_walk_ok hw rfl, decodeSymbol_of_walk_ok (s := withReturns d o s) hwalk rfl]
    exact countLeaf_withReturns d o _ t

theorem decodePosition_withReturns (d : BitVec 12) (o : Byte) (s : State) :
    decodePosition (withReturns d o s) = withReturns (decodePosition s).dist o (decodePosition s) := by
  unfold decodePosition positionFrom
  rw [nextBits8_withReturns]
  simp only
  rw [foldBits_withReturns]
  rfl

/-- A match writes both. -/
theorem matchEntry_withReturns (k : BitVec 8) (d : BitVec 12) (o : Byte) (s : State) :
    matchEntry k (withReturns d o s) = matchEntry k s := by
  have hpos : decodePosition (withMatchLength k (withReturns d o s)) = _ :=
    decodePosition_withReturns d o (withMatchLength k s)
  rw [matchEntry_eq k rfl, matchEntry_eq k rfl, hpos]
  rfl

theorem deliverSymbol_withReturns (sym : Nat) (d : BitVec 12) (o : Byte) (s : State) :
    ∃ d', deliverSymbol sym (withReturns d o s) =
      withReturns d' (deliverSymbol sym s).outByte (deliverSymbol sym s) := by
  unfold deliverSymbol
  generalize BitVec.ofNat 8 (sym - 256) = k
  split
  · exact ⟨d, rfl⟩
  · exact ⟨(matchEntry k s).dist, matchEntry_withReturns k d o s⟩

/-- A byte request reads neither. -/
theorem byteIn_withReturns (d : BitVec 12) (o : Byte) (s : State) :
    ∃ d' o', byteIn (withReturns d o s) = mapState (withReturns d' o') (byteIn s) := by
  cases hmode : s.compressed with
  | false =>
    refine ⟨d, o, ?_⟩
    rw [byteIn_raw hmode, byteIn_raw (s := withReturns d o s) hmode, rawByte_withReturns]
    rfl
  | true =>
    rw [byteIn_compressed hmode, byteIn_compressed (s := withReturns d o s) hmode]
    have hidle : decodeSymbol { withReturns d o s with mstate := .idle } = mapState (withReturns d o)
      (decodeSymbol { s with mstate := .idle }) := decodeSymbol_withReturns d o { s with mstate := .idle }
    unfold decNextByte
    rw [show (withReturns d o s).eofStops = s.eofStops from rfl,
      show (withReturns d o s).copyPending = s.copyPending from rfl, hidle]
    split
    · exact ⟨d, o, rfl⟩
    · split
      · exact ⟨d, (copyStep s).outByte, rfl⟩
      · cases decodeSymbol { s with mstate := .idle } with
        | raise e t => exact ⟨d, o, rfl⟩
        | ok sym t =>
          obtain ⟨d', hdeliver⟩ := deliverSymbol_withReturns sym d o t
          refine ⟨d', (deliverSymbol sym t).outByte, ?_⟩
          rw [mapState_ok, Res.bind, hdeliver]
          rfl

/-! ### Results of two runs -/

/-- Two results that agree: the same value, in states related by `R`; or the same error, in states that differ only in
the command-local registers. -/
def Related {α : Type} (R : State → State → Prop) : Res α → Res α → Prop
  | .ok a s, .ok a' s' => a = a' ∧ R s s'
  | .raise e s, .raise e' s' => e = e' ∧ OnlyLocals s s'
  | _, _ => False

theorem related_bind {α β : Type} {R S : State → State → Prop} {x x' : Res α} {f f' : α → State → Res β}
    (h : Related R x x') (hf : ∀ a s s', R s s' → Related S (f a s) (f' a s')) :
    Related S (x.bind f) (x'.bind f') := by
  cases x with
  | ok a s =>
    cases x' with
    | ok a' s' =>
      obtain ⟨rfl, hs⟩ := h
      exact hf a s s' hs
    | raise e' s' => exact h.elim
  | raise e s =>
    cases x' with
    | ok a' s' => exact h.elim
    | raise e' s' => exact h

theorem related_mono {α : Type} {R S : State → State → Prop} {x x' : Res α} (h : Related R x x')
    (hRS : ∀ s s', R s s' → S s s') : Related S x x' := by
  cases x with
  | ok a s =>
    cases x' with
    | ok a' s' => exact ⟨h.1, hRS s s' h.2⟩
    | raise e' s' => exact h
  | raise e s =>
    cases x' with
    | ok a' s' => exact h
    | raise e' s' => exact h

theorem onlyLocals_onto {s s' t : State} (h : OnlyLocals s s') (ht : OnlyDatapath s t) (d : BitVec 12) (o : Byte) :
    OnlyLocals t (onto s' (withReturns d o t)) := by
  unfold OnlyLocals at h ⊢
  rw [h, ht]
  rfl

/-- Requests from two such states answer alike and change the datapath alone. -/
theorem byteIn_related {s s' : State} (h : OnlyLocals s s') :
    Related (fun t t' => OnlyLocals t t' ∧ OnlyDatapath s t ∧ OnlyDatapath s' t') (byteIn s) (byteIn s') := by
  have hs' : s' = onto s' (withReturns s'.dist s'.outByte s) := by
    unfold OnlyLocals at h
    rw [h]
    rfl
  obtain ⟨d, o, hreturns⟩ := byteIn_withReturns s'.dist s'.outByte s
  have hrun := byteIn_onto s' (withReturns s'.dist s'.outByte s)
  rw [← hs', hreturns] at hrun
  obtain ⟨t, ht, ⟨b, hb⟩ | hb⟩ := byteIn_frame s
  · rw [hb] at hrun ⊢
    have hrun' : byteIn s' = .ok b (onto s' (withReturns d o t)) := hrun
    rw [hrun']
    exact ⟨rfl, onlyLocals_onto h ht d o, ht, onlyDatapath_of_byteIn_ok hrun'⟩
  · rw [hb] at hrun ⊢
    have hrun' : byteIn s' = .raise .treeInvariantViolation (onto s' (withReturns d o t)) := hrun
    rw [hrun']
    exact ⟨rfl, onlyLocals_onto h ht d o⟩

/-! ### Payloads from two states -/

/-- Two states in the same place of a payload, which differ only in command-local registers: where they write and up to
what target is the same, and both meet `G`. -/
structure Alike (G : State → Prop) (s s' : State) : Prop where
  locals : OnlyLocals s s'
  cursor : s'.w = s.w
  target : s'.tgt = s.tgt
  flag : s'.short = s.short
  fragment : s.frag.wf 0 ∧ s'.frag.wf 0
  fact : G s ∧ G s'

/-- A fact about the counts of a payload. -/
def AboutCounts (G : State → Prop) : Prop := ∀ s t, Steady s t → G s → G t

theorem alike_register {G H : State → Prop} {s s' : State} (h : Alike G s s') (r r' : BitVec 14) (c c' : BitVec 16)
    (f f' : Nat) (hs : H { s with remaining := r, cnt := c, fsize := f })
    (hs' : H { s' with remaining := r', cnt := c', fsize := f' }) :
    Alike H { s with remaining := r, cnt := c, fsize := f } { s' with remaining := r', cnt := c', fsize := f' } where
  locals := by
    have hl := h.locals
    unfold OnlyLocals at hl ⊢
    rw [hl]
  cursor := h.cursor
  target := h.target
  flag := h.flag
  fragment := h.fragment
  fact := ⟨hs, hs'⟩

theorem copyThrough_succ (n : Nat) (s : State) :
    copyThrough (n + 1) s = (need s).bind fun b t => copyThrough n (emit b t) := by
  rw [copyThrough]
  cases need s <;> rfl

theorem readFragment_succ (n j : Nat) (s : State) :
    readFragment (n + 1) j s = (need s).bind fun b t => readFragment n (j + 1) (t.fragWrite j b) := by
  rw [readFragment]
  cases need s <;> rfl

section
variable {G : State → Prop} (hG : AboutCounts G)
include hG

theorem need_related_frame {s s' : State} (h : Alike G s s') :
    Related (fun t t' => Alike G t t' ∧ OnlyDatapath s t ∧ OnlyDatapath s' t') (need s) (need s') := by
  refine related_bind (byteIn_related h.locals) fun b t t' ⟨ht, hst, hst'⟩ => ?_
  cases b with
  | none => exact ⟨rfl, ht⟩
  | some b =>
    refine ⟨rfl, ⟨ht, ?_, ?_, ?_, ?_, hG s t (steady_of_onlyDatapath hst).1 h.fact.1,
      hG s' t' (steady_of_onlyDatapath hst').1 h.fact.2⟩, hst, hst'⟩
    · rw [hst, hst']; exact h.cursor
    · rw [hst, hst']; exact h.target
    · rw [hst, hst']; exact h.flag
    · rw [hst, hst']; exact h.fragment

theorem need_related {s s' : State} (h : Alike G s s') : Related (Alike G) (need s) (need s') :=
  related_mono (need_related_frame hG h) fun _ _ ht => ht.1

theorem emit_alike (b : Byte) {s s' : State} (h : Alike G s s') : Alike G (emit b s) (emit b s') where
  locals := by
    have hl := h.locals
    have hw := h.cursor
    unfold OnlyLocals at hl ⊢
    unfold emit
    rw [hw, hl]
  cursor := congrArg (· + 1) h.cursor
  target := h.target
  flag := h.flag
  fragment := h.fragment
  fact := ⟨hG s _ (steady_refl s) h.fact.1, hG s' _ (steady_refl s') h.fact.2⟩

theorem emitAll_alike (bs : List Byte) {s s' : State} (h : Alike G s s') : Alike G (emitAll bs s) (emitAll bs s') := by
  induction bs generalizing s s' with
  | nil => exact h
  | cons b bs ih => exact ih (emit_alike hG b h)

theorem copyThrough_related (n : Nat) {s s' : State} (h : Alike G s s') :
    Related (Alike G) (copyThrough n s) (copyThrough n s') := by
  induction n generalizing s s' with
  | zero => exact ⟨rfl, h⟩
  | succ n ih =>
    rw [copyThrough_succ, copyThrough_succ]
    exact related_bind (need_related hG h) fun b _ _ hv => ih (emit_alike hG b hv)

theorem emit_below_alike (b : Byte) {s s' : State} (h : Alike G s s') :
    Alike G (if s.w.toNat < s.tgt.toNat then emit b s else s) (if s'.w.toNat < s'.tgt.toNat then emit b s' else s') := by
  rw [h.cursor, h.target]
  split
  · exact emit_alike hG b h
  · exact h

theorem repeatPair_alike (b1 b2 : Byte) (n : Nat) {s s' : State} (h : Alike G s s') :
    Alike G (repeatPair b1 b2 n s) (repeatPair b1 b2 n s') := by
  induction n generalizing s s' with
  | zero => exact h
  | succ n ih =>
    have hpair := emit_below_alike hG b2 (emit_below_alike hG b1 h)
    unfold repeatPair
    simp only
    generalize (if s.w.toNat < s.tgt.toNat then emit b1 s else s) = u at hpair ⊢
    generalize (if s'.w.toNat < s'.tgt.toNat then emit b1 s' else s') = u' at hpair ⊢
    generalize (if u.w.toNat < u.tgt.toNat then emit b2 u else u) = v at hpair ⊢
    generalize (if u'.w.toNat < u'.tgt.toNat then emit b2 u' else u') = v' at hpair ⊢
    rw [hpair.cursor, hpair.target]
    split
    · exact hpair
    · exact ih hpair

end

/-! ### The methods -/

/-- What remains is the same. -/
def LeftOver (r : BitVec 14) (s : State) : Prop := s.remaining = r

theorem aboutCounts_leftOver (r : BitVec 14) : AboutCounts (LeftOver r) := fun _ _ hst h => hst.1.trans h

theorem method0_related {s s' : State} (h : Alike (fun _ => True) s s') :
    Related (Alike fun _ => True) (method0 s) (method0 s') := by
  unfold method0
  rw [h.target]
  exact copyThrough_related (fun _ _ _ h => h) _ h

theorem shortOf_alike {G : State → Prop} {s s' : State} (h : Alike G s s') :
    Alike (fun _ => True) { s with short := s.shortOf } { s' with short := s'.shortOf } where
  locals := by
    have hl := h.locals
    unfold OnlyLocals at hl ⊢
    rw [hl]
  cursor := h.cursor
  target := h.target
  flag := by
    unfold State.shortOf
    rw [h.cursor, h.target]
  fragment := h.fragment
  fact := ⟨trivial, trivial⟩

/-- Method 1 stores its count before it reads it. -/
theorem method1_related {s s' : State} (h : Alike (fun _ => True) s s') :
    Related (Alike fun _ => True) (method1 s) (method1 s') := by
  have htrue : AboutCounts fun _ => True := fun _ _ _ h => h
  refine related_bind (need_related htrue h) fun lo s1 s1' h1 => ?_
  refine related_bind (need_related htrue h1) fun hi s2 s2' h2 => ?_
  have hcnt : AboutCounts fun t => t.cnt = wordLe lo hi := fun _ _ hst h => hst.2.2.1.trans h
  have hstore := alike_register (H := fun t => t.cnt = wordLe lo hi) h2 s2.remaining s2'.remaining (wordLe lo hi)
    (wordLe lo hi) s2.fsize s2'.fsize rfl rfl
  refine related_bind (need_related hcnt hstore) fun b1 s3 s3' h3 => ?_
  refine related_bind (need_related hcnt h3) fun b2 s4 s4' h4 => ?_
  rw [h4.fact.1, h4.fact.2]
  exact ⟨rfl, shortOf_alike (repeatPair_alike hcnt b1 b2 _ h4)⟩

/-- A literal block stores its count before it reads it. -/
theorem blkLiteral_related {r : BitVec 14} {s s' : State} (h : Alike (LeftOver r) s s') :
    Related (fun t t' => ∃ r', Alike (LeftOver r') t t') (blkLiteral s) (blkLiteral s') := by
  refine related_bind (need_related (aboutCounts_leftOver r) h) fun c s1 s1' h1 => ?_
  rw [h1.fact.1, h1.fact.2]
  simp only
  generalize min c.toNat r.toNat = n
  have hstore := alike_register (H := LeftOver r) h1 r r (BitVec.ofNat 16 n) (BitVec.ofNat 16 n) s1.fsize s1'.fsize rfl
    rfl
  refine related_bind (copyThrough_related (aboutCounts_leftOver r) n hstore) fun _ s2 s2' h2 => ?_
  have hrest : s2'.remaining - BitVec.ofNat 14 n = s2.remaining - BitVec.ofNat 14 n := by
    rw [show s2'.remaining = r from h2.fact.2, show s2.remaining = r from h2.fact.1]
  exact ⟨rfl, _, alike_register (H := LeftOver (s2.remaining - BitVec.ofNat 14 n)) h2 _ _ s2.cnt s2'.cnt s2.fsize
    s2'.fsize rfl hrest⟩

/-! ### Fragment blocks -/

/-- The counts a fragment block works with. -/
def FragmentCounts (r : BitVec 14) (f : Nat) (c : BitVec 16) (s : State) : Prop :=
  s.remaining = r ∧ s.fsize = f ∧ s.cnt = c

theorem aboutCounts_fragmentCounts (r : BitVec 14) (f : Nat) (c : BitVec 16) : AboutCounts (FragmentCounts r f c) :=
  fun _ _ hst h => ⟨hst.1.trans h.1, hst.2.1.trans h.2.1, hst.2.2.1.trans h.2.2⟩

/-- FRAG holds the same bytes below `j`, up to its end. -/
def SameFragment (j : Nat) (s s' : State) : Prop := ∀ k, k < j → k < FRAG_MAX → s'.fragRead k = s.fragRead k

section
variable {G : State → Prop} (hG : AboutCounts G)
include hG

theorem fragWrite_alike (j : Nat) (b : Byte) {s s' : State} (h : Alike G s s') :
    Alike G (s.fragWrite j b) (s'.fragWrite j b) where
  locals := by
    have hl := h.locals
    unfold OnlyLocals at hl ⊢
    unfold State.fragWrite
    rw [hl]
  cursor := h.cursor
  target := h.target
  flag := h.flag
  fragment := ⟨fragWrite_frag_wf h.fragment.1 j b, fragWrite_frag_wf h.fragment.2 j b⟩
  fact := ⟨hG s _ (steady_refl s) h.fact.1, hG s' _ (steady_refl s') h.fact.2⟩

/-- The bytes of a fragment read are the same in both. -/
theorem readFragment_related (n j : Nat) {s s' : State} (h : Alike G s s') (hfrag : SameFragment j s s') :
    Related (fun t t' => Alike G t t' ∧ SameFragment (j + n) t t') (readFragment n j s) (readFragment n j s') := by
  induction n generalizing j s s' with
  | zero => exact ⟨rfl, h, hfrag⟩
  | succ n ih =>
    rw [readFragment_succ, readFragment_succ]
    refine related_bind (need_related_frame hG h) fun b u u' ⟨hu, hsu, hsu'⟩ => ?_
    have hwrite : SameFragment (j + 1) (u.fragWrite j b) (u'.fragWrite j b) := fun k hk hmax => by
      rw [fragRead_fragWrite hu.fragment.1, fragRead_fragWrite hu.fragment.2]
      by_cases hjk : j = k
      · rw [if_pos ⟨hjk, hmax⟩, if_pos ⟨hjk, hmax⟩]
      · rw [if_neg fun hj => hjk hj.1, if_neg fun hj => hjk hj.1, hsu, hsu']
        exact hfrag k (by omega) hmax
    have hj : j + 1 + n = j + (n + 1) := by omega
    exact hj ▸ ih (j + 1) (fragWrite_alike hG j b hu) hwrite

end

/-- The copies of the fragment are the same: where one fits, all of the fragment is in FRAG. -/
theorem repeatFragment_related {r : BitVec 14} {f : Nat} {c : BitVec 16} {bt : BitVec 8} {s s' : State}
    (hf : f = 2 ^ bt.toNat) (h : Alike (FragmentCounts r f c) s s') (hfrag : SameFragment f s s') :
    ∃ r', Alike (LeftOver r') (repeatFragment c.toNat s) (repeatFragment c.toNat s') := by
  obtain ⟨⟨hr, hsize, -⟩, hr', hsize', -⟩ := h.fact
  have hpos : 0 < f := hf ▸ Nat.two_pow_pos _
  obtain ⟨m, hm⟩ : ∃ m, m = min c.toNat (r.toNat / f) := ⟨_, rfl⟩
  obtain ⟨v, hv, hcopy⟩ := repeatFragment_eq_emitAll (c := c.toNat) (m := m) (s := s) (hsize ▸ hpos) (by rw [hr, hsize, hm])
  obtain ⟨v', hv', hcopy'⟩ := repeatFragment_eq_emitAll (c := c.toNat) (m := m) (s := s') (hsize' ▸ hpos)
    (by rw [hr', hsize', hm])
  have hvv : v' = v := BitVec.eq_of_toNat_eq (by rw [hv, hv', hr, hr', hsize, hsize'])
  have hcopies : copies (fragment s') m = copies (fragment s) m := by
    by_cases hm0 : m = 0
    · rw [hm0]
      rfl
    · have hone : 1 ≤ r.toNat / f := (Nat.one_le_iff_ne_zero.mpr hm0).trans (hm.trans_le (Nat.min_le_right _ _))
      have hfits : f ≤ FRAG_MAX := by
        have hlt : 2 ^ bt.toNat < 2 ^ 14 := hf ▸ ((Nat.one_le_div_iff hpos).mp hone).trans_lt r.isLt
        have hbt : bt.toNat ≤ 13 := by
          have := (Nat.pow_lt_pow_iff_right (by decide : 1 < 2)).mp hlt
          omega
        rw [hf]
        exact Nat.pow_le_pow_right (by decide) hbt
      have hbytes : fragment s' = fragment s := by
        unfold fragment
        rw [hsize, hsize']
        refine List.map_congr_left fun k hk => ?_
        have hkf := List.mem_range.mp hk
        exact hfrag k hkf (hkf.trans_le hfits)
      rw [hbytes]
  rw [hcopy, hcopy', hvv, hcopies]
  have hemit := emitAll_alike (aboutCounts_fragmentCounts r f c) (copies (fragment s) m) h
  exact ⟨v, alike_register (H := LeftOver v) hemit v v _ _ _ _ rfl rfl⟩

/-- A fragment block stores its size and its count before it reads them. -/
theorem blkFragment_related (bt : BitVec 8) {r : BitVec 14} {s s' : State} (h : Alike (LeftOver r) s s') :
    Related (fun t t' => ∃ r', Alike (LeftOver r') t t') (blkFragment bt s) (blkFragment bt s') := by
  obtain ⟨f, hf⟩ : ∃ f, f = 1 <<< bt.toNat := ⟨_, rfl⟩
  have hsized := alike_register (H := fun t => t.remaining = r ∧ t.fsize = f) h s.remaining s'.remaining s.cnt s'.cnt f f
    ⟨h.fact.1, rfl⟩ ⟨h.fact.2, rfl⟩
  have hcounts : AboutCounts fun t => t.remaining = r ∧ t.fsize = f := fun _ _ hst h =>
    ⟨hst.1.trans h.1, hst.2.1.trans h.2⟩
  unfold blkFragment
  rw [← hf]
  refine related_bind (need_related hcounts hsized) fun c s1 s1' h1 => ?_
  obtain ⟨⟨hr, hsize⟩, hr', hsize'⟩ := h1.fact
  have hstart := alike_register (H := FragmentCounts r f (c.setWidth 16)) h1 s1.remaining s1'.remaining (c.setWidth 16)
    (c.setWidth 16) f f ⟨hr, rfl, rfl⟩ ⟨hr', rfl, rfl⟩
  have hread := readFragment_related (aboutCounts_fragmentCounts r f (c.setWidth 16)) f 0 hstart fun k hk =>
    absurd hk (Nat.not_lt_zero k)
  rw [Nat.zero_add] at hread
  rw [hsize, hsize']
  refine related_bind hread fun _ s2 s2' ⟨h2, hfrag⟩ => ?_
  rw [h2.fact.1.2.2, h2.fact.2.2.2]
  exact ⟨rfl, repeatFragment_related (hf.trans (Nat.one_shiftLeft _)) h2 hfrag⟩

/-! ### The loop of method 2 -/

theorem block_related (bt : BitVec 8) {r : BitVec 14} {s s' : State} (h : Alike (LeftOver r) s s') :
    Related (fun t t' => ∃ r', Alike (LeftOver r') t t') (if bt = 0 then blkLiteral s else blkFragment bt s)
      (if bt = 0 then blkLiteral s' else blkFragment bt s') := by
  split
  · exact blkLiteral_related h
  · exact blkFragment_related bt h

theorem blocks_succ {n : Nat} {s : State} (h : s.remaining.toNat ≠ 0) :
    blocks (n + 1) s = (need s).bind fun bt s1 =>
      (if bt = 0 then blkLiteral s1 else blkFragment bt s1).bind fun _ s2 => blocks n s2 := by
  cases hbt : need s with
  | raise e t => rw [blocks_type_raises h hbt]; rfl
  | ok bt s1 =>
    rw [Res.bind]
    cases hblk : (if bt = 0 then blkLiteral s1 else blkFragment bt s1) with
    | raise e t => rw [blocks_block_raises h hbt hblk]; rfl
    | ok a s2 => rw [blocks_block h hbt hblk]; rfl

theorem blocks_related (n : Nat) {r : BitVec 14} {s s' : State} (h : Alike (LeftOver r) s s') :
    Related (fun t t' => ∃ r', Alike (LeftOver r') t t') (blocks n s) (blocks n s') := by
  induction n generalizing r s s' with
  | zero =>
    obtain ⟨hr, hr'⟩ := h.fact
    by_cases hrem : r.toNat = 0
    · rw [blocks_done (hr ▸ hrem), blocks_done (hr' ▸ hrem)]
      exact ⟨rfl, r, h⟩
    · rw [blocks_zero (hr ▸ hrem), blocks_zero (hr' ▸ hrem)]
      exact ⟨rfl, h.locals⟩
  | succ n ih =>
    obtain ⟨hr, hr'⟩ := h.fact
    by_cases hrem : r.toNat = 0
    · rw [blocks_done (hr ▸ hrem), blocks_done (hr' ▸ hrem)]
      exact ⟨rfl, r, h⟩
    · rw [blocks_succ (hr ▸ hrem), blocks_succ (hr' ▸ hrem)]
      refine related_bind (need_related (aboutCounts_leftOver r) h) fun bt s1 s1' h1 => ?_
      exact related_bind (block_related bt h1) fun _ s2 s2' ⟨r', h2⟩ => ih h2

theorem byteBudget_onlyLocals {s s' : State} (h : OnlyLocals s s') : byteBudget s' = byteBudget s := by
  rw [h]
  rfl

theorem method2_related {s s' : State} (h : Alike (fun _ => True) s s') :
    Related (Alike fun _ => True) (method2 s) (method2 s') := by
  have hstart := alike_register (H := LeftOver s.tgt) h s.tgt s'.tgt s.cnt s'.cnt s.fsize s'.fsize rfl h.target
  unfold method2
  rw [byteBudget_onlyLocals h.locals]
  exact related_mono (blocks_related _ hstart) fun t t' ⟨_, ht⟩ => { ht with fact := ⟨trivial, trivial⟩ }

/-! ### The commands -/

theorem raiseErr_onlyLocals (e : Err) {s s' : State} (h : OnlyLocals s s') :
    OnlyLocals (raiseErr e s) (raiseErr e s') := by
  unfold OnlyLocals at h ⊢
  unfold raiseErr
  rw [h]

theorem value_onlyLocals (v : BitVec 16) {s s' : State} (h : OnlyLocals s s') :
    OnlyLocals { s with data := v } { s' with data := v } := by
  unfold OnlyLocals at h ⊢
  rw [h]

theorem code_onlyLocals (e : Err) {s s' : State} (h : OnlyLocals s s') :
    OnlyLocals { s with err := e } { s' with err := e } := by
  unfold OnlyLocals at h ⊢
  rw [h]

theorem result_onlyLocals (n : BitVec 14) {flag flag' : Bool} (hflag : flag' = flag) {s s' : State}
    (h : OnlyLocals s s') :
    OnlyLocals { s with shortFill := flag, outlen := n } { s' with shortFill := flag', outlen := n } := by
  subst hflag
  unfold OnlyLocals at h ⊢
  rw [h]

theorem finishRead_onlyLocals {x x' : Res (Option (BitVec 16))} (h : Related OnlyLocals x x') :
    OnlyLocals (finishRead x) (finishRead x') := by
  cases x with
  | ok v s =>
    cases x' with
    | ok v' s' =>
      obtain ⟨rfl, hs⟩ := h
      cases v with
      | none => exact raiseErr_onlyLocals _ (value_onlyLocals 0 hs)
      | some v => exact code_onlyLocals _ (value_onlyLocals v hs)
    | raise e' s' => exact h.elim
  | raise e s =>
    cases x' with
    | ok v' s' => exact h.elim
    | raise e' s' =>
      obtain ⟨rfl, hs⟩ := h
      exact raiseErr_onlyLocals e (value_onlyLocals 0 hs)

theorem readByte_onlyLocals {s s' : State} (h : OnlyLocals s s') : OnlyLocals (readByte s) (readByte s') :=
  finishRead_onlyLocals (related_bind (byteIn_related h) fun _ _ _ ht => ⟨rfl, ht.1⟩)

theorem readWordLe_onlyLocals {s s' : State} (h : OnlyLocals s s') : OnlyLocals (readWordLe s) (readWordLe s') :=
  finishRead_onlyLocals (related_bind (byteIn_related h) fun lo _ _ ht => match lo with
    | none => ⟨rfl, ht.1⟩
    | some _ => related_bind (byteIn_related ht.1) fun hi _ _ hu => match hi with
      | none => ⟨rfl, hu.1⟩
      | some _ => ⟨rfl, hu.1⟩)

theorem initStream_onlyLocals (c : Bool) {s s' : State} (h : OnlyLocals s s') :
    OnlyLocals (initStream c s) (initStream c s') := by
  unfold OnlyLocals at h ⊢
  unfold initStream
  rw [h]

/-- A payload starts alike whatever the registers held. -/
theorem payloadStart_alike (target : Nat) {s s' : State} (h : OnlyLocals s s') (hwf : s.frag.wf 0)
    (hwf' : s'.frag.wf 0) : Alike (fun _ => True) (payloadStart target s) (payloadStart target s') where
  locals := by
    unfold OnlyLocals at h ⊢
    unfold payloadStart
    rw [h]
  cursor := rfl
  target := rfl
  flag := rfl
  fragment := ⟨hwf, hwf'⟩
  fact := ⟨trivial, trivial⟩

theorem decodePayload_related {m : BitVec 8} (hm : m.toNat ≤ 2) (target : Nat) {s s' : State} (h : OnlyLocals s s')
    (hwf : s.frag.wf 0) (hwf' : s'.frag.wf 0) :
    Related (Alike fun _ => True) (decodePayload m target s) (decodePayload m target s') := by
  have hstart := payloadStart_alike target h hwf hwf'
  obtain rfl | rfl | rfl := method_cases hm
  · exact method0_related hstart
  · exact method1_related hstart
  · exact method2_related hstart

theorem decodeCommand_onlyLocals (m : BitVec 8) (target : Nat) {s s' : State} (h : OnlyLocals s s') (hwf : s.frag.wf 0)
    (hwf' : s'.frag.wf 0) : OnlyLocals (decodeCommand m target s) (decodeCommand m target s') := by
  by_cases hm : m.toNat ≤ 2
  · have hp := decodePayload_related hm target h hwf hwf'
    unfold decodeCommand
    cases hd : decodePayload m target s with
    | ok a t =>
      cases hd' : decodePayload m target s' with
      | ok a' t' =>
        rw [hd, hd'] at hp
        obtain ⟨-, ht⟩ := hp
        exact code_onlyLocals _ (result_onlyLocals _ ht.flag ht.locals)
      | raise e' t' => rw [hd, hd'] at hp; exact hp.elim
    | raise e t =>
      cases hd' : decodePayload m target s' with
      | ok a' t' => rw [hd, hd'] at hp; exact hp.elim
      | raise e' t' =>
        rw [hd, hd'] at hp
        obtain ⟨rfl, ht⟩ := hp
        exact raiseErr_onlyLocals e ht
  · rw [decodeCommand_unknown (Nat.lt_of_not_le hm), decodeCommand_unknown (Nat.lt_of_not_le hm)]
    exact raiseErr_onlyLocals _ h

theorem decodeLen_onlyLocals (m : BitVec 8) (n : BitVec 16) {s s' : State} (h : OnlyLocals s s') (hwf : s.frag.wf 0)
    (hwf' : s'.frag.wf 0) : OnlyLocals (decodeLen m n s) (decodeLen m n s') := by
  have hclear := result_onlyLocals 0 (flag := false) rfl h
  by_cases hn : n.toNat ≤ MAX_TARGET
  · rw [decodeLen_of_le hn, decodeLen_of_le hn]
    exact decodeCommand_onlyLocals m _ hclear hwf hwf'
  · rw [decodeLen_of_lt (Nat.lt_of_not_le hn), decodeLen_of_lt (Nat.lt_of_not_le hn)]
    exact raiseErr_onlyLocals _ hclear

theorem decodeSector_onlyLocals (m sc : BitVec 8) {s s' : State} (h : OnlyLocals s s') (hwf : s.frag.wf 0)
    (hwf' : s'.frag.wf 0) : OnlyLocals (decodeSector m sc s) (decodeSector m sc s') := by
  have hclear := result_onlyLocals 0 (flag := false) rfl h
  by_cases hsc : sc.toNat ≤ 6
  · rw [decodeSector_of_le hsc, decodeSector_of_le hsc]
    exact decodeCommand_onlyLocals m _ hclear hwf hwf'
  · rw [decodeSector_of_lt (Nat.lt_of_not_le hsc), decodeSector_of_lt (Nat.lt_of_not_le hsc)]
    exact raiseErr_onlyLocals _ hclear

/-- Both are accepted or neither is. -/
theorem accept_onlyLocals {body : State → State} {s s' : State} (h : OnlyLocals s s')
    (hbody : OnlyLocals (body s) (body s')) : OnlyLocals (accept body s) (accept body s') := by
  have hinited : s'.inited = s.inited := by rw [h]
  have hfaulted : s'.faulted = s.faulted := by rw [h]
  obtain ⟨hi, -⟩ | ⟨hi, hf, -⟩ | ⟨hi, hf, he⟩ := accept_cases body s
  · rw [accept_of_not_inited body hi, accept_of_not_inited body (hinited.trans hi)]
    exact code_onlyLocals _ h
  · rw [accept_of_faulted body hi hf, accept_of_faulted body (hinited.trans hi) (hfaulted.trans hf)]
    exact code_onlyLocals _ h
  · rw [he, accept_ready body ⟨hinited.trans hi, hfaulted.trans hf⟩]
    exact hbody

/-- Settles O57: two runs of a command from states that differ only in the command-local registers stay in step. -/
theorem commandLocalsAreNeverRead : Obligations.CommandLocalsAreNeverRead := by
  intro i s s' t hi hwf hwf' h ht
  cases i with
  | init c => cases ht; exact ⟨_, rfl, initStream_onlyLocals c h⟩
  | readByte => cases ht; exact ⟨_, rfl, accept_onlyLocals h (readByte_onlyLocals h)⟩
  | readWordLe => cases ht; exact ⟨_, rfl, accept_onlyLocals h (readWordLe_onlyLocals h)⟩
  | decodeSector m sc => cases ht; exact ⟨_, rfl, accept_onlyLocals h (decodeSector_onlyLocals m sc h hwf hwf')⟩
  | decodeLen m n => cases ht; exact ⟨_, rfl, accept_onlyLocals h (decodeLen_onlyLocals m n h hwf hwf')⟩
  | _ => cases hi

end Sys2Proof.Proofs
end
